-- ==== Sys2Proof/Word.lean ====
section
/-! DEFINITION. The data words and elements the block stores: bytes, 16-bit words, 32-bit registers, binary64
patterns and values, single bits, and the (label, word) pair (spec/20_memory.md R61, spec/00_scope.md R9). -/

namespace Sys2Proof

/-- A `u8`: one PS character code (R61). -/
abbrev Byte := BitVec 8

/-- A `u16`: a group word or a validated PI code (R61, R37). -/
abbrev Half := BitVec 16

/-- A 32-bit register, command word or words element (R23, R62, R80). -/
abbrev Word := BitVec 32

/-- A binary64 value as its 64-bit pattern (R12, R61). -/
abbrev F64 := BitVec 64

/-- A `bit`: `true` is 1 and `false` is 0; an element cannot hold any other value (R26). -/
abbrev Bit := Bool

/-- BlockLabel (glossary; R84): the position of a block in its group, in the fixed cycle order A, B, C′, D. -/
inductive BlockLabel where
  | a
  | b
  | cPrime
  | d
deriving DecidableEq, Repr, Inhabited

/-- GroupWord (glossary; R61): a (BlockLabel, u16) pair. -/
structure Pair where
  label : BlockLabel
  word  : Half
deriving DecidableEq, Repr, Inhabited

/-- The sign and the payload of a NaN: every binary64 NaN pattern is exactly one of these (the fraction field is
`frac + 1`, never 0). What SHAPE puts there is open (R159, spec/93 I11). -/
structure NaNBits where
  neg  : Bool
  frac : Fin 4503599627370495
deriving DecidableEq, Repr, Inhabited

/-- The opaque error value of the external channel encoder (R36, R120). The block never inspects it, so only its
identity matters; a token stands for it (notes/assumptions/6). -/
structure EncErr where
  token : Nat
deriving DecidableEq, Repr, Inhabited

/-- What a call of the external channel encoder comes to (R120): a bit sequence, an error value, or no answer at all
(R210, R239). -/
inductive EncAnswer where
  | ok (bits : List Bit)
  | err (e : EncErr)
  | noAnswer
deriving DecidableEq, Repr, Inhabited

/-- A binary64 value: NaN, a signed infinity, or (−1)^neg · mant · 2^(exp − 1074). A NaN's sign and payload are open
(R159), so no value carries them; they are chosen when a sample is published. -/
inductive Machine.Val where
  | nan
  | inf (neg : Bool)
  | fin (neg : Bool) (mant exp : Nat)
deriving DecidableEq, Repr

end Sys2Proof
end

