-- ==== Sys2Proof/Syntax.lean ====
section
/-! DEFINITION. The commands of spec/opcode_table.json, one constructor per row (spec/30_encoding.md R82). -/

namespace Sys2Proof

/-- A command of the block. Only GWG_PULL carries an operand; the others take theirs from registers (R83). -/
inductive Instr where
  | gwgInit
  | gwgNext
  | gwgPull (count : Nat)
  | diffEnc
  | biphase
  | shape
  | unmod
  | bitstream
deriving DecidableEq, Repr

end Sys2Proof
end

