-- ==== Sys2Proof/WellFormed.lean ====
section
/-! DEFINITION. Which commands have an encoding: GWG_PULL's COUNT fits 24 bits (spec/30_encoding.md R83, R87). -/

namespace Sys2Proof

/-- A COUNT above 2^24 − 1 is an assembly error (R87); the other commands have no operand that could be wrong. -/
def Instr.wf : Instr → Bool
  | .gwgInit => true
  | .gwgNext => true
  | .gwgPull count => count < 2 ^ 24
  | .diffEnc => true
  | .biphase => true
  | .shape => true
  | .unmod => true
  | .bitstream => true

end Sys2Proof
end

