-- ==== Sys2Proof/Decode.lean ====
section
/-! DEFINITION. The decoder of the 32-bit command word, total over all 2^32 words (spec/30_encoding.md R80 to R86), and
the encoder written from the same tables. -/

namespace Sys2Proof

/-- Why a word is ILLEGAL (R81, R85): its opcode is none of the eight, or COUNT is non-zero where it is reserved. -/
inductive IllegalWord where
  | unknownOpcode (opc : BitVec 8)
  | reservedCount (opc : BitVec 8) (count : Nat)
deriving DecidableEq, Repr

/-- OPC, bits 7:0 (R80). -/
def opcField (w : Word) : BitVec 8 := w.extractLsb' 0 8

/-- COUNT, bits 31:8, zero-extended (R80, R83). -/
def countField (w : Word) : Nat := (w.extractLsb' 8 24).toNat

/-- The opcode map's seven rows whose COUNT field is reserved (R82). -/
def plainInstr : BitVec 8 → Option Instr
  | 0x01#8 => some .gwgInit
  | 0x02#8 => some .gwgNext
  | 0x10#8 => some .diffEnc
  | 0x11#8 => some .biphase
  | 0x12#8 => some .shape
  | 0x20#8 => some .unmod
  | 0x21#8 => some .bitstream
  | _ => none

/-- R81, with ILLEGAL split by its reason. -/
def decode (w : Word) : Except IllegalWord Instr :=
  if opcField w = 0x03#8 then .ok (.gwgPull (countField w))
  else
    match plainInstr (opcField w) with
    | some i => if countField w = 0 then .ok i else .error (.reservedCount (opcField w) (countField w))
    | none => .error (.unknownOpcode (opcField w))

/-- The command word's OPC for each command (R82). -/
def Instr.opcode : Instr → BitVec 8
  | .gwgInit => 0x01#8
  | .gwgNext => 0x02#8
  | .gwgPull _ => 0x03#8
  | .diffEnc => 0x10#8
  | .biphase => 0x11#8
  | .shape => 0x12#8
  | .unmod => 0x20#8
  | .bitstream => 0x21#8

/-- The command word's COUNT for each command: 0 where the field is reserved (R80). -/
def Instr.countOperand : Instr → Nat
  | .gwgInit => 0
  | .gwgNext => 0
  | .gwgPull count => count
  | .diffEnc => 0
  | .biphase => 0
  | .shape => 0
  | .unmod => 0
  | .bitstream => 0

/-- The CMD32 word of a well-formed command: COUNT in bits 31:8, OPC in bits 7:0 (R80). -/
def encode (i : Instr) : Word := BitVec.ofNat 24 i.countOperand ++ i.opcode

/-- The command the decoder reads from a table word; every row of the table is one 32-bit word (R80), whose bits the
table numbers as the spec does. -/
def decodeTableWord (nbits w : Nat) : Option Instr := (decode (BitVec.ofNat 32 (w % 2 ^ nbits))).toOption

end Sys2Proof
end

