-- ==== Sys2Proof/Config.lean ====
section
/-! DEFINITION. What does not change while the machine runs: the constants of spec/00_scope.md R7, and the values the
spec leaves open, each an opaque constant with no body, so that no proof can lean on what it is. -/

namespace Sys2Proof.Config

/-- `SR_DEFAULT` (R7): 228000 samples per second. -/
def defaultSampleRate : Nat := 228000

/-- The reset value of SPB (R28, R45). -/
def defaultSpb : Nat := 192

/-- `B_MARK` (R7): the B-block group-type and version marker. -/
def blockBMark : Half := 0x0800#16

/-- `PAD` (R7): the space byte that pads PS. -/
def padByte : Byte := 0x20#8

/-- `PS_LEN` (R7). -/
def psLen : Nat := 8

/-- Twice `BITRATE` (R7): 1187.5 bits per second is 2375/2, and `TSYM` is 1/2375 s. -/
def twiceBitRate : Nat := 2375

/-- The default of `BATCH` (R8, R174): one group of four pairs per channel-encoder call. -/
def defaultBatch : Nat := 4

/-- ENC (R8, R120, R124): the external channel encoders whose behaviour the spec does not give, one for each identity.
Which of them a platform has bound is its own (R215), so nothing says that two instances' encoders are the same. An
encoder depends on the batch alone (R124). Open, so it has no body (notes/assumptions/5). -/
opaque enc : (id : Nat) → List Pair → EncAnswer

/-- The sign of output `m` of a declared convolution other than R155's where that output is a zero, one choice for each
identity of CONV (R8): R157 leaves it unspecified, and R158 allows no other difference. Open, so it has no body
(notes/assumptions/10). -/
opaque convZeroNeg : (id : Nat) → (x h : List Machine.Val) → (m : Nat) → Bool

/-- The sign and payload of the n-th NaN a block produces: any value (R159, spec/93 I11), one sequence for each identity.
Which sequence an instance draws from is its own, so nothing says that two instances' NaNs are the same
(notes/assumptions/8). -/
opaque nanBits : (id : Nat) → (n : Nat) → NaNBits

end Sys2Proof.Config
end

