-- ==== Sys2Proof/Machine/State.lean ====
section
/-! DEFINITION. The architectural state of one block instance (spec/10_state.md R20 to R47), the platform parameters
bound to it (spec/00_scope.md R8), the host accesses still to come, and the state after reset (R45). -/

namespace Sys2Proof.Machine

/-- The errors of R200 (codes 1 to 6). Only a channel-encoder failure carries a value. -/
inductive Err where
  | invalidPICode
  | invalidPSName
  | degenerateParameters
  | channelEncoder (info : EncErr)
  | noGenerator
  | illegalCommand
deriving DecidableEq, Repr

/-- Why the machine can stop for good. -/
inductive Fault where
  /-- Raised by BITSTREAM when the external encoder never answers a call: the command is stuck, neither finished nor
  failed (R210, R239). Safe: no claim about a next state can be made there. -/
  | encoderNeverAnswers
deriving DecidableEq, Repr

/-- Why the model gives a step no meaning. -/
inductive Refusal where
  /-- Raised by exec for a command that has no meaning yet. Safe: nothing can be claimed of that step. -/
  | notModelled (mnemonic : String)
  /-- Raised by a command or host write that would make a sequence longer than MAX_LEN (R72, R208: "a model refuses
  it"). Safe; never raised when MAX_LEN is unbounded. -/
  | capacityExceeded
  /-- Raised by BITSTREAM on a platform with no encoder bound (R234: "a model refuses it"). Safe. -/
  | encoderNotBound
  /-- Raised by BITSTREAM on a platform with BATCH = 0 (R174: "a model refuses BATCH = 0 as a configuration"). Safe. -/
  | batchZero
  /-- Raised by a host write whose value is not of the register's type (R23), an access the spec does not give. Safe. -/
  | hostValueKind
deriving DecidableEq, Repr

/-- One GroupWordGenerator with its cursor (R37 to R39): the slot's PI, padded PS, SubGroupIndex and block position. -/
structure Generator where
  pi  : Half
  ps  : Vector Byte 8
  i   : BitVec 2
  blk : BitVec 2
deriving DecidableEq, Repr

/-- OUT (R32): exactly one of four forms. -/
inductive Out where
  | none
  | words (ps : List Pair)
  | bits (bs : List Bit)
  | samples (ys : List F64)
deriving DecidableEq, Repr

/-- Which encoder the platform has bound (R234): none, the one of `Config.enc` under an identity, a test stub of R125
(STUB16, STUB_ERR, or a fixed pattern given row by row, silent on every other batch), or one that never answers (R239). -/
inductive EncBinding where
  | unbound
  | external (id : Nat)
  | stub16
  | stubErr (e : EncErr)
  | fixed (rows : List (List Pair × EncAnswer))
  | silent
deriving DecidableEq, Repr

/-- Kernel taps a platform supplies for one (spb, fs) in place of the default KERNEL (R8, R152). -/
structure TapTable where
  spb  : Nat
  fs   : Nat
  taps : List F64
deriving DecidableEq, Repr

/-- Which convolution the platform declares (R8, R158): the direct form of R155, or another
under an identity, which R158 permits only where its results are bit-identical. -/
inductive ConvBinding where
  | direct
  | other (id : Nat)
deriving DecidableEq, Repr

/-- The parameters a model takes as arguments (R8), fixed for the lifetime of an instance: ENC, BATCH, MAX_LEN (`none`
is unbounded), KERNEL (the tables override the default) and CONV. `nans`, the model's own, says which sequence of `Config.nanBits` the
instance's open NaNs come from. -/
structure Platform where
  enc     : EncBinding
  batch   : Nat
  maxLen  : Option Nat
  kernels : List TapTable
  conv    : ConvBinding
  nans    : Nat
deriving DecidableEq, Repr

/-- A value the host writes to a register, by the register types of R23. -/
inductive HostValue where
  | word (w : Word)
  | double (x : F64)
  | bytes (bs : List Byte)
  | bits (bs : List Bit)
  | doubles (xs : List F64)
deriving DecidableEq, Repr

/-- The elements of OUT as the host reads them (R62): 32-bit elements or 64-bit patterns. -/
inductive OutElems where
  | e32 (ws : List Word)
  | e64 (xs : List F64)
deriving DecidableEq, Repr

/-- What a host read returns (R23, R62). -/
inductive ReadValue where
  | word (w : Word)
  | double (x : F64)
  | bytes (bs : List Byte)
  | bits (bs : List Bit)
  | doubles (xs : List F64)
  | info (e : Option EncErr)
  | out (kind : Word) (elems : OutElems)
deriving DecidableEq, Repr

/-- One host access (R6, R23, R44, R230): a register write or read by index, or reset asserted. -/
inductive HostAction where
  | write (index : Nat) (value : HostValue)
  | read (index : Nat)
  | reset
deriving DecidableEq, Repr

/-- The state of one block instance. STATUS is a view of the generator slot, not storage (R33). -/
structure State where
  /-- GEN_VALID (R37). -/
  genValid : Bool
  /-- GEN_PI, GEN_PS, GEN_I, GEN_BLK (R37 to R39). -/
  gen : Generator
  /-- PI_IN, an int32 (R24). -/
  piIn : Word
  /-- SPB, a u32 (R28). -/
  spb : Word
  /-- SAMPLE_RATE, a u32 (R29). -/
  sampleRate : Word
  /-- SECONDS, a binary64 (R30). -/
  seconds : F64
  /-- PS_IN (R25). -/
  psIn : List Byte
  /-- BITS_IN (R26). -/
  bitsIn : List Bit
  /-- IMP_IN (R27). -/
  impIn : List F64
  /-- CMD, the word last written (R31). -/
  cmd : Word
  /-- OUT (R32). -/
  out : Out
  /-- ERR_LAST (R34). -/
  errLast : Word
  /-- ERR_STICKY (R35). -/
  errSticky : Word
  /-- ERR_INFO (R36). -/
  errInfo : Option EncErr
  /-- The model's own: the platform parameters (R8), which nothing in the block changes. -/
  platform : Platform
  /-- The model's own: the host accesses still to come, in order; the host's CMD writes are the program (R21). -/
  host : List HostAction
  /-- The model's own: what the host's last read returned. -/
  readData : Option ReadValue
  /-- The model's own: how many NaNs of open payload the block has produced (R159). -/
  nanCount : Nat
deriving DecidableEq, Repr

/-- The platform of the defaults of R8: an external encoder is bound, BATCH = 4, MAX_LEN unbounded, the default KERNEL
and CONV (notes/assumptions/3, 4). -/
def Platform.default : Platform :=
  { enc := .external 0, batch := Config.defaultBatch, maxLen := none, kernels := [], conv := .direct, nans := 0 }

/-- The machine right after reset (R45, R230). GEN_PI and GEN_PS are unspecified there and unobservable (R37): zeros
stand for them (notes/assumptions/1). -/
def State.reset : State where
  genValid := false
  gen := { pi := 0, ps := #v[0, 0, 0, 0, 0, 0, 0, 0], i := 0, blk := 0 }
  piIn := 0
  spb := BitVec.ofNat 32 Config.defaultSpb
  sampleRate := BitVec.ofNat 32 Config.defaultSampleRate
  seconds := 0
  psIn := []
  bitsIn := []
  impIn := []
  cmd := 0
  out := .none
  errLast := 0
  errSticky := 0
  errInfo := none
  platform := Platform.default
  host := []
  readData := none
  nanCount := 0

end Sys2Proof.Machine
end

