-- ==== Sys2Proof/Machine/Flags.lean ====
section
/-! DEFINITION. The status registers (spec/10_state.md R33 to R36, R47): the STATUS view, the error codes, the sticky
bits and the recorded error value. The block has no arithmetic flags (R47). -/

namespace Sys2Proof.Machine

/-- The error codes of R200. -/
def Err.code : Err → Nat
  | .invalidPICode => 1
  | .invalidPSName => 2
  | .degenerateParameters => 3
  | .channelEncoder _ => 4
  | .noGenerator => 5
  | .illegalCommand => 6

/-- What ERR_INFO records: the encoder's value, unmodified, for code 4 and nothing otherwise (R36, R203). -/
def Err.info : Err → Option EncErr
  | .invalidPICode => none
  | .invalidPSName => none
  | .degenerateParameters => none
  | .channelEncoder e => some e
  | .noGenerator => none
  | .illegalCommand => none

/-- ERR_LAST after the error: bits 7:0 hold the code and bits 31:8 are 0 (R34). -/
def Err.codeWord (e : Err) : Word := BitVec.ofNat 32 e.code

/-- The ERR_STICKY bit of the error: bit `c` for code `c` (R35, R203). -/
def Err.stickyBit (e : Err) : Word := 1#32 <<< e.code

/-- STATUS (R33): bits 31:5 zero, GEN_I in 4:3, GEN_BLK in 2:1, GEN_VALID in 0. -/
def statusWord (s : State) : Word := 0#27 ++ s.gen.i ++ s.gen.blk ++ BitVec.ofBool s.genValid

end Sys2Proof.Machine
end

