-- ==== Sys2Proof/Machine/Float.lean ====
section
/-! DEFINITION. IEEE 754 binary64 under round-to-nearest, ties-to-even (spec/00_scope.md R11, R12): each operation takes
its operands to exact integers or fractions, computes exactly, and rounds once. -/

namespace Sys2Proof.Machine

/-- 2^1074: the smallest positive binary64 value is its reciprocal. Irreducible, so that no proof computes it. -/
@[irreducible] def unitScale : Nat := 2 ^ 1074

/-- The pattern of +∞: every pattern of a non-negative finite value lies below it. -/
def infMag : Nat := 0x7FF0000000000000

/-- The value of a 63-bit magnitude pattern under a sign. -/
def Val.ofMag (neg : Bool) (mag : Nat) : Val :=
  if infMag < mag then .nan
  else if mag = infMag then .inf neg
  else if mag < 2 ^ 52 then .fin neg mag 0
  else .fin neg (2 ^ 52 + mag % 2 ^ 52) (mag / 2 ^ 52 - 1)

/-- The value of a binary64 pattern. -/
def valOf (x : F64) : Val := Val.ofMag x.msb (x.toNat % 2 ^ 63)

/-- A pattern from its sign and its 63-bit magnitude. -/
def patternOf (neg : Bool) (mag : Nat) : F64 := BitVec.ofBool neg ++ BitVec.ofNat 63 mag

/-- The pattern of a value; `nb` supplies the sign and payload of a NaN. -/
def Val.pattern (nb : NaNBits) : Val → F64
  | .nan => patternOf nb.neg (infMag + nb.frac.val + 1)
  | .inf neg => patternOf neg infMag
  | .fin neg mant exp => patternOf neg (exp * 2 ^ 52 + mant)

/-- RN64 (R152) on a non-negative fraction, as a magnitude pattern: `infMag` is overflow to +∞. `sh` is the exponent of
the unit in the last place, counted from 2^−1074. -/
def roundMag (num den : Nat) : Nat :=
  let scaled := num * unitScale
  let sh := (scaled / den).log2 - 52
  let ulp := den * 2 ^ sh
  let q := scaled / ulp
  let r := scaled % ulp
  let q' := if ulp < 2 * r ∨ (ulp = 2 * r ∧ q % 2 = 1) then q + 1 else q
  min (sh * 2 ^ 52 + q') infMag

/-- The binary64 value nearest to (−1)^neg · num / den. -/
def roundVal (neg : Bool) (num den : Nat) : Val := Val.ofMag neg (roundMag num den)

/-- An integer multiple of 2^−1074 with a sign. -/
def signed (neg : Bool) (m : Nat) : Int := if neg then -(m : Int) else m

/-- `fadd` (R11). An exact zero sum is −0.0 only when both operands are −0.0 (R157). -/
def fadd : Val → Val → Val
  | .nan, _ => .nan
  | .inf _, .nan => .nan
  | .fin _ _ _, .nan => .nan
  | .inf n₁, .inf n₂ => if n₁ = n₂ then .inf n₁ else .nan
  | .inf n₁, .fin _ _ _ => .inf n₁
  | .fin _ _ _, .inf n₂ => .inf n₂
  | .fin n₁ m₁ e₁, .fin n₂ m₂ e₂ =>
    if m₁ = 0 ∧ m₂ = 0 then .fin (n₁ && n₂) 0 0
    else
      let sum := signed n₁ (m₁ * 2 ^ e₁) + signed n₂ (m₂ * 2 ^ e₂)
      if sum = 0 then .fin false 0 0 else roundVal (decide (sum < 0)) sum.natAbs unitScale

/-- `fmul` (R11): the sign is the exclusive or of the signs, also of a zero or infinite product; ∞ × 0 is NaN (R159). -/
def fmul : Val → Val → Val
  | .nan, _ => .nan
  | .inf _, .nan => .nan
  | .fin _ _ _, .nan => .nan
  | .inf n₁, .inf n₂ => .inf (n₁ ^^ n₂)
  | .inf n₁, .fin n₂ m₂ _ => if m₂ = 0 then .nan else .inf (n₁ ^^ n₂)
  | .fin n₁ m₁ _, .inf n₂ => if m₁ = 0 then .nan else .inf (n₁ ^^ n₂)
  | .fin n₁ m₁ e₁, .fin n₂ m₂ e₂ =>
    if m₁ = 0 ∨ m₂ = 0 then .fin (n₁ ^^ n₂) 0 0
    else roundVal (n₁ ^^ n₂) (m₁ * m₂ * 2 ^ (e₁ + e₂)) (unitScale * unitScale)

/-- Binary64 division (R173's `fdiv`). -/
def fdiv : Val → Val → Val
  | .nan, _ => .nan
  | .inf _, .nan => .nan
  | .fin _ _ _, .nan => .nan
  | .inf _, .inf _ => .nan
  | .inf n₁, .fin n₂ _ _ => .inf (n₁ ^^ n₂)
  | .fin n₁ _ _, .inf n₂ => .fin (n₁ ^^ n₂) 0 0
  | .fin n₁ m₁ e₁, .fin n₂ m₂ e₂ =>
    if m₂ = 0 then (if m₁ = 0 then .nan else .inf (n₁ ^^ n₂))
    else if m₁ = 0 then .fin (n₁ ^^ n₂) 0 0
    else roundVal (n₁ ^^ n₂) (m₁ * 2 ^ e₁) (m₂ * 2 ^ e₂)

/-- `fneg` (R11): the sign changes and nothing else does. -/
def fneg : Val → Val
  | .nan => .nan
  | .inf neg => .inf !neg
  | .fin neg mant exp => .fin (!neg) mant exp

/-- The exact ceiling of the finite non-negative value mant · 2^(exp − 1074) (R173). -/
def ceilMag (mant exp : Nat) : Nat :=
  if mant = 0 then 0 else (mant * 2 ^ exp + (unitScale - 1)) / unitScale

/-- +0.0. -/
def valZero : Val := valOf 0x0000000000000000#64

/-- +1.0. -/
def valOne : Val := valOf 0x3FF0000000000000#64

/-- −1.0. -/
def valNegOne : Val := valOf 0xBFF0000000000000#64

/-- `BITRATE`, 1187.5, exactly representable (R7). -/
def valBitRate : Val := valOf 0x40928E0000000000#64

/-- 26.0, `CB_FORMULA` (R7). -/
def valBlockBits : Val := valOf 0x403A000000000000#64

/-- A value whose sign is open where it is a zero and nowhere else (R157). -/
def withZeroSign (neg : Bool) : Val → Val
  | .nan => .nan
  | .inf n => .inf n
  | .fin n mant exp => if mant = 0 then .fin neg 0 0 else .fin n mant exp

/-- Publishing samples: patterns in order, each NaN taking the next free sign and payload of the sequence `id` (R159).
Answers the patterns and the advanced NaN count. Instances that draw from different sequences have NaNs of their own
(R75, R215); under one sequence their n-th NaNs are the same (notes/assumptions/8). -/
def publish (id : Nat) : Nat → List Val → List F64 × Nat
  | n, [] => ([], n)
  | n, v :: vs =>
    let rest := publish id (if v = .nan then n + 1 else n) vs
    (v.pattern (Config.nanBits id n) :: rest.1, rest.2)

end Sys2Proof.Machine
end

