-- ==== Sys2Proof/Machine/Ops.lean ====
section
/-! DEFINITION. The operations every command shares: publishing a result, raising an error (the block's one form of
exception, spec/60_exceptions.md R203), and the MAX_LEN check (spec/20_memory.md R72). There is no return from an error,
because nothing needs to be restored (R205), and the block has no memory (R60). -/

namespace Sys2Proof.Machine

/-- How a command ends early: it raises an error, has no meaning, or is stuck. -/
inductive Abort where
  | raised (e : Err)
  | refused (r : Refusal)
  | stuck (f : Fault)
deriving DecidableEq, Repr

/-- `raise E(info)` (R11). -/
def raise {α : Type} (e : Err) : Except Abort α := .error (.raised e)

/-- A command succeeds (the last line of every command's pseudocode): OUT is replaced, ERR_LAST becomes 0 and ERR_INFO
`none`; ERR_STICKY is unchanged (R35). -/
def succeed (out : Out) (s : State) : State := { s with out := out, errLast := 0, errInfo := none }

/-- A command succeeds with samples; NaNs among them take free patterns (R159). -/
def succeedSamples (vs : List Val) (s : State) : State :=
  succeed (.samples (publish s.platform.nans s.nanCount vs).1) { s with nanCount := (publish s.platform.nans s.nanCount vs).2 }

/-- TAKING AN ERROR, `abort(c, info)` of R203: OUT becomes `none` and the error is recorded; nothing else changes. -/
def abort (e : Err) (s : State) : State :=
  { s with
    out := .none
    errLast := e.codeWord
    errSticky := s.errSticky ||| e.stickyBit
    errInfo := e.info }

/-- A command is one indivisible step (R5, R69): either all of its changes land, or, when it raises an error, none but
the abort's (R201, R203). -/
def settle (s : State) : Except Abort State → Host.Outcome State Fault Refusal
  | .ok t => .next t
  | .error (.raised e) => .next (abort e s)
  | .error (.refused r) => .refused r
  | .error (.stuck f) => .fault f

/-- Whether MAX_LEN admits a sequence of `n` elements (R72); `none` is unbounded. -/
def fits (maxLen : Option Nat) (n : Nat) : Bool :=
  match maxLen with
  | none => true
  | some m => decide (n ≤ m)

/-- A command that would exceed MAX_LEN is refused, not given an error (R72, R208). -/
def needRoom (maxLen : Option Nat) (n : Nat) : Except Abort Unit :=
  if fits maxLen n then .ok () else .error (.refused .capacityExceeded)

end Sys2Proof.Machine
end

