-- ==== Sys2Proof/Machine/Operands.lean ====
section
/-! DEFINITION. How commands read their operands (spec/30_encoding.md R83): validation of PI and PS, the unsigned
registers, samplesPerBit from SAMPLE_RATE, the impulse input as values, and the pair count from SECONDS. -/

namespace Sys2Proof.Machine

/-- PS padded to 8 bytes with spaces on the right (R101). -/
def padPs (ps : List Byte) (h : ps.length ≤ 8) : Vector Byte 8 :=
  ⟨⟨ps ++ List.replicate (8 - ps.length) Config.padByte⟩, by simp; omega⟩

/-- `validate` (R101): PI_IN is checked first, as a signed value (R24, R206); a PS longer than 8 is an error, never a
truncation. -/
def validate (pi : Word) (ps : List Byte) : Except Abort (Half × Vector Byte 8) :=
  if pi.toInt < 0 ∨ 0xFFFF < pi.toInt then raise .invalidPICode
  else if h : ps.length ≤ 8 then .ok (pi.setWidth 16, padPs ps h)
  else raise .invalidPSName

/-- The validated operands of GWG_INIT and BITSTREAM: MAX_LEN bounds the name as it is written and the padded name as it
is built (R72). -/
def nameOperands (maxLen : Option Nat) (pi : Word) (ps : List Byte) : Except Abort (Half × Vector Byte 8) := do
  needRoom maxLen ps.length
  let v ← validate pi ps
  needRoom maxLen Config.psLen
  .ok v

/-- UNMOD's samplesPerBit: floor(SAMPLE_RATE / 1187.5), computed exactly (R171). -/
def samplesPerBit (fs : Nat) : Nat := 2 * fs / Config.twiceBitRate

/-- IMP_IN as binary64 values (R27). -/
def impulseOperand (xs : List F64) : List Val := xs.map valOf

/-- `pairCount` (R173): a negative, NaN or infinite SECONDS or an infinite quotient is degenerate; −0.0 is accepted. -/
def pairCount (seconds : F64) : Except Abort Nat :=
  match valOf seconds with
  | .nan => raise .degenerateParameters
  | .inf _ => raise .degenerateParameters
  | .fin neg mant exp =>
    if neg = true ∧ mant ≠ 0 then raise .degenerateParameters
    else
      match fdiv (fmul (.fin neg mant exp) valBitRate) valBlockBits with
      | .nan => raise .degenerateParameters
      | .inf _ => raise .degenerateParameters
      | .fin _ m e => .ok (ceilMag m e)

end Sys2Proof.Machine
end

