-- ==== Sys2Proof/Machine/Biphase.lean ====
section
/-! DEFINITION. The biphase symbol expander (spec/43_biphase.md). -/

namespace Sys2Proof.Machine

/-- `prototype` (R142): +1.0 at offset 0, −1.0 at offset (s div 2) − 1, +0.0 elsewhere. -/
def prototype (spb : Nat) : List Val :=
  ((List.replicate spb valZero).set 0 valOne).set (spb / 2 - 1) valNegOne

/-- The symbol of one bit (R143): the prototype, or each of its samples times −1.0. -/
def symbolOf (spb : Nat) (bit : Bit) : List Val :=
  if bit then prototype spb else (prototype spb).map fun p => fmul p valNegOne

/-- The impulse train of a bit sequence: bit k owns the samples k·spb to k·spb + spb − 1 (R141). -/
def impulses (spb : Nat) (bits : List Bit) : List Val := bits.flatMap (symbolOf spb)

/-- `expand` (R140): SPB is checked before the input is looked at. The prototype and the impulse buffer are bounded by
MAX_LEN (R41, R72). -/
def expand (maxLen : Option Nat) (bits : List Bit) (spb : Nat) : Except Abort (List Val) :=
  if spb < 4 then raise .degenerateParameters
  else do
    needRoom maxLen spb
    needRoom maxLen (bits.length * spb)
    .ok (impulses spb bits)

/-- BIPHASE (R140). -/
def execBiphase (s : State) : Host.Outcome State Fault Refusal :=
  settle s do
    needRoom s.platform.maxLen s.bitsIn.length
    let ys ← expand s.platform.maxLen s.bitsIn s.spb.toNat
    .ok (succeedSamples ys s)

end Sys2Proof.Machine
end

