-- ==== Sys2Proof/Machine/Differential.lean ====
section
/-! DEFINITION. The differential encoder (spec/42_differential.md). -/

namespace Sys2Proof.Machine

/-- The chain d[k] = d[k−1] XOR c[k] from the previous output bit (R130). -/
def xorChain : Bit → List Bit → List Bit
  | _, [] => []
  | prev, c :: cs => (prev ^^ c) :: xorChain (prev ^^ c) cs

/-- `diffenc` (R130): d[0] is 0 unconditionally and c[0] is not read (R132); empty in, empty out. -/
def diffenc : List Bit → List Bit
  | [] => []
  | _ :: cs => false :: xorChain false cs

/-- DIFF_ENC (R130): it cannot fail. -/
def execDiffEnc (s : State) : Host.Outcome State Fault Refusal :=
  settle s do
    needRoom s.platform.maxLen s.bitsIn.length
    .ok (succeed (.bits (diffenc s.bitsIn)) s)

end Sys2Proof.Machine
end

