-- ==== Sys2Proof/Machine/GroupWords.lean ====
section
/-! DEFINITION. The GroupWordGenerator and its three commands (spec/40_group_words.md). -/

namespace Sys2Proof.Machine

/-- The 2-bit code of a label (R84). -/
def labelCode : BlockLabel → BitVec 2
  | .a => 0
  | .b => 1
  | .cPrime => 2
  | .d => 3

/-- The label a 2-bit code stands for (R84). -/
def labelOf (blk : BitVec 2) : BlockLabel :=
  if blk = 0 then .a else if blk = 1 then .b else if blk = 2 then .cPrime else .d

/-- The D-block word of SubGroupIndex `i`: PS[2i] in bits 15:8, PS[2i+1] in bits 7:0 (R63). -/
def dWord (ps : Vector Byte 8) (i : BitVec 2) : Half := ps[2 * i.toNat] ++ ps[2 * i.toNat + 1]

/-- The word under a label (R89, R90, R102). -/
def groupWord (g : Generator) : BlockLabel → Half
  | .a => g.pi
  | .b => Config.blockBMark ||| g.i.setWidth 16
  | .cPrime => g.pi
  | .d => dWord g.ps g.i

/-- `emit` (R102): the next pair, and the generator one pair on. -/
def emit (g : Generator) : Pair × Generator :=
  ({ label := labelOf g.blk, word := groupWord g (labelOf g.blk) },
   { g with i := if g.blk = 3 then g.i + 1 else g.i, blk := g.blk + 1 })

/-- The next `n` pairs in order, and the generator `n` pairs on (R104). -/
def pull : Nat → Generator → List Pair × Generator
  | 0, g => ([], g)
  | n + 1, g =>
    let rest := pull n (emit g).2
    ((emit g).1 :: rest.1, rest.2)

/-- A new generator starts at SubGroupIndex 0, block A (R100, R232). -/
def freshGenerator (pi : Half) (ps : Vector Byte 8) : Generator := { pi := pi, ps := ps, i := 0, blk := 0 }

/-- GWG_INIT (R100). -/
def execGwgInit (s : State) : Host.Outcome State Fault Refusal :=
  settle s do
    let v ← nameOperands s.platform.maxLen s.piIn s.psIn
    .ok (succeed .none { s with genValid := true, gen := freshGenerator v.1 v.2 })

/-- GWG_NEXT (R102, R103). -/
def execGwgNext (s : State) : Host.Outcome State Fault Refusal :=
  settle s do
    if s.genValid then
      needRoom s.platform.maxLen 1
      .ok (succeed (.words [(emit s.gen).1]) { s with gen := (emit s.gen).2 })
    else raise .noGenerator

/-- GWG_PULL (R103, R104): the generator is checked even for COUNT 0. -/
def execGwgPull (count : Nat) (s : State) : Host.Outcome State Fault Refusal :=
  settle s do
    if s.genValid then
      needRoom s.platform.maxLen count
      .ok (succeed (.words (pull count s.gen).1) { s with gen := (pull count s.gen).2 })
    else raise .noGenerator

end Sys2Proof.Machine
end

