-- ==== Sys2Proof/Machine/Kernel.lean ====
section
/-! DEFINITION. The root-raised-cosine kernel, β = 1, T = 1/2375 s (spec/44_pulse_shaper.md R151 to R154), each tap the
correctly rounded value of 4 cos(2πr) / (π (1 − 16 r²)) at r = u · 2375 / fs, where u is the tap's distance from the
peak. The value is enclosed between two fractions at doubled precision until both round alike. -/

namespace Sys2Proof.Machine

/-- floor(π · 2^512). -/
def piBits : Nat :=
  0x3243f6a8885a308d313198a2e03707344a4093822299f31d0082efa98ec4e6c89452821e638d01377be5466cf34e90c6cc0ac29b7c97c50dd3f84d5b5b5470917

/-- floor(π · 2^P), for P up to 512. -/
def piFloor (P : Nat) : Nat := piBits / 2 ^ (512 - P)

/-- Bounds of the tail t_k / (2k+1) − t_(k+1) / (2k+3) + … of the series of arctan(1/m), scaled like the bounds of
t_k = 1 / m^(2k+1); the series is cut `n` terms on, where the tail lies between 0 and its first term. -/
def atanTail (m : Nat) : (n k tLo tHi : Nat) → Int × Int
  | 0, k, _, tHi => (0, ((tHi / (2 * k + 1) + 1 : Nat) : Int))
  | n + 1, k, tLo, tHi =>
    let rest := atanTail m n (k + 1) (tLo / (m * m)) (tHi / (m * m) + 1)
    (((tLo / (2 * k + 1) : Nat) : Int) - rest.2, ((tHi / (2 * k + 1) + 1 : Nat) : Int) - rest.1)

/-- Bounds of arctan(1/m) · 2^P. -/
def atanBounds (m P : Nat) : Int × Int := atanTail m (P / 4 + 4) 0 (2 ^ P / m) (2 ^ P / m + 1)

/-- Bounds of π · 2^P: from the constant up to 512 bits, and beyond by Machin's π = 16 arctan(1/5) − 4 arctan(1/239). -/
def piBounds (P : Nat) : Nat × Nat :=
  if P ≤ 512 then (piFloor P, piFloor P + 1)
  else
    ((16 * (atanBounds 5 P).1 - 4 * (atanBounds 239 P).2).toNat,
     (16 * (atanBounds 5 P).2 - 4 * (atanBounds 239 P).1).toNat)

/-- Bounds, scaled by 2^P, of the tail t_k − t_(k+1) + t_(k+2) − … of the cosine series, from bounds of its first term
t_k = θ^(2k) / (2k)! and of θ²; the series is cut `n` terms on, where the tail lies between 0 and its first term. -/
def cosTail (P sqLo sqHi : Nat) : (n k tLo tHi : Nat) → Int × Int
  | 0, _, _, tHi => (0, tHi)
  | n + 1, k, tLo, tHi =>
    let div := (2 * k + 1) * (2 * k + 2) * 2 ^ P
    let rest := cosTail P sqLo sqHi n (k + 1) (tLo * sqLo / div) (tHi * sqHi / div + 1)
    ((tLo : Int) - rest.2, (tHi : Int) - rest.1)

/-- Bounds of cos(π · t / fs) · 2^P for 0 ≤ t / fs ≤ 1/2. -/
def cosBounds (P t fs : Nat) : Nat × Nat :=
  let thLo := (piBounds P).1 * t / fs
  let thHi := (piBounds P).2 * t / fs + 1
  let c := cosTail P (thLo * thLo / 2 ^ P) (thHi * thHi / 2 ^ P + 1) (P / 8 + 4) 0 (2 ^ P) (2 ^ P)
  (c.1.toNat, c.2.toNat)

/-- The angle 2π · a / fs brought to the first quadrant: |cos(2π · a / fs)| = cos(π · t / fs) with 0 ≤ t / fs ≤ 1/2. -/
def quadrant (a fs : Nat) : Nat :=
  let b := min (a % fs) (fs - a % fs)
  if 4 * b ≤ fs then 2 * b else fs - 2 * b

/-- |fs² − 16 a²|: the denominator 1 − 16 r² of R153 as an integer, for r = a / fs. -/
def denomMag (a fs : Nat) : Nat := max (fs * fs) (16 * a * a) - min (fs * fs) (16 * a * a)

/-- The rounded lower and upper bounds of |g| = 4 |cos(2πr)| / (π |1 − 16 r²|), r = a / fs, at precision P (R153). -/
def tapBounds (P a fs : Nat) : Nat × Nat :=
  let c := cosBounds P (quadrant a fs) fs
  let d := denomMag a fs
  (roundMag (4 * c.1 * (fs * fs)) ((piBounds P).2 * d), roundMag (4 * c.2 * (fs * fs)) ((piBounds P).1 * d))

/-- RN64(|g|) (R152): precision is doubled from P until both bounds round alike, and so to the value they enclose. It
ends for every rate and distance at which g is not 0 or a limit value, since g is then irrational and no bound between
two roundings (notes/assumptions/9). -/
def tapSearch (fs u P : Nat) : Nat :=
  let b := tapBounds P (u * Config.twiceBitRate) fs
  if b.1 = b.2 then b.1 else tapSearch fs u (2 * P)
partial_fixpoint

/-- The magnitude of a tap: the first of the listed precisions that settles it, and beyond them the search goes on. -/
def tapMag (fs u : Nat) : List Nat → Nat
  | [] => tapSearch fs u 1024
  | P :: Ps =>
    let b := tapBounds P (u * Config.twiceBitRate) fs
    if b.1 = b.2 then b.1 else tapMag fs u Ps

/-- The precisions tried first, in fractional bits; they settle every tap seen, and the search beyond them is exact too. -/
def tapPrecisions : List Nat := [128, 256, 512]

/-- g at 4r = 4a / fs below 0: the cosine is negative in the second and third quadrants, and the denominator
1 − 16 r² beyond 4r = 1 (R153). -/
def tapNeg (a fs : Nat) : Bool :=
  decide (fs < 4 * (a % fs) ∧ 4 * (a % fs) < 3 * fs) ^^ decide (fs < 4 * a)

/-- The tap at distance `u` from the peak (R152, R153): the limit value 1 at 4r = 1, +0.0 at the other odd 4r, and the
rounded value of g elsewhere. g is even, so the side does not matter (R154). -/
def tapAt (fs u : Nat) : Val :=
  let a := u * Config.twiceBitRate
  if 4 * a = fs then valOne
  else if 4 * a % fs = 0 ∧ 4 * a / fs % 2 = 1 then valZero
  else Val.ofMag (tapNeg a fs) (tapMag fs u tapPrecisions)

/-- The default KERNEL (R152): 2·spb taps, tap x at time (x − spb) / fs. -/
def defaultKernel (spb fs : Nat) : List Val :=
  (List.range (2 * spb)).map fun x => tapAt fs (max x spb - min x spb)

/-- KERNEL (R8): the platform's taps for (spb, fs) where it supplies 2·spb of them, and the default elsewhere. The taps
are computed once per command (R42). -/
def kernel (tables : List TapTable) (spb fs : Nat) : List Val :=
  match tables.find? (fun t => t.spb == spb && t.fs == fs && t.taps.length == 2 * spb) with
  | some t => t.taps.map valOf
  | none => defaultKernel spb fs

end Sys2Proof.Machine
end

