-- ==== Sys2Proof/Machine/PulseShaper.lean ====
section
/-! DEFINITION. The RRC pulse shaper: the convolution and SHAPE (spec/44_pulse_shaper.md). -/

namespace Sys2Proof.Machine

/-- Output `m` of the default CONV (R155): from +0.0, the products x[j] · h[m − j] are added in ascending j, for j from
max(0, m − L + 1) to min(m, N − 1). -/
def convAt (x h : List Val) (m : Nat) : Val :=
  let lo := m + 1 - h.length
  let hi := min m (x.length - 1)
  let count := hi + 1 - lo
  let xs := (x.drop lo).take count
  let hs := ((h.drop (m - hi)).take count).reverse
  (List.zipWith fmul xs hs).foldl fadd valZero

/-- Output `m` under the platform's CONV (R8): the direct form (R155), or another convolution it declares, permitted only
where it gives the same bits (R158), the sign of a zero output left open (R157). -/
def convOutput : ConvBinding → List Val → List Val → Nat → Val
  | .direct, x, h, m => convAt x h m
  | .other id, x, h, m => withZeroSign (Config.convZeroNeg id x h m) (convAt x h m)

/-- CONV: the full convolution, N + L − 1 outputs, not truncated (R155, R156). -/
def convolve (conv : ConvBinding) (x h : List Val) : List Val :=
  (List.range (x.length + h.length - 1)).map (convOutput conv x h)

/-- `shape` (R150): SPB = 0, SAMPLE_RATE = 0 or an empty input is degenerate. The kernel store and the output are bounded
by MAX_LEN (R42, R72). -/
def shapePulse (p : Platform) (x : List Val) (spb fs : Nat) : Except Abort (List Val) :=
  if spb = 0 ∨ fs = 0 ∨ x.length = 0 then raise .degenerateParameters
  else do
    needRoom p.maxLen (2 * spb)
    needRoom p.maxLen (x.length + 2 * spb - 1)
    .ok (convolve p.conv x (kernel p.kernels spb fs))

/-- SHAPE (R150). -/
def execShape (s : State) : Host.Outcome State Fault Refusal :=
  settle s do
    needRoom s.platform.maxLen s.impIn.length
    let ys ← shapePulse s.platform (impulseOperand s.impIn) s.spb.toNat s.sampleRate.toNat
    .ok (succeedSamples ys s)

end Sys2Proof.Machine
end

