-- ==== Sys2Proof/Machine/Composites.lean ====
section
/-! DEFINITION. The external channel-encoder call (spec/41_channel_encoder.md) and the two composite commands UNMOD and
BITSTREAM (spec/45_composites.md). -/

namespace Sys2Proof.Machine

/-- UNMOD (R170): the three numeric stages in sequence; SPB is neither read nor written. -/
def execUnmod (s : State) : Host.Outcome State Fault Refusal :=
  settle s do
    needRoom s.platform.maxLen s.bitsIn.length
    let fs := s.sampleRate.toNat
    let spb := samplesPerBit fs
    let x ← expand s.platform.maxLen (diffenc s.bitsIn) spb
    let ys ← shapePulse s.platform x spb fs
    .ok (succeedSamples ys s)

/-- The 16 bits of a word, most significant first (STUB16, R125). -/
def wordBitsMsb (w : Half) : List Bit := (List.range 16).map fun k => w.getMsbD k

/-- `ENC(batch)` under the platform's binding (R120, R125, R234, R239). Instances bound to `.external` under different
identities have encoders of their own (R215); under one identity they share one function (notes/assumptions/5). -/
def callEncoder : EncBinding → List Pair → EncAnswer
  | .unbound, _ => .noAnswer
  | .external id, batch => Config.enc id batch
  | .stub16, batch => .ok (batch.flatMap fun p => wordBitsMsb p.word)
  | .stubErr e, _ => .err e
  | .fixed rows, batch => (rows.lookup batch).getD .noAnswer
  | .silent, _ => .noAnswer

/-- BITSTREAM's loop (R172): while pairs remain, the next batch of at most `batch` of them goes to the encoder and its
answer, unchecked (R121), is appended. `fuel` bounds the iterations; each takes at least one pair. -/
def encodeBatches (p : Platform) : (fuel remaining : Nat) → Generator → List Bit → Except Abort (List Bit)
  | 0, _, _, acc => .ok acc
  | fuel + 1, remaining, g, acc =>
    if remaining = 0 then .ok acc
    else do
      let size := min p.batch remaining
      needRoom p.maxLen size
      match callEncoder p.enc (pull size g).1 with
      | .ok b =>
        needRoom p.maxLen (acc ++ b).length
        encodeBatches p fuel (remaining - size) (pull size g).2 (acc ++ b)
      | .err e => raise (.channelEncoder e)
      | .noAnswer => .error (.stuck .encoderNeverAnswers)

/-- The configurations BITSTREAM has a meaning under: an encoder is bound (R234) and BATCH is at least 1 (R174). -/
def needEncoder (p : Platform) : Except Abort Unit :=
  if p.enc = .unbound then .error (.refused .encoderNotBound)
  else if p.batch = 0 then .error (.refused .batchZero)
  else .ok ()

/-- BITSTREAM (R172): its generator is private and starts fresh (R175); the host's slot is untouched. -/
def execBitstream (s : State) : Host.Outcome State Fault Refusal :=
  settle s do
    needEncoder s.platform
    let v ← nameOperands s.platform.maxLen s.piIn s.psIn
    let n ← pairCount s.seconds
    let acc ← encodeBatches s.platform n n (freshGenerator v.1 v.2) []
    .ok (succeed (.bits acc) s)

end Sys2Proof.Machine
end

