-- ==== Sys2Proof/Machine/Dispatch.lean ====
section
/-! DEFINITION. One arm per command: its meaning (spec/30_encoding.md R82). -/

namespace Sys2Proof.Machine

def exec (i : Instr) (s : State) : Host.Outcome State Fault Refusal :=
  match i with
  | .gwgInit => Sys2Proof.Machine.execGwgInit s
  | .gwgNext => Sys2Proof.Machine.execGwgNext s
  | .gwgPull count => Sys2Proof.Machine.execGwgPull count s
  | .diffEnc => Sys2Proof.Machine.execDiffEnc s
  | .biphase => Sys2Proof.Machine.execBiphase s
  | .shape => Sys2Proof.Machine.execShape s
  | .unmod => Sys2Proof.Machine.execUnmod s
  | .bitstream => Sys2Proof.Machine.execBitstream s

end Sys2Proof.Machine
end

