-- ==== Sys2Proof/Machine/HostPort.lean ====
section
/-! DEFINITION. The host interface: the register map, register writes and reads, the CMD write that issues a command, and
the reset input (spec/10_state.md R23, R31, R44; spec/20_memory.md R62, R70; spec/70_reset_and_hazards.md R230). -/

namespace Sys2Proof.Machine

/-- The host-visible registers (R23). -/
inductive Reg where
  | cmd
  | status
  | errLast
  | errSticky
  | errInfo
  | piIn
  | spb
  | sampleRate
  | seconds
  | psIn
  | bitsIn
  | impIn
  | out
deriving DecidableEq, Repr

/-- The register at an index, and none for an index not in the table (R23). -/
def regAt : Nat → Option Reg
  | 0x00 => some .cmd
  | 0x01 => some .status
  | 0x02 => some .errLast
  | 0x03 => some .errSticky
  | 0x04 => some .errInfo
  | 0x05 => some .piIn
  | 0x06 => some .spb
  | 0x07 => some .sampleRate
  | 0x08 => some .seconds
  | 0x10 => some .psIn
  | 0x11 => some .bitsIn
  | 0x12 => some .impIn
  | 0x13 => some .out
  | _ => none

/-- The index of a register (R23). -/
def regIndex : Reg → Nat
  | .cmd => 0x00
  | .status => 0x01
  | .errLast => 0x02
  | .errSticky => 0x03
  | .errInfo => 0x04
  | .piIn => 0x05
  | .spb => 0x06
  | .sampleRate => 0x07
  | .seconds => 0x08
  | .psIn => 0x10
  | .bitsIn => 0x11
  | .impIn => 0x12
  | .out => 0x13

/-- A words element: bits 31:18 zero, the label in 17:16, the word in 15:0 (R62). -/
def wordsElement (p : Pair) : Word := 0#14 ++ labelCode p.label ++ p.word

/-- A bits element: the bit in bit 0, bits 31:1 zero (R62). -/
def bitsElement (b : Bit) : Word := (BitVec.ofBool b).setWidth 32

/-- OUT as the host reads it: a kind code, then the elements in index order (R62). -/
def readOut : Out → ReadValue
  | .none => .out 0 (.e32 [])
  | .words ps => .out 1 (.e32 (ps.map wordsElement))
  | .bits bs => .out 2 (.e32 (bs.map bitsElement))
  | .samples ys => .out 3 (.e64 ys)

/-- What a read of a register returns (R23): CMD reads 0. -/
def readReg (s : State) : Reg → ReadValue
  | .cmd => .word 0
  | .status => .word (statusWord s)
  | .errLast => .word s.errLast
  | .errSticky => .word s.errSticky
  | .errInfo => .info s.errInfo
  | .piIn => .word s.piIn
  | .spb => .word s.spb
  | .sampleRate => .word s.sampleRate
  | .seconds => .double s.seconds
  | .psIn => .bytes s.psIn
  | .bitsIn => .bits s.bitsIn
  | .impIn => .doubles s.impIn
  | .out => readOut s.out

/-- A host read by index: an index not in the table returns 0 (R23). -/
def readIndex (s : State) (index : Nat) : ReadValue :=
  match regAt index with
  | some r => readReg s r
  | none => .word 0

/-- A write to CMD issues the command its word encodes (R31); an ILLEGAL word raises IllegalCommand and has no other
effect (R81). -/
def runCommand (w : Word) (s : State) : Host.Outcome State Fault Refusal :=
  match decode w with
  | .ok i => exec i { s with cmd := w }
  | .error _ => .next (abort .illegalCommand { s with cmd := w })

/-- A sequence register holds at most MAX_LEN elements (R72): a longer write is refused. -/
def storeSequence (n : Nat) (s t : State) : Host.Outcome State Fault Refusal :=
  if fits s.platform.maxLen n then .next t else .refused .capacityExceeded

/-- A host write to a register (R23, R44): it sets an RW register and has no other effect (R70), is ignored by an RO
register, and issues a command at CMD. -/
def writeReg (r : Reg) (v : HostValue) (s : State) : Host.Outcome State Fault Refusal :=
  match r, v with
  | .cmd, .word w => runCommand w s
  | .status, _ => .next s
  | .errLast, _ => .next s
  | .errSticky, _ => .next s
  | .errInfo, _ => .next s
  | .piIn, .word w => .next { s with piIn := w }
  | .spb, .word w => .next { s with spb := w }
  | .sampleRate, .word w => .next { s with sampleRate := w }
  | .seconds, .double x => .next { s with seconds := x }
  | .psIn, .bytes bs => storeSequence bs.length s { s with psIn := bs }
  | .bitsIn, .bits bs => storeSequence bs.length s { s with bitsIn := bs }
  | .impIn, .doubles xs => storeSequence xs.length s { s with impIn := xs }
  | .out, _ => .next s
  | _, _ => .refused .hostValueKind

/-- A host write by index: an index not in the table is ignored (R23). -/
def writeIndex (index : Nat) (v : HostValue) (s : State) : Host.Outcome State Fault Refusal :=
  match regAt index with
  | some r => writeReg r v s
  | none => .next s

/-- Reset asserted between commands (R230): every piece of the block's state takes its reset value (R45). The platform's
bindings (R234), the host's own side and the count of NaNs already drawn are not the block's state. -/
def resetBlock (s : State) : State :=
  { State.reset with platform := s.platform, host := s.host, readData := s.readData, nanCount := s.nanCount }

/-- One host access, taken when the block is between commands (R44, R66). A read has no side effect on the block (R70);
what it returned is kept on the host's side. -/
def hostAccess (a : HostAction) (s : State) : Host.Outcome State Fault Refusal :=
  match a with
  | .write index v => writeIndex index v s
  | .read index => .next { s with readData := some (readIndex s index) }
  | .reset => .next (resetBlock s)

end Sys2Proof.Machine
end

