-- ==== Sys2Proof/Machine/Step.lean ====
section
/-! DEFINITION. One step: the next host access is served (spec/10_state.md R21, R31; spec/20_memory.md R66). -/

namespace Sys2Proof.Machine

/-- The block has no program counter and fetches nothing (R21): the host's accesses, in their order, are the program. A
CMD write runs its command to completion (R5). With no access to serve, the block waits and holds its state (R217). -/
def step (s : State) : Host.Outcome State Fault Refusal :=
  match s.host with
  | [] => .next s
  | a :: rest => hostAccess a { s with host := rest }

/-- The state in which the host's next access writes the word to CMD, so that the next step runs it. -/
def State.withFetchWord (s : State) (nbits w : Nat) : State :=
  { s with host := .write 0x00 (.word (BitVec.ofNat 32 (w % 2 ^ nbits))) :: s.host }

end Sys2Proof.Machine
end

