-- ==== Sys2Proof/Machine/Assembly.lean ====
section
/-! DEFINITION. The assembler syntax of commands and the two pseudo-commands (spec/30_encoding.md R87, R88). -/

namespace Sys2Proof.Machine

/-- The mnemonic of a command, upper case (R82, R87). -/
def mnemonic : Instr → String
  | .gwgInit => "GWG_INIT"
  | .gwgNext => "GWG_NEXT"
  | .gwgPull _ => "GWG_PULL"
  | .diffEnc => "DIFF_ENC"
  | .biphase => "BIPHASE"
  | .shape => "SHAPE"
  | .unmod => "UNMOD"
  | .bitstream => "BITSTREAM"

/-- The operand a command is written with: GWG_PULL's COUNT (R87). -/
def operand : Instr → Option Nat
  | .gwgInit => none
  | .gwgNext => none
  | .gwgPull count => some count
  | .diffEnc => none
  | .biphase => none
  | .shape => none
  | .unmod => none
  | .bitstream => none

/-- A mnemonic and its operand as a command (R87): a COUNT above 2^24 − 1 is an assembly error, and each pseudo-command
of R88 assembles to one GWG_PULL. -/
def assemble (name : String) (arg : Option Nat) : Option Instr :=
  match arg with
  | some count =>
    if name = "GWG_PULL" ∧ count < 2 ^ 24 then some (.gwgPull count) else none
  | none =>
    if name = "GWG_INIT" then some .gwgInit
    else if name = "GWG_NEXT" then some .gwgNext
    else if name = "DIFF_ENC" then some .diffEnc
    else if name = "BIPHASE" then some .biphase
    else if name = "SHAPE" then some .shape
    else if name = "UNMOD" then some .unmod
    else if name = "BITSTREAM" then some .bitstream
    else if name = "GWG_GROUP" then some (.gwgPull 4)
    else if name = "GWG_CYCLE" then some (.gwgPull 16)
    else none

/-- The value of a digit in a base of at most 16. -/
def digitValue (base : Nat) (c : Char) : Option Nat :=
  let v :=
    if '0' ≤ c ∧ c ≤ '9' then c.toNat - '0'.toNat
    else if 'a' ≤ c ∧ c ≤ 'f' then c.toNat - 'a'.toNat + 10
    else if 'A' ≤ c ∧ c ≤ 'F' then c.toNat - 'A'.toNat + 10
    else base
  if v < base then some v else none

/-- A non-empty digit string in a base, after the value read so far. -/
def digitsValue (base : Nat) : Nat → List Char → Option Nat
  | acc, [] => some acc
  | acc, c :: cs =>
    match digitValue base c with
    | some v => digitsValue base (acc * base + v) cs
    | none => none

/-- A COUNT as written: decimal, or hexadecimal after `0x` (R87). -/
def countValue : List Char → Option Nat
  | [] => none
  | '0' :: 'x' :: c :: cs => digitsValue 16 0 (c :: cs)
  | c :: cs => digitsValue 10 0 (c :: cs)

/-- One command line: the mnemonic, and after one space its operand (R87). -/
def assembleLine (line : List Char) : Option Instr :=
  let name := String.ofList (line.takeWhile (· != ' '))
  match line.dropWhile (· != ' ') with
  | [] => assemble name none
  | _ :: rest =>
    match countValue rest with
    | some count => assemble name (some count)
    | none => none

end Sys2Proof.Machine
end

