-- ==== Sys2Proof/Machine/Instances.lean ====
section
/-! DEFINITION. Several block instances side by side (spec/60_exceptions.md R215): each has its own state and its own
host, and shares nothing with the others (spec/20_memory.md R75). -/

namespace Sys2Proof.Machine

/-- One step of instance `k` of a platform; the other instances are not touched (R75). -/
def stepInstance (sys : List State) (k : Fin sys.length) : Host.Outcome (List State) Fault Refusal :=
  match step sys[k] with
  | .next t => .next (sys.set k t)
  | .fault f => .fault f
  | .refused r => .refused r

end Sys2Proof.Machine
end

