-- ==== Sys2Proof/Safety.lean ====
section
/-! DEFINITION. What counts as a safe step and a well-formed state, and the vocabulary the statements use: the rules'
own closed forms, written apart from the operations that compute them. -/

namespace Sys2Proof.Machine

/-- A step that goes on. -/
def StepsOn (s : State) : Prop := ∃ t, step s = .next t

/-- No command has failed since reset (R35). -/
def Clean (s : State) : Prop := s.errSticky = 0

/-- How many elements OUT holds. -/
def Out.length : Out → Nat
  | .none => 0
  | .words ps => ps.length
  | .bits bs => bs.length
  | .samples ys => ys.length

/-- The states the block can be in (R33 to R39, R72): the status registers agree with each other and keep their zero
bits, no cursor has moved without a generator, and no sequence register exceeds MAX_LEN. -/
structure State.Inv (s : State) : Prop where
  lastIsCode : s.errLast.toNat ≤ 6
  stickyBits : s.errSticky &&& 0xFFFFFF81#32 = 0
  infoForEncoder : s.errInfo.isSome = true ↔ s.errLast = 4
  failureLeftNoResult : s.errLast ≠ 0 → s.out = .none ∧ s.errSticky.getLsbD s.errLast.toNat = true
  cursorAtStart : s.genValid = false → s.gen.i = 0 ∧ s.gen.blk = 0
  psFits : fits s.platform.maxLen s.psIn.length = true
  bitsFit : fits s.platform.maxLen s.bitsIn.length = true
  impFits : fits s.platform.maxLen s.impIn.length = true
  outFits : fits s.platform.maxLen s.out.length = true

/-- The state after a successful command that changes nothing but OUT and the status (R32 to R36). -/
def succeededWith (out : Out) (s : State) : State := { s with out := out, errLast := 0#32, errInfo := none }

/-- The state after a command failed with code `c` (R203). -/
def failedWith (c : Nat) (info : Option EncErr) (s : State) : State :=
  { s with
    out := .none
    errLast := BitVec.ofNat 32 c
    errSticky := s.errSticky ||| (1#32 <<< c)
    errInfo := info }

/-- Two states agree on everything but the result and status registers and the count of NaNs drawn. -/
def SameButResult (s t : State) : Prop :=
  t = { s with
    out := t.out
    errLast := t.errLast
    errSticky := t.errSticky
    errInfo := t.errInfo
    nanCount := t.nanCount }

/-- OUT after an outcome that goes on. -/
def outOf : Host.Outcome State Fault Refusal → Option Out
  | .next t => some t.out
  | .fault _ => none
  | .refused _ => none

/-- What an outcome shows of the result registers: OUT, ERR_LAST and ERR_INFO, or how the command stops. -/
def visible : Host.Outcome State Fault Refusal → Host.Outcome (Out × Word × Option EncErr) Fault Refusal
  | .next t => .next (t.out, t.errLast, t.errInfo)
  | .fault f => .fault f
  | .refused r => .refused r

/-- The generator slot after an outcome that goes on. -/
def slotAfter : Host.Outcome State Fault Refusal → Option (Bool × Generator)
  | .next t => some (t.genValid, t.gen)
  | .fault _ => none
  | .refused _ => none

/-- The bits of an encoder's answer; none of an error or of no answer. -/
def answerBits : EncAnswer → List Bit
  | .ok b => b
  | .err _ => []
  | .noAnswer => []

/-- A valid PI (R24): 0 ≤ PI_IN ≤ 0xFFFF. -/
def ValidPi (pi : Word) : Prop := 0 ≤ pi.toInt ∧ pi.toInt ≤ 0xFFFF

/-- A name padded to eight bytes: the caller's bytes, then spaces (R101). -/
def PaddedFrom (ps : List Byte) (v : Vector Byte 8) : Prop :=
  ∀ k : Fin 8, v[k] = if h : k.val < ps.length then ps[k.val] else 0x20#8

/-- Pair number `m` of the stream of a fresh generator (R105). -/
def streamPair (pi : Half) (ps : Vector Byte 8) (m : Nat) : Pair :=
  let i : Fin 4 := ⟨m / 4 % 4, Nat.mod_lt _ (by decide)⟩
  if m % 4 = 0 then ⟨.a, pi⟩
  else if m % 4 = 1 then ⟨.b, 0x0800#16 ||| BitVec.ofNat 16 i.val⟩
  else if m % 4 = 2 then ⟨.cPrime, pi⟩
  else ⟨.d, (ps[2 * i.val].setWidth 16 <<< 8) ||| ps[2 * i.val + 1].setWidth 16⟩

/-- How many pairs a generator command emits (R102, R104). -/
def pairsEmitted : Instr → Nat
  | .gwgInit => 0
  | .gwgNext => 1
  | .gwgPull count => count
  | .diffEnc => 0
  | .biphase => 0
  | .shape => 0
  | .unmod => 0
  | .bitstream => 0

/-- A command that pulls from the host's generator. -/
def pullsWords (i : Instr) : Prop := i = .gwgNext ∨ ∃ count, i = .gwgPull count

/-- The words among the results of successive commands, concatenated in command order, and the state after the last
command; none when a command stops. -/
def collectWords : List Instr → State → Option (List Pair × State)
  | [], s => some ([], s)
  | i :: is, s =>
    match exec i s with
    | .next t =>
      match t.out with
      | .words ps => (collectWords is t).map fun r => (ps ++ r.1, r.2)
      | .none => collectWords is t
      | .bits _ => collectWords is t
      | .samples _ => collectWords is t
    | .fault _ => none
    | .refused _ => none

/-- Batch number `k` of the first `n` stream pairs under BATCH = `b` (R174). -/
def streamBatch (pi : Half) (ps : Vector Byte 8) (b n k : Nat) : List Pair :=
  (List.range (min b (n - k * b))).map fun j => streamPair pi ps (k * b + j)

/-- The codes a command may fail with (R200, R202). -/
def errorCodes : Instr → List Nat
  | .gwgInit => [1, 2]
  | .gwgNext => [5]
  | .gwgPull _ => [5]
  | .diffEnc => []
  | .biphase => [3]
  | .shape => [3]
  | .unmod => [3]
  | .bitstream => [1, 2, 3, 4]

/-- A finite binary64 value. -/
def Val.isFin : Val → Bool
  | .nan => false
  | .inf _ => false
  | .fin _ _ _ => true

/-- The rational value of a finite binary64 value; 0 stands for the others. -/
def Val.toRat : Val → Rat
  | .nan => 0
  | .inf _ => 0
  | .fin neg mant exp => (signed neg (mant * 2 ^ exp) : Rat) / (unitScale : Rat)

/-- The convolution sum of R155, index by index: j ascending from max(0, m − L + 1) to min(m, N − 1). -/
def convSum (x h : List Val) (m : Nat) : Val :=
  (List.range' (m + 1 - h.length) (min m (x.length - 1) + 1 - (m + 1 - h.length))).foldl
    (fun acc j => fadd acc (fmul (x.getD j .nan) (h.getD (m - j) .nan))) valZero

/-- RN64 (R152) of a non-zero rational, with its sign: the rounded magnitude, infinite on overflow. -/
def roundedRat (q : Rat) : Val := roundVal (decide (q < 0)) q.num.natAbs q.den

/-- The search of the tap at distance `u` ends: 4r is an odd integer, which needs no search, or some precision of the
sequence 128, 256, 512, … rounds both bounds alike. -/
def TapSettled (fs u : Nat) : Prop :=
  let a := u * Config.twiceBitRate
  (4 * a % fs = 0 ∧ 4 * a / fs % 2 = 1) ∨ ∃ k, (tapBounds (128 * 2 ^ k) a fs).1 = (tapBounds (128 * 2 ^ k) a fs).2

/-- The values a register of the table accepts from the host, with MAX_LEN's bound on a sequence (R23, R72). -/
def writable (maxLen : Option Nat) : Nat → HostValue → Bool
  | 0x05, .word _ => true
  | 0x06, .word _ => true
  | 0x07, .word _ => true
  | 0x08, .double _ => true
  | 0x10, .bytes bs => fits maxLen bs.length
  | 0x11, .bits bs => fits maxLen bs.length
  | 0x12, .doubles xs => fits maxLen xs.length
  | _, _ => false

/-- A written value as a read returns it. -/
def HostValue.asRead : HostValue → ReadValue
  | .word w => .word w
  | .double x => .double x
  | .bytes bs => .bytes bs
  | .bits bs => .bits bs
  | .doubles xs => .doubles xs

end Sys2Proof.Machine
end

