-- ==== Sys2Proof/Certificates/Slice0/Obligations.lean ====
section
/-! DEFINITION. The statements for the provers, each from a numbered rule of spec/ or from the sections it names. -/

open Sys2Proof Sys2Proof.Machine

/-! ## Encoding and the step -/

/-- R80 to R83: every well-formed command is read back from its own word, GWG_PULL with every COUNT of 24 bits. -/
def Obligations.DecodeEncodeRoundTrip : Prop :=
  ∀ i : Instr, i.wf = true → decode (encode i) = .ok i

/-- R80, R81: a word that decodes is the word of a well-formed command, so no bit of it is dropped. -/
def Obligations.DecodedWordReencodes : Prop :=
  ∀ (w : Word) (i : Instr), decode w = .ok i → i.wf = true ∧ encode i = w

/-- R81: which command a word written to CMD runs, by its OPC and COUNT fields, and that every other word raises
IllegalCommand (code 6) and has no other effect. `c` is what CMD holds meanwhile, which no command and no read shows. -/
def Obligations.CommandWordDecoding : Prop :=
  ∀ (w : Word) (s : State), ∃ c : Word,
    let opc := w.toNat % 256
    let cnt := w.toNat / 256
    let plain : List (Nat × Instr) :=
      [(0x01, .gwgInit), (0x02, .gwgNext), (0x10, .diffEnc), (0x11, .biphase), (0x12, .shape), (0x20, .unmod),
       (0x21, .bitstream)]
    let written := hostAccess (.write 0x00 (.word w)) s
    (opc = 0x03 → written = exec (.gwgPull cnt) { s with cmd := c }) ∧
    (∀ p ∈ plain, opc = p.1 → cnt = 0 → written = exec p.2 { s with cmd := c }) ∧
    (opc ≠ 0x03 → (opc ∉ plain.map Prod.fst ∨ cnt ≠ 0) → written = .next (failedWith 6 none { s with cmd := c }))

/-- Eight words written out from the encodings of R80 and R82, and three ILLEGAL ones (V-DEC of spec/95). -/
def Obligations.CommandWordsOfTheTable : Prop :=
  decode 0x00000001#32 = .ok .gwgInit ∧ decode 0x00000002#32 = .ok .gwgNext ∧
  decode 0x00000403#32 = .ok (.gwgPull 4) ∧ decode 0xFFFFFF03#32 = .ok (.gwgPull 16777215) ∧
  decode 0x00000010#32 = .ok .diffEnc ∧ decode 0x00000011#32 = .ok .biphase ∧
  decode 0x00000012#32 = .ok .shape ∧ decode 0x00000020#32 = .ok .unmod ∧
  decode 0x00000021#32 = .ok .bitstream ∧ (decode 0x00000000#32).toOption = none ∧
  (decode 0x00000101#32).toOption = none ∧ (decode 0x00000022#32).toOption = none

/-- R31, R21, R81: when the host's next access writes a word to CMD, the step takes that access, holds the word in CMD,
and is exec of the command the word decodes to, or IllegalCommand where it decodes to none; a word placed by
withFetchWord is that next access. -/
def Obligations.StepRunsDecodedCommand : Prop :=
  (∀ (s : State) (w : Word) (rest : List HostAction), s.host = .write 0x00 (.word w) :: rest →
    (∀ i, decode w = .ok i → step s = exec i { s with host := rest, cmd := w }) ∧
    ((decode w).toOption = none → step s = .next (failedWith 6 none { s with host := rest, cmd := w }))) ∧
  (∀ (s : State) (w : Nat),
    (∀ i, decodeTableWord 32 w = some i →
      step (s.withFetchWord 32 w) = exec i { s with cmd := BitVec.ofNat 32 (w % 2 ^ 32) }) ∧
    (decodeTableWord 32 w = none →
      step (s.withFetchWord 32 w) = .next (failedWith 6 none { s with cmd := BitVec.ofNat 32 (w % 2 ^ 32) })))

/-- R217: with no host access to serve, the block holds all its state. -/
def Obligations.IdleBlockHoldsState : Prop :=
  ∀ s : State, s.host = [] → step s = .next s

/-! ## The host's registers, status and reset -/

/-- R23, R44, R70: a write of a value of the register's type to an RW register sets it, is read back, changes what no
other index reads, and touches neither the generator slot nor the rest of the state. -/
def Obligations.HostWriteReadsBack : Prop :=
  ∀ (s : State) (k : Nat) (v : HostValue), writable s.platform.maxLen k v = true →
    ∃ t, hostAccess (.write k v) s = .next t ∧ readIndex t k = v.asRead ∧
      (∀ j, j ≠ k → readIndex t j = readIndex s j) ∧
      t.gen = s.gen ∧ t.genValid = s.genValid ∧ t.cmd = s.cmd ∧ t.platform = s.platform ∧ t.host = s.host ∧
      t.readData = s.readData ∧ t.nanCount = s.nanCount

/-- R23, R31, R44: a write to an RO register or to an index outside the table is ignored, a read of CMD or of an index
outside the table returns 0, and no read changes the block. -/
def Obligations.ReadOnlyIndicesIgnoreWrites : Prop :=
  ∀ (s : State) (k : Nat) (v : HostValue),
    (k ∈ [0x01, 0x02, 0x03, 0x04, 0x13] → hostAccess (.write k v) s = .next s) ∧
    (8 < k ∧ k < 0x10 ∨ 0x13 < k → hostAccess (.write k v) s = .next s ∧ readIndex s k = .word 0) ∧
    readIndex s 0x00 = .word 0 ∧
    hostAccess (.read k) s = .next { s with readData := some (readIndex s k) }

/-- R33: the fields of STATUS, its zero bits, its reset value, and that the host cannot write it. -/
def Obligations.StatusRegisterFields : Prop :=
  ∀ s : State,
    ∃ w : Word, readIndex s 0x01 = .word w ∧ w.getLsbD 0 = s.genValid ∧ w.extractLsb' 1 2 = s.gen.blk ∧
      w.extractLsb' 3 2 = s.gen.i ∧ w.extractLsb' 5 27 = 0 ∧
      readIndex (resetBlock s) 0x01 = .word 0 ∧ ∀ v, hostAccess (.write 0x01 v) s = .next s

/-- R62, R84: what a read of OUT gives: the kind code, and each element's format, with the label codes A = 0, B = 1,
C′ = 2, D = 3. -/
def Obligations.OutReadFormat : Prop :=
  (∀ s : State, s.out = .none → readIndex s 0x13 = .out 0 (.e32 [])) ∧
  (∀ (s : State) (ps : List Pair), s.out = .words ps →
    ∃ es : List Word, readIndex s 0x13 = .out 1 (.e32 es) ∧ es.length = ps.length ∧
      ∀ (k : Nat) (h : k < ps.length) (h' : k < es.length),
        es[k].extractLsb' 0 16 = ps[k].word ∧ es[k].extractLsb' 18 14 = 0 ∧
        (es[k].extractLsb' 16 2 = 0 ↔ ps[k].label = .a) ∧ (es[k].extractLsb' 16 2 = 1 ↔ ps[k].label = .b) ∧
        (es[k].extractLsb' 16 2 = 2 ↔ ps[k].label = .cPrime) ∧ (es[k].extractLsb' 16 2 = 3 ↔ ps[k].label = .d)) ∧
  (∀ (s : State) (bs : List Bit), s.out = .bits bs →
    ∃ es : List Word, readIndex s 0x13 = .out 2 (.e32 es) ∧ es.length = bs.length ∧
      ∀ (k : Nat) (h : k < bs.length) (h' : k < es.length),
        es[k].getLsbD 0 = bs[k] ∧ es[k].extractLsb' 1 31 = 0) ∧
  (∀ (s : State) (ys : List F64), s.out = .samples ys → readIndex s 0x13 = .out 3 (.e64 ys))

/-- R45, R230: reset asserted in any state gives every register its reset value; the state the model starts from has the
same. -/
def Obligations.ResetRestoresEveryRegister : Prop :=
  ∀ s : State, ∃ t, hostAccess .reset s = .next t ∧
    ∀ u, u = t ∨ u = State.reset →
      u.genValid = false ∧ u.gen.i = 0 ∧ u.gen.blk = 0 ∧ u.piIn = 0 ∧ u.psIn = [] ∧ u.bitsIn = [] ∧ u.impIn = [] ∧
      u.spb = 192 ∧ u.sampleRate = 228000 ∧ u.seconds = 0 ∧ u.cmd = 0 ∧ u.out = .none ∧ statusWord u = 0 ∧
      u.errLast = 0 ∧ u.errSticky = 0 ∧ u.errInfo = none

/-- R35, R205, R230: over any step but reset no ERR_STICKY bit is lost; a command that fails with code `c` sets bit `c`
and no other, and a successful one leaves ERR_STICKY as it was. -/
def Obligations.StickyBitsClearedOnlyByReset : Prop :=
  (∀ s t : State, step s = .next t → (∀ rest, s.host ≠ .reset :: rest) →
    s.errSticky &&& t.errSticky = s.errSticky) ∧
  (∀ (i : Instr) (s t : State), exec i s = .next t →
    t.errSticky = if t.errLast = 0 then s.errSticky else s.errSticky ||| (1#32 <<< t.errLast.toNat))

/-- The state after reset meets the invariant of Safety.lean. -/
def Obligations.ResetMeetsStateInvariant : Prop :=
  State.reset.Inv

/-- R33 to R39, R72: every step from a state that meets the invariant gives a state that meets it: the status registers
agree, keep their zero bits and hold a legal code, the cursor does not move without a generator, and no sequence register
exceeds MAX_LEN. -/
def Obligations.StepKeepsStateInvariant : Prop :=
  ∀ s t : State, s.Inv → step s = .next t → t.Inv

/-! ## The group-word generator -/

/-- R100, R101: on a valid PI and a name of at most eight bytes GWG_INIT completes: a new generator with the PI's low 16
bits, the name padded with spaces on the right, SubGroupIndex 0 and block A; nothing else changes but OUT and status. -/
def Obligations.GwgInitConstructsGenerator : Prop :=
  ∀ s : State, ValidPi s.piIn → s.psIn.length ≤ 8 → fits s.platform.maxLen 8 = true →
    ∃ ps : Vector Byte 8, PaddedFrom s.psIn ps ∧
      exec .gwgInit s = .next (succeededWith .none
        { s with genValid := true, gen := { pi := s.piIn.extractLsb' 0 16, ps := ps, i := 0, blk := 0 } })

/-- R204, R101, R206: a GWG_INIT on an invalid PI fails with code 1, and otherwise on a name longer than eight bytes with
code 2; a generator that was there goes on unchanged, and without one GEN_VALID stays 0. -/
def Obligations.FailedGwgInitKeepsGenerator : Prop :=
  ∀ s : State, fits s.platform.maxLen s.psIn.length = true →
    (¬ ValidPi s.piIn → exec .gwgInit s = .next (failedWith 1 none s)) ∧
    (ValidPi s.piIn → 8 < s.psIn.length → exec .gwgInit s = .next (failedWith 2 none s)) ∧
    ∀ t, exec .gwgInit s = .next t → t.errLast ≠ 0 → t.gen = s.gen ∧ t.genValid = s.genValid

/-- R102, R63, R89, R90: with a generator, GWG_NEXT completes: it emits the pair of the block position, and moves the
cursor one pair on; nothing else changes but OUT and status. -/
def Obligations.GwgNextEmitsPair : Prop :=
  ∀ s : State, s.genValid = true → fits s.platform.maxLen 1 = true →
    let g := s.gen
    let pair : Pair :=
      if g.blk = 0 then ⟨.a, g.pi⟩
      else if g.blk = 1 then ⟨.b, 0x0800#16 ||| g.i.setWidth 16⟩
      else if g.blk = 2 then ⟨.cPrime, g.pi⟩
      else ⟨.d, (g.ps[2 * g.i.toNat].setWidth 16 <<< 8) ||| g.ps[2 * g.i.toNat + 1].setWidth 16⟩
    exec .gwgNext s = .next (succeededWith (.words [pair])
      { s with gen := { g with
          i := if g.blk.toNat = 3 then BitVec.ofNat 2 ((g.i.toNat + 1) % 4) else g.i
          blk := BitVec.ofNat 2 ((g.blk.toNat + 1) % 4) } })

/-- R104: with a generator, GWG_PULL N completes with N pairs, and the cursor moves by the rule's closed form; PI and PS
stay, and nothing else changes but OUT and status. -/
def Obligations.GwgPullAdvancesCursor : Prop :=
  ∀ (n : Nat) (s : State), s.genValid = true → fits s.platform.maxLen n = true →
    ∃ ps : List Pair, ps.length = n ∧
      exec (.gwgPull n) s = .next (succeededWith (.words ps)
        { s with gen := { s.gen with
            i := BitVec.ofNat 2 (s.gen.i.toNat + (s.gen.blk.toNat + n) / 4)
            blk := BitVec.ofNat 2 (s.gen.blk.toNat + n) } })

/-- R104, R88: GWG_PULL N gives the elements and the end state of N GWG_NEXT commands, their OUTs concatenated. -/
def Obligations.GwgPullIsRepeatedGwgNext : Prop :=
  ∀ (n : Nat) (s : State), s.genValid = true → s.platform.maxLen = none →
    ∃ (ps : List Pair) (t u : State), collectWords (List.replicate n .gwgNext) s = some (ps, t) ∧
      exec (.gwgPull n) s = .next u ∧ u.out = .words ps ∧ u.gen = t.gen ∧ u.genValid = t.genValid

/-- R105: after a successful GWG_INIT on PI_IN and PS_IN, the pairs of all GWG_NEXT and GWG_PULL results in command
order, whatever other commands but GWG_INIT run between them, are the stream's: pair `m` by `m mod 4` and
`(m div 4) mod 4`; the pulling commands do run, each with its number of pairs; and the stream has period 16. -/
def Obligations.StreamAfterGwgInit : Prop :=
  (∀ (s t u : State) (ps : Vector Byte 8) (is : List Instr) (pairs : List Pair),
    exec .gwgInit s = .next t → t.errLast = 0 → PaddedFrom s.psIn ps → Instr.gwgInit ∉ is →
    collectWords is t = some (pairs, u) →
    ∀ (m : Nat) (h : m < pairs.length), pairs[m] = streamPair (s.piIn.extractLsb' 0 16) ps m) ∧
  (∀ (s t : State) (is : List Instr), exec .gwgInit s = .next t → t.errLast = 0 → t.platform.maxLen = none →
    (∀ i ∈ is, pullsWords i) →
    ∃ (pairs : List Pair) (u : State), collectWords is t = some (pairs, u) ∧
      pairs.length = (is.map pairsEmitted).sum) ∧
  (∀ pi ps m, streamPair pi ps (m + 16) = streamPair pi ps m)

/-- R106: in what a generator emits after a successful GWG_INIT, every A and C′ word is the PI, the low two bits of the B
words run 0, 1, 2, 3, 0, …, one step a group, and the D words of four consecutive groups hold the name's characters in
order, the earlier of two in the high byte, with 0x20 after its end. -/
def Obligations.StreamCarriesPiAndPs : Prop :=
  ∀ (n : Nat) (s₀ s : State), exec .gwgInit s₀ = .next s → s.errLast = 0 → s.platform.maxLen = none →
    ∃ (ps : List Pair) (t : State), exec (.gwgPull n) s = .next t ∧ t.out = .words ps ∧ ps.length = n ∧
      ∀ (m : Nat) (h : m < ps.length),
        (m % 4 = 0 → ps[m].label = .a ∧ (ps[m].word.toNat : Int) = s₀.piIn.toInt) ∧
        (m % 4 = 1 → ps[m].label = .b ∧ (ps[m].word.extractLsb' 0 2).toNat = m / 4 % 4) ∧
        (m % 4 = 2 → ps[m].label = .cPrime ∧ (ps[m].word.toNat : Int) = s₀.piIn.toInt) ∧
        (m % 4 = 3 → ps[m].label = .d ∧
          ps[m].word.extractLsb' 8 8 = s₀.psIn.getD (2 * (m / 4 % 4)) 0x20#8 ∧
          ps[m].word.extractLsb' 0 8 = s₀.psIn.getD (2 * (m / 4 % 4) + 1) 0x20#8)

/-- R103: with GEN_VALID = 0, as after reset, GWG_NEXT and GWG_PULL (COUNT 0 too) raise NoGenerator; that outcome does not
depend on GEN_PI and GEN_PS; and a failed GWG_INIT does not clear GEN_VALID. -/
def Obligations.NoGeneratorRaised : Prop :=
  State.reset.genValid = false ∧
  (∀ (s : State) (g : Generator) (n : Nat), s.genValid = false →
    exec .gwgNext { s with gen := g } = .next { failedWith 5 none s with gen := g } ∧
    exec (.gwgPull n) { s with gen := g } = .next { failedWith 5 none s with gen := g }) ∧
  (∀ s t : State, exec .gwgInit s = .next t → t.errLast ≠ 0 → t.genValid = s.genValid)

/-- R107: the pairs a pulling command emits, and where it leaves the generator, depend only on the generator slot (and
MAX_LEN); once a generator is constructed, writing PI_IN or PS_IN changes nothing about them. -/
def Obligations.StreamIgnoresInputRegisters : Prop :=
  (∀ (i : Instr) (s u t : State), pullsWords i → exec i s = .next t →
    u.gen = s.gen → u.genValid = s.genValid → u.platform.maxLen = s.platform.maxLen →
    ∃ v, exec i u = .next v ∧ v.out = t.out ∧ v.gen = t.gen) ∧
  (∀ (i : Instr) (s t : State) (pi : Word) (ps : List Byte), pullsWords i → exec i s = .next t →
    exec i { s with piIn := pi, psIn := ps } = .next { t with piIn := pi, psIn := ps })

/-! ## Errors and frames -/

/-- R203: a failing command sets OUT to none, ERR_LAST to its code (1 to 6), that code's sticky bit, and ERR_INFO to the
value the encoder returned for code 4 and to none otherwise, and changes nothing else; so does a word that decodes to no
command, with code 6 (`c` is what CMD holds meanwhile, which no command and no read shows). -/
def Obligations.FailingCommandChangesOnlyStatus : Prop :=
  (∀ (i : Instr) (s t : State), exec i s = .next t → t.errLast ≠ 0 →
    t = failedWith t.errLast.toNat t.errInfo s ∧ 1 ≤ t.errLast.toNat ∧ t.errLast.toNat ≤ 6 ∧
    (t.errLast ≠ 4 → t.errInfo = none) ∧
    (t.errLast = 4 → ∃ batch e, callEncoder s.platform.enc batch = .err e ∧ t.errInfo = some e)) ∧
  (∀ (w : Word) (s : State), (decode w).toOption = none →
    ∃ c : Word, hostAccess (.write 0x00 (.word w)) s = .next (failedWith 6 none { s with cmd := c }))

/-- R43: no command writes an operand or input register (nor CMD, the platform's bindings or the host's side); only
GWG_INIT writes GEN_VALID, GEN_PI and GEN_PS; DIFF_ENC, BIPHASE, SHAPE, UNMOD and BITSTREAM write nothing but OUT and
status; so does a failing command; and a successful one leaves ERR_STICKY and clears ERR_INFO. -/
def Obligations.CommandFrame : Prop :=
  ∀ (i : Instr) (s t : State), exec i s = .next t →
    (t.piIn = s.piIn ∧ t.psIn = s.psIn ∧ t.bitsIn = s.bitsIn ∧ t.impIn = s.impIn ∧ t.spb = s.spb ∧
      t.sampleRate = s.sampleRate ∧ t.seconds = s.seconds ∧ t.cmd = s.cmd ∧ t.platform = s.platform ∧
      t.host = s.host ∧ t.readData = s.readData) ∧
    (i ≠ .gwgInit → t.genValid = s.genValid ∧ t.gen.pi = s.gen.pi ∧ t.gen.ps = s.gen.ps) ∧
    (i ∈ [.diffEnc, .biphase, .shape, .unmod, .bitstream] → SameButResult s t) ∧
    (i ∉ [.shape, .unmod] → t.nanCount = s.nanCount) ∧
    (t.errLast ≠ 0 → SameButResult s t) ∧
    (t.errLast = 0 → t.errSticky = s.errSticky ∧ t.errInfo = none)

/-- R202: a command fails only with a code the table of R200 lists for it; so DIFF_ENC never fails, GWG_NEXT and GWG_PULL
do not fail with a generator, and GWG_INIT does not fail on valid inputs. -/
def Obligations.ErrorsOnlyFromListedCommands : Prop :=
  ∀ (i : Instr) (s t : State), exec i s = .next t →
    (t.errLast = 0 ∨ t.errLast.toNat ∈ errorCodes i) ∧
    (i = .diffEnc → t.errLast = 0) ∧
    (pullsWords i → s.genValid = true → t.errLast = 0) ∧
    (i = .gwgInit → ValidPi s.piIn → s.psIn.length ≤ 8 → t.errLast = 0)

/-- R206: BITSTREAM checks the PI, then the name, then SECONDS, and raises the first error that applies before any
encoder call, whatever the encoder would answer; and UNMOD raises its error for a rate below 4750 before it builds
anything. (GWG_INIT, GWG_NEXT, GWG_PULL, BIPHASE and SHAPE have statements of their own.) -/
def Obligations.ChecksComeInOrder : Prop :=
  ∀ s : State,
    (2 * s.sampleRate.toNat / 2375 < 4 → fits s.platform.maxLen s.bitsIn.length = true →
      exec .unmod s = .next (failedWith 3 none s)) ∧
    (s.platform.enc ≠ .unbound → s.platform.batch ≠ 0 → fits s.platform.maxLen s.psIn.length = true →
      (¬ ValidPi s.piIn → exec .bitstream s = .next (failedWith 1 none s)) ∧
      (ValidPi s.piIn → 8 < s.psIn.length → exec .bitstream s = .next (failedWith 2 none s)) ∧
      (ValidPi s.piIn → s.psIn.length ≤ 8 → fits s.platform.maxLen 8 = true →
        (pairCount s.seconds).toOption = none → exec .bitstream s = .next (failedWith 3 none s)))

/-- R83: what each command does depends only on the registers the table lists for it (and on the platform, the generator
slot for the pulling commands, and the count of NaNs drawn for SHAPE and UNMOD): states that agree on them give the same
OUT, ERR_LAST and ERR_INFO, or the same stop; and GWG_INIT and the pulling commands leave the same generator. -/
def Obligations.CommandsReadOnlyTheirOperands : Prop :=
  ∀ s u : State, s.platform = u.platform →
    (s.piIn = u.piIn → s.psIn = u.psIn →
      visible (exec .gwgInit s) = visible (exec .gwgInit u) ∧
      ∀ t v, exec .gwgInit s = .next t → exec .gwgInit u = .next v → t.errLast = 0 →
        t.gen = v.gen ∧ t.genValid = true ∧ v.genValid = true) ∧
    (s.genValid = u.genValid → s.gen = u.gen → ∀ i, pullsWords i →
      visible (exec i s) = visible (exec i u) ∧ slotAfter (exec i s) = slotAfter (exec i u)) ∧
    (s.bitsIn = u.bitsIn → visible (exec .diffEnc s) = visible (exec .diffEnc u)) ∧
    (s.bitsIn = u.bitsIn → s.spb = u.spb → visible (exec .biphase s) = visible (exec .biphase u)) ∧
    (s.impIn = u.impIn → s.spb = u.spb → s.sampleRate = u.sampleRate → s.nanCount = u.nanCount →
      visible (exec .shape s) = visible (exec .shape u)) ∧
    (s.bitsIn = u.bitsIn → s.sampleRate = u.sampleRate → s.nanCount = u.nanCount →
      visible (exec .unmod s) = visible (exec .unmod u)) ∧
    (s.piIn = u.piIn → s.psIn = u.psIn → s.seconds = u.seconds →
      visible (exec .bitstream s) = visible (exec .bitstream u))

/-! ## The differential encoder -/

/-- R131, R130: DIFF_ENC completes with as many bits as its input; the first is 0, and each later one differs from its
predecessor exactly where the input bit is 1; nothing else changes but OUT and status. -/
def Obligations.DiffEncEncodes : Prop :=
  ∀ s : State, fits s.platform.maxLen s.bitsIn.length = true →
    ∃ d : List Bit, exec .diffEnc s = .next (succeededWith (.bits d) s) ∧ d.length = s.bitsIn.length ∧
      d[0]? ≠ some true ∧
      ∀ (k : Nat) (h : k + 1 < s.bitsIn.length) (h' : k + 1 < d.length), (d[k + 1] ^^ d[k]) = s.bitsIn[k + 1]

/-- R133: in closed form, d[0] is 0 and d[k] is the parity of the inputs from index 1 to k. -/
def Obligations.DiffEncClosedForm : Prop :=
  ∀ (s t : State) (d : List Bit), exec .diffEnc s = .next t → t.out = .bits d →
    d.length = s.bitsIn.length ∧
    ∀ (k : Nat) (h : k < d.length), d[k] = (((s.bitsIn.take (k + 1)).drop 1).foldl (· ^^ ·) false)

/-- R132: the first coded bit influences no bit of the result of DIFF_ENC nor of UNMOD, and the others can be recovered
from the result. -/
def Obligations.FirstCodedBitIsLost : Prop :=
  (∀ (s : State) (b b' : Bit) (cs : List Bit),
    outOf (exec .diffEnc { s with bitsIn := b :: cs }) = outOf (exec .diffEnc { s with bitsIn := b' :: cs }) ∧
    outOf (exec .unmod { s with bitsIn := b :: cs }) = outOf (exec .unmod { s with bitsIn := b' :: cs }) ∧
    (diffenc (b :: cs))[0]? = some false) ∧
  (∀ (cs : List Bit) (k : Nat) (h : k + 1 < cs.length) (h' : k + 1 < (diffenc cs).length),
    cs[k + 1] = ((diffenc cs)[k + 1] ^^ (diffenc cs)[k]))

/-- R134: encoding c₁ ++ c₂ in two DIFF_ENC commands: the result at index len(c₁) is 0, and each bit from there on is the
complement of the one-command result exactly when that result has 1 at index len(c₁). -/
def Obligations.SplitEncodingDiffers : Prop :=
  ∀ (s t₁ t₂ t : State) (c₁ c₂ d₁ d₂ d : List Bit), c₁ ≠ [] → c₂ ≠ [] →
    exec .diffEnc { s with bitsIn := c₁ } = .next t₁ → t₁.out = .bits d₁ →
    exec .diffEnc { t₁ with bitsIn := c₂ } = .next t₂ → t₂.out = .bits d₂ →
    exec .diffEnc { s with bitsIn := c₁ ++ c₂ } = .next t → t.out = .bits d →
    ∃ v : Bit, d[c₁.length]? = some v ∧ (d₁ ++ d₂)[c₁.length]? = some false ∧
      ∀ (k : Nat) (x : Bit), c₁.length ≤ k → d[k]? = some x → (d₁ ++ d₂)[k]? = some (x ^^ v)

/-! ## The biphase expander -/

/-- R141, R145: for SPB of at least 4 BIPHASE completes with SPB samples a bit; a 1 has +1.0 first, −1.0 at offset
(SPB div 2) − 1 and +0.0 elsewhere, a 0 has −1.0, +1.0 and −0.0 there; nothing else changes but OUT and status. -/
def Obligations.BiphaseSymbols : Prop :=
  ∀ s : State, 4 ≤ s.spb.toNat → fits s.platform.maxLen s.bitsIn.length = true →
    fits s.platform.maxLen s.spb.toNat = true → fits s.platform.maxLen (s.bitsIn.length * s.spb.toNat) = true →
    ∃ ys : List F64, exec .biphase s = .next (succeededWith (.samples ys) s) ∧
      ys.length = s.bitsIn.length * s.spb.toNat ∧
      ∀ (k o : Nat) (h : k < s.bitsIn.length), o < s.spb.toNat →
        ys[k * s.spb.toNat + o]? = some (
          if o = 0 then (if s.bitsIn[k] then 0x3FF0000000000000#64 else 0xBFF0000000000000#64)
          else if o = s.spb.toNat / 2 - 1 then (if s.bitsIn[k] then 0xBFF0000000000000#64 else 0x3FF0000000000000#64)
          else (if s.bitsIn[k] then 0x0000000000000000#64 else 0x8000000000000000#64))

/-- R144: in what BIPHASE produces, for every bit, the SPB samples of its symbol sum to exactly 0; two of them are
non-zero, one +1.0 and one −1.0, and the others are zeros. -/
def Obligations.SymbolsAreBalanced : Prop :=
  ∀ (s t : State) (ys : List F64) (k : Nat), exec .biphase s = .next t → t.out = .samples ys → k < s.bitsIn.length →
    let symbol := ((ys.drop (k * s.spb.toNat)).take s.spb.toNat).map fun y => (valOf y).toRat
    symbol.length = s.spb.toNat ∧ symbol.sum = 0 ∧ symbol.count 1 = 1 ∧ symbol.count (-1) = 1 ∧
    symbol.count 0 = s.spb.toNat - 2

/-- R140, R207 (a): BIPHASE with SPB below 4 raises DegenerateParameters, whatever its input's length, which has only to
be one a sequence register can hold. -/
def Obligations.BiphaseRejectsSmallSpb : Prop :=
  ∀ s : State, s.spb.toNat < 4 → fits s.platform.maxLen s.bitsIn.length = true →
    exec .biphase s = .next (failedWith 3 none s)

/-! ## The pulse shaper -/

/-- R150, R155, R156: on a non-empty input, SPB of at least 1 (1 to 3 too) and a non-zero rate, SHAPE completes with
len + 2·SPB − 1 samples, none dropped; each is the sum of the products x[j] · h[m − j] in ascending j from +0.0, each
operation rounded, and under another CONV the platform declares (R8) only the sign of a zero is open (R157, R158); nothing
else changes but OUT, status and the model's own count of NaNs. -/
def Obligations.ShapeConvolves : Prop :=
  ∀ s : State, s.spb.toNat ≠ 0 → s.sampleRate.toNat ≠ 0 → s.impIn ≠ [] →
    fits s.platform.maxLen s.impIn.length = true → fits s.platform.maxLen (2 * s.spb.toNat) = true →
    fits s.platform.maxLen (s.impIn.length + 2 * s.spb.toNat - 1) = true →
    let x := s.impIn.map valOf
    let h := kernel s.platform.kernels s.spb.toNat s.sampleRate.toNat
    ∃ (ys : List F64) (n : Nat),
      exec .shape s = .next (succeededWith (.samples ys) { s with nanCount := n }) ∧
      ys.length = s.impIn.length + 2 * s.spb.toNat - 1 ∧
      ∀ (m : Nat) (hm : m < ys.length),
        (convSum x h m ≠ valZero ∨ s.platform.conv = .direct → valOf ys[m] = convSum x h m) ∧
        (convSum x h m = valZero → ys[m] = 0x0000000000000000#64 ∨ ys[m] = 0x8000000000000000#64)

/-- R150, R207 (b): SHAPE with SPB = 0, SAMPLE_RATE = 0 or an empty input raises DegenerateParameters. -/
def Obligations.ShapeRejectsDegenerate : Prop :=
  ∀ s : State, s.spb.toNat = 0 ∨ s.sampleRate.toNat = 0 ∨ s.impIn = [] →
    fits s.platform.maxLen s.impIn.length = true → exec .shape s = .next (failedWith 3 none s)

/-- R154, R153: the default kernel has 2·spb taps, is even about tap spb, has its peak RN64(4/π) there, 1.0 where 4r is
±1, and +0.0 where 4r is another odd integer, r = 2375 u / fs at distance u. -/
def Obligations.KernelEvenWithLandmarks : Prop :=
  ∀ spb fs : Nat, 0 < fs →
    (defaultKernel spb fs).length = 2 * spb ∧
    (∀ u, 1 ≤ u → u < spb → (defaultKernel spb fs)[spb + u]? = (defaultKernel spb fs)[spb - u]?) ∧
    (1 ≤ spb → (defaultKernel spb fs)[spb]? = some (valOf 0x3FF45F306DC9C883#64)) ∧
    (∀ u, 1 ≤ u → u ≤ spb → 4 * (2375 * u) = fs → (defaultKernel spb fs)[spb - u]? = some valOne) ∧
    (∀ u n, 1 ≤ u → u ≤ spb → 1 ≤ n → 4 * (2375 * u) = (2 * n + 1) * fs →
      (defaultKernel spb fs)[spb - u]? = some valZero)

/-- The 512-bit constant of Machine/Kernel.lean is the floor of π · 2^512, and its bounds of π hold at every precision. -/
def Obligations.PiBitsEnclosePi : Prop :=
  ((piBits : ℝ) < Real.pi * 2 ^ 512 ∧ Real.pi * 2 ^ 512 < (piBits : ℝ) + 1) ∧
  ∀ P : Nat, ((piBounds P).1 : ℝ) ≤ Real.pi * 2 ^ P ∧ Real.pi * 2 ^ P ≤ ((piBounds P).2 : ℝ)

/-- The cosine bounds of Machine/Kernel.lean hold at every precision and every angle of the first quadrant. -/
def Obligations.CosineBoundsEnclose : Prop :=
  ∀ P t fs : Nat, 0 < fs → 2 * t ≤ fs →
    ((cosBounds P t fs).1 : ℝ) ≤ Real.cos (Real.pi * t / fs) * 2 ^ P ∧
    Real.cos (Real.pi * t / fs) * 2 ^ P ≤ ((cosBounds P t fs).2 : ℝ)

/-- R152, R153: every tap whose search ends is the binary64 value nearest to the RRC response
g = 4 cos(2πr) / (π (1 − 16 r²)) at r = 2375 u / fs, with the limit value 1 where 4r = 1. That every search ends rests on
the transcendence of π and is no part of the statement (notes/assumptions/9). -/
def Obligations.KernelTapsCorrectlyRounded : Prop :=
  ∀ (fs u : Nat) (g : ℝ), 0 < fs → fs < 2 ^ 32 → u ≤ 2 ^ 32 → TapSettled fs u →
    (4 * (2375 * u) = fs → g = 1) →
    (4 * (2375 * u) ≠ fs →
      g = 4 * Real.cos (2 * Real.pi * (2375 * u / fs)) / (Real.pi * (1 - 16 * ((2375 * u : ℝ) / fs) ^ 2))) →
    (tapAt fs u).isFin = true ∧
    ∀ w : F64, (valOf w).isFin = true →
      |(((tapAt fs u).toRat : ℚ) : ℝ) - g| ≤ |(((valOf w).toRat : ℚ) : ℝ) - g|

/-! ## Binary64 arithmetic -/

/-- R12: rounding a non-negative fraction gives a nearest binary64 magnitude, of two equally near the one whose pattern is
even; it overflows to infinity exactly from half a unit beyond the largest finite value on. -/
def Obligations.RoundingIsNearestTiesToEven : Prop :=
  ∀ num den : Nat, 0 < den →
    (roundMag num den < infMag →
      ∀ mag : Nat, mag < infMag → mag ≠ roundMag num den →
        |(Val.ofMag false (roundMag num den)).toRat - (num : ℚ) / den| <
            |(Val.ofMag false mag).toRat - (num : ℚ) / den| ∨
        (|(Val.ofMag false (roundMag num den)).toRat - (num : ℚ) / den| =
            |(Val.ofMag false mag).toRat - (num : ℚ) / den| ∧ roundMag num den % 2 = 0)) ∧
    (roundMag num den = infMag ↔ ((2 ^ 54 - 1) * 2 ^ 970 : ℚ) ≤ (num : ℚ) / den)

/-- R11, R12, R157: on finite operands, fadd, fmul and fdiv (by a non-zero value) give the exact sum, product or quotient
rounded by RN64 with its sign, and the zero of IEEE 754 where it is 0: +0.0 for a sum unless both terms are −0.0, and the
exclusive or of the signs for a product or quotient. So the result is finite exactly below half a unit beyond the largest
finite value, and is then nearest. -/
def Obligations.FloatOpsRoundTheExactResult : Prop :=
  ∀ x y : F64, (valOf x).isFin = true → (valOf y).isFin = true →
    let a := (valOf x).toRat
    let b := (valOf y).toRat
    let signedZero : F64 := if x.msb ^^ y.msb then 0x8000000000000000#64 else 0x0000000000000000#64
    let roundsTo := fun (r : Val) (q : ℚ) =>
      (r.isFin = true ↔ |q| < (2 ^ 54 - 1) * 2 ^ 970) ∧
      (r.isFin = true → ∀ w : F64, (valOf w).isFin = true → |r.toRat - q| ≤ |(valOf w).toRat - q|)
    (a + b ≠ 0 → fadd (valOf x) (valOf y) = roundedRat (a + b)) ∧
    (a + b = 0 → fadd (valOf x) (valOf y) =
      valOf (if x = 0x8000000000000000#64 ∧ y = 0x8000000000000000#64 then 0x8000000000000000#64
        else 0x0000000000000000#64)) ∧
    roundsTo (fadd (valOf x) (valOf y)) (a + b) ∧
    (a * b ≠ 0 → fmul (valOf x) (valOf y) = roundedRat (a * b)) ∧
    (a * b = 0 → fmul (valOf x) (valOf y) = valOf signedZero) ∧
    roundsTo (fmul (valOf x) (valOf y)) (a * b) ∧
    (b ≠ 0 →
      (a ≠ 0 → fdiv (valOf x) (valOf y) = roundedRat (a / b)) ∧
      (a = 0 → fdiv (valOf x) (valOf y) = valOf signedZero) ∧
      roundsTo (fdiv (valOf x) (valOf y)) (a / b))

/-- R12, R61: a pattern that is no NaN is recovered from its value, and every sign and payload of a NaN makes a pattern
that is a NaN. -/
def Obligations.PatternsRoundTrip : Prop :=
  ∀ (x : F64) (nb : NaNBits),
    (valOf x ≠ .nan → (valOf x).pattern nb = x) ∧ valOf (Val.pattern nb .nan) = .nan

/-- R159: a NaN operand gives NaN; ∞ times zero and +∞ + −∞ are NaN; ∞ times any other value and ∞ plus any other value
are infinite, with the sign IEEE 754 gives. In SHAPE, under any CONV, an output with a NaN sample in its window, or
with an infinite one against a zero tap, is some NaN (its sign and payload free); one with an infinite sample in its
window is NaN or infinite; and the response to a lone infinite sample is that sample times each tap. BIPHASE produces
neither NaN nor infinity. -/
def Obligations.NanAndInfinityPropagate : Prop :=
  (∀ v : Val, fadd v .nan = .nan ∧ fadd .nan v = .nan ∧ fmul v .nan = .nan ∧ fmul .nan v = .nan) ∧
  (∀ n n' e, fmul (.inf n) (.fin n' 0 e) = .nan ∧ fmul (.fin n' 0 e) (.inf n) = .nan) ∧
  (∀ n, fadd (.inf n) (.inf !n) = .nan) ∧
  (∀ n n' m e, m ≠ 0 → fmul (.inf n) (.fin n' m e) = .inf (n ^^ n') ∧ fmul (.fin n' m e) (.inf n) = .inf (n ^^ n')) ∧
  (∀ n n' m e, fmul (.inf n) (.inf n') = .inf (n ^^ n') ∧ fadd (.inf n) (.inf n) = .inf n ∧
    fadd (.inf n) (.fin n' m e) = .inf n ∧ fadd (.fin n' m e) (.inf n) = .inf n) ∧
  (∀ (s t : State) (ys : List F64) (m j : Nat) (hm : m < ys.length) (hj : j < s.impIn.length),
    exec .shape s = .next t → t.out = .samples ys → j ≤ m → m < j + 2 * s.spb.toNat →
    let h := kernel s.platform.kernels s.spb.toNat s.sampleRate.toNat
    (valOf s.impIn[j] = .nan → valOf ys[m] = .nan) ∧
    (∀ n, valOf s.impIn[j] = .inf n → (valOf ys[m]).isFin = false ∧
      (∀ n' e, h[m - j]? = some (.fin n' 0 e) → valOf ys[m] = .nan) ∧
      (s.impIn.length = 1 → ∀ tap, h[m]? = some tap → valOf ys[m] = fmul (.inf n) tap))) ∧
  (∀ (spb : Nat) (bits : List Bit), 4 ≤ spb → ∀ v ∈ impulses spb bits, v.isFin = true)

/-- R157: under the default convolution no output of SHAPE or UNMOD is −0.0. -/
def Obligations.NoNegativeZeroSample : Prop :=
  ∀ (i : Instr) (s t : State) (ys : List F64), i = .shape ∨ i = .unmod → s.platform.conv = .direct →
    exec i s = .next t → t.out = .samples ys → 0x8000000000000000#64 ∉ ys

/-! ## The composites -/

/-- R170, R171: at a rate of at least 4750 and on a non-empty input UNMOD completes, with spb = floor(rate / 1187.5), in
len · spb + 2·spb − 1 samples; SPB is not written, and nothing else changes but OUT, status and the model's own count of
NaNs. -/
def Obligations.UnmodRuns : Prop :=
  ∀ (s : State) (spb : Nat), spb = 2 * s.sampleRate.toNat / 2375 → 4750 ≤ s.sampleRate.toNat → s.bitsIn ≠ [] →
    fits s.platform.maxLen s.bitsIn.length = true → fits s.platform.maxLen spb = true →
    fits s.platform.maxLen (s.bitsIn.length * spb) = true → fits s.platform.maxLen (2 * spb) = true →
    fits s.platform.maxLen (s.bitsIn.length * spb + 2 * spb - 1) = true →
    ∃ (ys : List F64) (n : Nat),
      exec .unmod s = .next (succeededWith (.samples ys) { s with nanCount := n }) ∧
      ys.length = s.bitsIn.length * spb + 2 * spb - 1

/-- R170, R207 (c): UNMOD raises DegenerateParameters at a rate below 4750, and on an empty input, with room for what it
builds before that. -/
def Obligations.UnmodRejectsDegenerate : Prop :=
  ∀ s : State, fits s.platform.maxLen s.bitsIn.length = true →
    (s.sampleRate.toNat < 4750 → exec .unmod s = .next (failedWith 3 none s)) ∧
    (s.bitsIn = [] → fits s.platform.maxLen (2 * s.sampleRate.toNat / 2375) = true →
      exec .unmod s = .next (failedWith 3 none s))

/-- R177: UNMOD's OUT is that of the host's own chain: DIFF_ENC, its OUT written to BITS_IN, SPB = floor(rate / 1187.5)
written, BIPHASE, its OUT written to IMP_IN, SHAPE. The conditions are those under which every stage succeeds; UNMOD
itself leaves SPB, BITS_IN and IMP_IN as they were. -/
def Obligations.UnmodEqualsHostChain : Prop :=
  ∀ (s : State) (spb : Nat), spb = 2 * s.sampleRate.toNat / 2375 → 4 ≤ spb → s.bitsIn ≠ [] →
    fits s.platform.maxLen s.bitsIn.length = true → fits s.platform.maxLen spb = true →
    fits s.platform.maxLen (s.bitsIn.length * spb) = true → fits s.platform.maxLen (2 * spb) = true →
    fits s.platform.maxLen (s.bitsIn.length * spb + 2 * spb - 1) = true →
    ∃ (t u u₁ u₄ : State) (d : List Bit) (x : List F64),
      exec .unmod s = .next t ∧ t.spb = s.spb ∧ t.bitsIn = s.bitsIn ∧ t.impIn = s.impIn ∧
      (let chain : State :=
        { s with host :=
          [.write 0x00 (.word 0x10), .write 0x11 (.bits d), .write 0x06 (.word (BitVec.ofNat 32 spb)),
           .write 0x00 (.word 0x11), .write 0x12 (.doubles x), .write 0x00 (.word 0x12)] }
       core.run 1 chain = .next u₁ ∧ u₁.out = .bits d ∧
       core.run 4 chain = .next u₄ ∧ u₄.out = .samples x ∧
       core.run 6 chain = .next u ∧ u.out = t.out ∧ u.errLast = 0 ∧
       u.spb.toNat = spb ∧ u.bitsIn = d ∧ u.impIn = x)

/-- R171: samplesPerBit is (2 · rate) div 2375, the exact quotient's floor, and also the binary64 quotient truncated, for
every u32 rate. -/
def Obligations.SamplesPerBitIsTheFloor : Prop :=
  ∀ fs : Nat, fs < 2 ^ 32 →
    samplesPerBit fs = 2 * fs / 2375 ∧
    ((samplesPerBit fs : ℤ) = ⌊(fs : ℚ) / (1187.5 : ℚ)⌋) ∧
    ((samplesPerBit fs : ℤ) = ⌊(fdiv (roundVal false fs 1) valBitRate).toRat⌋)

/-- R172, R174, R121: on valid operands, with an encoder bound that answers the batches of this stream (none of them when
there are no pairs), BITSTREAM completes: the first N pairs of a fresh generator's stream go to the encoder in consecutive
batches of BATCH (the last one shorter), and the answers, whatever their lengths, are concatenated in order; nothing else
changes but OUT and status. -/
def Obligations.BitstreamConcatenatesBatches : Prop :=
  ∀ (s : State) (ps : Vector Byte 8) (n : Nat) (answer : List Pair → List Bit),
    s.platform.enc ≠ .unbound → 0 < s.platform.batch →
    ValidPi s.piIn → s.psIn.length ≤ 8 → PaddedFrom s.psIn ps → pairCount s.seconds = .ok n →
    (let batch := fun k => streamBatch (s.piIn.extractLsb' 0 16) ps s.platform.batch n k
     let bs := (List.range ((n + s.platform.batch - 1) / s.platform.batch)).flatMap fun k => answer (batch k)
     (∀ k, k * s.platform.batch < n → callEncoder s.platform.enc (batch k) = .ok (answer (batch k))) →
     fits s.platform.maxLen 8 = true → fits s.platform.maxLen (min s.platform.batch n) = true →
     fits s.platform.maxLen bs.length = true →
     exec .bitstream s = .next (succeededWith (.bits bs) s))

/-- R123: when the encoder answers every batch before number `k` and fails on that one with `e`, BITSTREAM fails with
code 4 and ERR_INFO `e`, unchanged, whatever later batches would give; OUT is none and the earlier answers are
discarded. -/
def Obligations.EncoderErrorAborts : Prop :=
  ∀ (s : State) (ps : Vector Byte 8) (n k : Nat) (answer : List Pair → List Bit) (e : EncErr),
    s.platform.enc ≠ .unbound → 0 < s.platform.batch →
    ValidPi s.piIn → s.psIn.length ≤ 8 → PaddedFrom s.psIn ps → pairCount s.seconds = .ok n →
    k * s.platform.batch < n →
    (let batch := fun j => streamBatch (s.piIn.extractLsb' 0 16) ps s.platform.batch n j
     fits s.platform.maxLen 8 = true → fits s.platform.maxLen (min s.platform.batch n) = true →
     fits s.platform.maxLen ((List.range k).flatMap fun j => answer (batch j)).length = true →
     (∀ j, j < k → callEncoder s.platform.enc (batch j) = .ok (answer (batch j))) →
     callEncoder s.platform.enc (batch k) = .err e →
     exec .bitstream s = .next (failedWith 4 (some e) s))

/-- R234, R174, R239: BITSTREAM with no encoder bound, or with BATCH = 0, is refused; and it is stuck when the encoder
answers every batch before number `k` and does not answer that one. -/
def Obligations.BitstreamStops : Prop :=
  ∀ s : State,
    (s.platform.enc = .unbound → exec .bitstream s = .refused .encoderNotBound) ∧
    (s.platform.enc ≠ .unbound → s.platform.batch = 0 → exec .bitstream s = .refused .batchZero) ∧
    (∀ (ps : Vector Byte 8) (n k : Nat) (answer : List Pair → List Bit),
      s.platform.enc ≠ .unbound → 0 < s.platform.batch →
      ValidPi s.piIn → s.psIn.length ≤ 8 → PaddedFrom s.psIn ps → pairCount s.seconds = .ok n →
      k * s.platform.batch < n →
      (let batch := fun j => streamBatch (s.piIn.extractLsb' 0 16) ps s.platform.batch n j
       fits s.platform.maxLen 8 = true → fits s.platform.maxLen (min s.platform.batch n) = true →
       fits s.platform.maxLen ((List.range k).flatMap fun j => answer (batch j)).length = true →
       (∀ j, j < k → callEncoder s.platform.enc (batch j) = .ok (answer (batch j))) →
       callEncoder s.platform.enc (batch k) = .noAnswer →
       exec .bitstream s = .fault .encoderNeverAnswers))

/-- R173: SECONDS that is NaN, infinite or negative (−0.0 is not), or whose quotient overflows, gives no pair count and
raises DegenerateParameters; any other gives the exact ceiling of the binary64 quotient (SECONDS · 1187.5) / 26. -/
def Obligations.SecondsGivePairCount : Prop :=
  ∀ x : F64,
    let v := valOf x
    let q := fdiv (fmul v (valOf 0x40928E0000000000#64)) (valOf 0x403A000000000000#64)
    (v.isFin = false ∨ v.toRat < 0 ∨ q.isFin = false → pairCount x = raise .degenerateParameters) ∧
    (v.isFin = true → 0 ≤ v.toRat → q.isFin = true → ∃ n : Nat, pairCount x = .ok n ∧ (n : ℤ) = ⌈q.toRat⌉)

/-- R176, R126, R121: when the encoder's answers hold `c` bits a pair, BITSTREAM's result holds `c · N` bits (26 · N for
the 26 of the count formula). -/
def Obligations.BitstreamLengthPerPair : Prop :=
  ∀ (s t : State) (c n : Nat), pairCount s.seconds = .ok n →
    (∀ batch b, callEncoder s.platform.enc batch = .ok b → b.length = c * batch.length) →
    exec .bitstream s = .next t → t.errLast = 0 → ∃ bs, t.out = .bits bs ∧ bs.length = c * n

/-- R175: BITSTREAM neither reads nor writes the host's generator slot: with another slot it gives the same OUT and
status, and leaves that slot as it was. -/
def Obligations.BitstreamGeneratorIsPrivate : Prop :=
  ∀ (s t : State) (valid : Bool) (g : Generator), exec .bitstream s = .next t →
    t.gen = s.gen ∧ t.genValid = s.genValid ∧
    exec .bitstream { s with genValid := valid, gen := g } = .next { t with genValid := valid, gen := g }

/-- R72, R208: when each command is refused for MAX_LEN: exactly when it gets so far as to need a sequence MAX_LEN does
not admit. For BITSTREAM that is its PS_IN, the padded name, or, after batches that were answered and had room, the next
batch or the answers so far with the next one. No command ever is when MAX_LEN is unbounded. -/
def Obligations.CapacityRefusalsExactly : Prop :=
  ∀ (s : State) (n : Nat),
    let room := fun k => fits s.platform.maxLen k = true
    let refusal : Host.Outcome State Fault Refusal := .refused .capacityExceeded
    let spb := 2 * s.sampleRate.toNat / 2375
    (exec .gwgInit s = refusal ↔ ¬ room s.psIn.length ∨
      (ValidPi s.piIn ∧ s.psIn.length ≤ 8 ∧ ¬ room 8)) ∧
    (exec .gwgNext s = refusal ↔ s.genValid = true ∧ ¬ room 1) ∧
    (exec (.gwgPull n) s = refusal ↔ s.genValid = true ∧ ¬ room n) ∧
    (exec .diffEnc s = refusal ↔ ¬ room s.bitsIn.length) ∧
    (exec .biphase s = refusal ↔ ¬ room s.bitsIn.length ∨
      (4 ≤ s.spb.toNat ∧ (¬ room s.spb.toNat ∨ ¬ room (s.bitsIn.length * s.spb.toNat)))) ∧
    (exec .shape s = refusal ↔ ¬ room s.impIn.length ∨
      (s.spb.toNat ≠ 0 ∧ s.sampleRate.toNat ≠ 0 ∧ s.impIn ≠ [] ∧
        (¬ room (2 * s.spb.toNat) ∨ ¬ room (s.impIn.length + 2 * s.spb.toNat - 1)))) ∧
    (exec .unmod s = refusal ↔ ¬ room s.bitsIn.length ∨
      (4 ≤ spb ∧ (¬ room spb ∨ ¬ room (s.bitsIn.length * spb) ∨
        (s.bitsIn ≠ [] ∧ (¬ room (2 * spb) ∨ ¬ room (s.bitsIn.length * spb + 2 * spb - 1)))))) ∧
    (∀ ps : Vector Byte 8, PaddedFrom s.psIn ps →
      let batch := fun k n => streamBatch (s.piIn.extractLsb' 0 16) ps s.platform.batch n k
      let answer := fun k n => callEncoder s.platform.enc (batch k n)
      let soFar := fun k n => ((List.range k).flatMap fun j => answerBits (answer j n)).length
      (exec .bitstream s = refusal ↔ s.platform.enc ≠ .unbound ∧ s.platform.batch ≠ 0 ∧
        (¬ room s.psIn.length ∨ (ValidPi s.piIn ∧ s.psIn.length ≤ 8 ∧ (¬ room 8 ∨
          ∃ n k, pairCount s.seconds = .ok n ∧ k * s.platform.batch < n ∧
            (∀ j, j < k → room (batch j n).length ∧ room (soFar (j + 1) n) ∧ ∃ b, answer j n = .ok b) ∧
            (¬ room (batch k n).length ∨ (¬ room (soFar (k + 1) n) ∧ ∃ b, answer k n = .ok b))))))) ∧
    (∀ i, s.platform.maxLen = none → exec i s ≠ refusal)

/-- R75: a step of one instance changes no other instance's state, and does not depend on it. -/
def Obligations.InstancesShareNothing : Prop :=
  ∀ (sys sys' : List State) (k : Fin sys.length), stepInstance sys k = .next sys' →
    ∃ h : sys'.length = sys.length,
      (∀ j : Fin sys.length, j ≠ k → sys'[j.val]? = some sys[j]) ∧
      (∃ t, step sys[k] = .next t ∧ sys'[k.val]? = some t) ∧
      ∀ (j : Fin sys.length) (u : State), j ≠ k →
        stepInstance (sys.set j u) ⟨k.val, by simp⟩ = .next (sys'.set j u)

/-- R87, R88: every well-formed command assembles from its own mnemonic and operand, a COUNT of 25 bits does not, and the
two pseudo-commands are GWG_PULL 4 and GWG_PULL 16, words 0x00000403 and 0x00001003. -/
def Obligations.AssemblerSyntax : Prop :=
  (∀ i : Instr, i.wf = true → assemble (mnemonic i) (operand i) = some i) ∧
  (∀ n, 2 ^ 24 ≤ n → assemble "GWG_PULL" (some n) = none) ∧
  (assemble "GWG_GROUP" none).map encode = some 0x00000403#32 ∧
  (assemble "GWG_CYCLE" none).map encode = some 0x00001003#32

/-! ## A convolution the platform declares -/

/-- R158, R157: under any CONV a platform declares, SHAPE and UNMOD leave the samples the default CONV leaves, bit by bit,
but for the sign of those that are zeros; and they raise what they raise under the default, and stop where they stop
there. -/
def Obligations.DeclaredConvIsBitIdentical : Prop :=
  ∀ (i : Instr) (s : State) (id : Nat), i = .shape ∨ i = .unmod →
    let direct := exec i { s with platform := { s.platform with conv := .direct } }
    let other := exec i { s with platform := { s.platform with conv := .other id } }
    (∀ r, direct = .refused r ↔ other = .refused r) ∧
    (∀ t, direct = .next t → ∃ u, other = .next u ∧
      u.errLast = t.errLast ∧ u.errInfo = t.errInfo ∧ u.errSticky = t.errSticky ∧ u.nanCount = t.nanCount ∧
      (t.out = .none → u.out = .none) ∧
      ∀ ys, t.out = .samples ys → ∃ zs, u.out = .samples zs ∧ zs.length = ys.length ∧
        ∀ (m : Nat) (hy : m < ys.length) (hz : m < zs.length),
          zs[m] = ys[m] ∨ (ys[m] = 0x0000000000000000#64 ∧ zs[m] = 0x8000000000000000#64))
end

