-- ==== Sys2Proof/Laws/State.lean ====
section
/-! SUPPORT. One lemma per field per shared update of State, true by rfl, so that no proof unfolds a record update. -/

namespace Sys2Proof.Machine

@[simp] theorem succeed_genValid (o : Out) (s : State) : (succeed o s).genValid = s.genValid := rfl
@[simp] theorem succeed_gen (o : Out) (s : State) : (succeed o s).gen = s.gen := rfl
@[simp] theorem succeed_piIn (o : Out) (s : State) : (succeed o s).piIn = s.piIn := rfl
@[simp] theorem succeed_spb (o : Out) (s : State) : (succeed o s).spb = s.spb := rfl
@[simp] theorem succeed_sampleRate (o : Out) (s : State) : (succeed o s).sampleRate = s.sampleRate := rfl
@[simp] theorem succeed_seconds (o : Out) (s : State) : (succeed o s).seconds = s.seconds := rfl
@[simp] theorem succeed_psIn (o : Out) (s : State) : (succeed o s).psIn = s.psIn := rfl
@[simp] theorem succeed_bitsIn (o : Out) (s : State) : (succeed o s).bitsIn = s.bitsIn := rfl
@[simp] theorem succeed_impIn (o : Out) (s : State) : (succeed o s).impIn = s.impIn := rfl
@[simp] theorem succeed_cmd (o : Out) (s : State) : (succeed o s).cmd = s.cmd := rfl
@[simp] theorem succeed_out (o : Out) (s : State) : (succeed o s).out = o := rfl
@[simp] theorem succeed_errLast (o : Out) (s : State) : (succeed o s).errLast = 0 := rfl
@[simp] theorem succeed_errSticky (o : Out) (s : State) : (succeed o s).errSticky = s.errSticky := rfl
@[simp] theorem succeed_errInfo (o : Out) (s : State) : (succeed o s).errInfo = none := rfl
@[simp] theorem succeed_platform (o : Out) (s : State) : (succeed o s).platform = s.platform := rfl
@[simp] theorem succeed_host (o : Out) (s : State) : (succeed o s).host = s.host := rfl
@[simp] theorem succeed_readData (o : Out) (s : State) : (succeed o s).readData = s.readData := rfl
@[simp] theorem succeed_nanCount (o : Out) (s : State) : (succeed o s).nanCount = s.nanCount := rfl

@[simp] theorem succeedSamples_genValid (vs : List Val) (s : State) : (succeedSamples vs s).genValid = s.genValid := rfl
@[simp] theorem succeedSamples_gen (vs : List Val) (s : State) : (succeedSamples vs s).gen = s.gen := rfl
@[simp] theorem succeedSamples_piIn (vs : List Val) (s : State) : (succeedSamples vs s).piIn = s.piIn := rfl
@[simp] theorem succeedSamples_spb (vs : List Val) (s : State) : (succeedSamples vs s).spb = s.spb := rfl
@[simp] theorem succeedSamples_sampleRate (vs : List Val) (s : State) : (succeedSamples vs s).sampleRate = s.sampleRate := rfl
@[simp] theorem succeedSamples_seconds (vs : List Val) (s : State) : (succeedSamples vs s).seconds = s.seconds := rfl
@[simp] theorem succeedSamples_psIn (vs : List Val) (s : State) : (succeedSamples vs s).psIn = s.psIn := rfl
@[simp] theorem succeedSamples_bitsIn (vs : List Val) (s : State) : (succeedSamples vs s).bitsIn = s.bitsIn := rfl
@[simp] theorem succeedSamples_impIn (vs : List Val) (s : State) : (succeedSamples vs s).impIn = s.impIn := rfl
@[simp] theorem succeedSamples_cmd (vs : List Val) (s : State) : (succeedSamples vs s).cmd = s.cmd := rfl
@[simp] theorem succeedSamples_out (vs : List Val) (s : State) : (succeedSamples vs s).out = .samples (publish s.platform.nans s.nanCount vs).1 := rfl
@[simp] theorem succeedSamples_errLast (vs : List Val) (s : State) : (succeedSamples vs s).errLast = 0 := rfl
@[simp] theorem succeedSamples_errSticky (vs : List Val) (s : State) : (succeedSamples vs s).errSticky = s.errSticky := rfl
@[simp] theorem succeedSamples_errInfo (vs : List Val) (s : State) : (succeedSamples vs s).errInfo = none := rfl
@[simp] theorem succeedSamples_platform (vs : List Val) (s : State) : (succeedSamples vs s).platform = s.platform := rfl
@[simp] theorem succeedSamples_host (vs : List Val) (s : State) : (succeedSamples vs s).host = s.host := rfl
@[simp] theorem succeedSamples_readData (vs : List Val) (s : State) : (succeedSamples vs s).readData = s.readData := rfl
@[simp] theorem succeedSamples_nanCount (vs : List Val) (s : State) : (succeedSamples vs s).nanCount = (publish s.platform.nans s.nanCount vs).2 := rfl

@[simp] theorem abort_genValid (e : Err) (s : State) : (abort e s).genValid = s.genValid := rfl
@[simp] theorem abort_gen (e : Err) (s : State) : (abort e s).gen = s.gen := rfl
@[simp] theorem abort_piIn (e : Err) (s : State) : (abort e s).piIn = s.piIn := rfl
@[simp] theorem abort_spb (e : Err) (s : State) : (abort e s).spb = s.spb := rfl
@[simp] theorem abort_sampleRate (e : Err) (s : State) : (abort e s).sampleRate = s.sampleRate := rfl
@[simp] theorem abort_seconds (e : Err) (s : State) : (abort e s).seconds = s.seconds := rfl
@[simp] theorem abort_psIn (e : Err) (s : State) : (abort e s).psIn = s.psIn := rfl
@[simp] theorem abort_bitsIn (e : Err) (s : State) : (abort e s).bitsIn = s.bitsIn := rfl
@[simp] theorem abort_impIn (e : Err) (s : State) : (abort e s).impIn = s.impIn := rfl
@[simp] theorem abort_cmd (e : Err) (s : State) : (abort e s).cmd = s.cmd := rfl
@[simp] theorem abort_out (e : Err) (s : State) : (abort e s).out = .none := rfl
@[simp] theorem abort_errLast (e : Err) (s : State) : (abort e s).errLast = e.codeWord := rfl
@[simp] theorem abort_errSticky (e : Err) (s : State) : (abort e s).errSticky = s.errSticky ||| e.stickyBit := rfl
@[simp] theorem abort_errInfo (e : Err) (s : State) : (abort e s).errInfo = e.info := rfl
@[simp] theorem abort_platform (e : Err) (s : State) : (abort e s).platform = s.platform := rfl
@[simp] theorem abort_host (e : Err) (s : State) : (abort e s).host = s.host := rfl
@[simp] theorem abort_readData (e : Err) (s : State) : (abort e s).readData = s.readData := rfl
@[simp] theorem abort_nanCount (e : Err) (s : State) : (abort e s).nanCount = s.nanCount := rfl

@[simp] theorem resetBlock_genValid (s : State) : (resetBlock s).genValid = State.reset.genValid := rfl
@[simp] theorem resetBlock_gen (s : State) : (resetBlock s).gen = State.reset.gen := rfl
@[simp] theorem resetBlock_piIn (s : State) : (resetBlock s).piIn = State.reset.piIn := rfl
@[simp] theorem resetBlock_spb (s : State) : (resetBlock s).spb = State.reset.spb := rfl
@[simp] theorem resetBlock_sampleRate (s : State) : (resetBlock s).sampleRate = State.reset.sampleRate := rfl
@[simp] theorem resetBlock_seconds (s : State) : (resetBlock s).seconds = State.reset.seconds := rfl
@[simp] theorem resetBlock_psIn (s : State) : (resetBlock s).psIn = State.reset.psIn := rfl
@[simp] theorem resetBlock_bitsIn (s : State) : (resetBlock s).bitsIn = State.reset.bitsIn := rfl
@[simp] theorem resetBlock_impIn (s : State) : (resetBlock s).impIn = State.reset.impIn := rfl
@[simp] theorem resetBlock_cmd (s : State) : (resetBlock s).cmd = State.reset.cmd := rfl
@[simp] theorem resetBlock_out (s : State) : (resetBlock s).out = State.reset.out := rfl
@[simp] theorem resetBlock_errLast (s : State) : (resetBlock s).errLast = State.reset.errLast := rfl
@[simp] theorem resetBlock_errSticky (s : State) : (resetBlock s).errSticky = State.reset.errSticky := rfl
@[simp] theorem resetBlock_errInfo (s : State) : (resetBlock s).errInfo = State.reset.errInfo := rfl
@[simp] theorem resetBlock_platform (s : State) : (resetBlock s).platform = s.platform := rfl
@[simp] theorem resetBlock_host (s : State) : (resetBlock s).host = s.host := rfl
@[simp] theorem resetBlock_readData (s : State) : (resetBlock s).readData = s.readData := rfl
@[simp] theorem resetBlock_nanCount (s : State) : (resetBlock s).nanCount = s.nanCount := rfl

end Sys2Proof.Machine
end

