-- ==== Sys2Proof/Laws/Float.lean ====
section
/-! SUPPORT. The binary64 values the operations give are canonical, and publishing keeps the number of samples. -/

namespace Sys2Proof.Machine

/-- The one form of each finite value: a 53-bit significand, full unless the exponent is the least. -/
def Val.Canonical : Val → Prop
  | .nan => True
  | .inf _ => True
  | .fin _ mant exp => mant < 2 ^ 53 ∧ exp < 2046 ∧ (exp = 0 ∨ 2 ^ 52 ≤ mant)

/-- Every magnitude pattern stands for a canonical value. -/
theorem ofMag_canonical (neg : Bool) (mag : Nat) : (Val.ofMag neg mag).Canonical := by
  unfold Val.ofMag
  split
  · trivial
  · split
    · trivial
    · simp only [infMag] at *
      split
      · exact ⟨by omega, by decide, .inl rfl⟩
      · simp only [Val.Canonical]
        have : mag % 2 ^ 52 < 2 ^ 52 := Nat.mod_lt _ (by decide)
        have : 2 ^ 52 * (mag / 2 ^ 52) + mag % 2 ^ 52 = mag := Nat.div_add_mod mag (2 ^ 52)
        omega

theorem valOf_canonical (x : F64) : (valOf x).Canonical := ofMag_canonical _ _

theorem roundVal_canonical (neg : Bool) (num den : Nat) : (roundVal neg num den).Canonical := ofMag_canonical _ _

/-- A sum is canonical, whatever the operands. -/
theorem fadd_canonical (x y : Val) : (fadd x y).Canonical := by
  unfold fadd
  split <;> try (first | trivial | (split <;> trivial))
  split
  · simp [Val.Canonical]
  · simp only
    split
    · simp [Val.Canonical]
    · exact roundVal_canonical _ _ _

/-- A product is canonical, whatever the operands. -/
theorem fmul_canonical (x y : Val) : (fmul x y).Canonical := by
  unfold fmul
  split <;> try (first | trivial | (split <;> trivial))
  split
  · simp [Val.Canonical]
  · exact roundVal_canonical _ _ _

/-- Leaving the sign of a zero open changes nothing but a zero (R157, R158). -/
theorem withZeroSign_cases (neg : Bool) (v : Val) :
    withZeroSign neg v = v ∨ (∃ n e, v = .fin n 0 e) ∧ withZeroSign neg v = .fin neg 0 0 := by
  cases v with
  | nan => exact .inl rfl
  | inf n => exact .inl rfl
  | fin n mant exp =>
    simp only [withZeroSign]
    split
    · subst mant; exact .inr ⟨⟨n, exp, rfl⟩, rfl⟩
    · exact .inl rfl

@[simp] theorem withZeroSign_eq_nan (neg : Bool) (v : Val) : withZeroSign neg v = .nan ↔ v = .nan := by
  cases v with
  | nan => simp [withZeroSign]
  | inf n => simp [withZeroSign]
  | fin n mant exp => simp only [withZeroSign]; split <;> simp

theorem withZeroSign_canonical (neg : Bool) {v : Val} (h : v.Canonical) : (withZeroSign neg v).Canonical := by
  rcases withZeroSign_cases neg v with e | ⟨-, e⟩
  · rwa [e]
  · rw [e]; simp [Val.Canonical]

@[simp] theorem publish_nil (id n : Nat) : publish id n [] = ([], n) := rfl

/-- Publishing keeps the number of samples. -/
@[simp] theorem publish_length (id : Nat) (vs : List Val) (n : Nat) : (publish id n vs).1.length = vs.length := by
  induction vs generalizing n with
  | nil => rfl
  | cons v vs ih => simp [publish, ih]

/-- Each published sample is the pattern of its value, under some sign and payload where the value is NaN. -/
theorem publish_get (id : Nat) (vs : List Val) (n k : Nat) (h : k < vs.length) :
    ∃ nb, (publish id n vs).1[k]? = some (vs[k].pattern nb) := by
  induction vs generalizing n k with
  | nil => simp at h
  | cons v vs ih =>
    cases k with
    | zero => exact ⟨Config.nanBits id n, by simp [publish]⟩
    | succ k => simpa [publish] using ih (if v = .nan then n + 1 else n) k (by simpa using h)

/-- Without NaNs no free value is drawn. -/
theorem publish_count_of_no_nan (id : Nat) (vs : List Val) (n : Nat) (h : ∀ v ∈ vs, v ≠ .nan) :
    (publish id n vs).2 = n := by
  induction vs generalizing n with
  | nil => rfl
  | cons v vs ih => simp_all [publish]

end Sys2Proof.Machine
end

