-- ==== Sys2Proof/Laws/Ops.lean ====
section
/-! SUPPORT. What the shared operations can do: settling a command, the MAX_LEN check, and operand validation. -/

namespace Sys2Proof.Machine

@[simp] theorem bind_ok {α β : Type} (a : α) (k : α → Except Abort β) : (Except.ok a >>= k) = k a := rfl

@[simp] theorem bind_error {α β : Type} (e : Abort) (k : α → Except Abort β) :
    ((Except.error e : Except Abort α) >>= k) = .error e := rfl

@[simp] theorem bind_raise {α β : Type} (e : Err) (k : α → Except Abort β) :
    ((raise e : Except Abort α) >>= k) = raise e := rfl

@[simp] theorem settle_ok (s t : State) : settle s (.ok t) = .next t := rfl

@[simp] theorem settle_raise (s : State) (e : Err) : settle s (raise e) = .next (abort e s) := rfl

@[simp] theorem settle_refused_eq (s : State) (r : Refusal) : settle s (.error (.refused r)) = .refused r := rfl

@[simp] theorem settle_stuck_eq (s : State) (f : Fault) : settle s (.error (.stuck f)) = .fault f := rfl

/-- A command goes on exactly when it succeeds or raises an error. -/
theorem settle_next_iff {s t : State} {r : Except Abort State} :
    settle s r = .next t ↔ r = .ok t ∨ ∃ e, r = raise e ∧ t = abort e s := by
  rcases r with (e | f | f) | u <;> simp [settle, raise, eq_comm]

/-- A command is refused exactly when its body is. -/
theorem settle_refused_iff {s : State} {r : Except Abort State} {f : Refusal} :
    settle s r = .refused f ↔ r = .error (.refused f) := by
  rcases r with (e | f | f) | u <;> simp [settle]

/-- A command is stuck exactly when its body is. -/
theorem settle_fault_iff {s : State} {r : Except Abort State} {f : Fault} :
    settle s r = .fault f ↔ r = .error (.stuck f) := by
  rcases r with (e | f | f) | u <;> simp [settle]

@[simp] theorem fits_none (n : Nat) : fits none n = true := rfl

@[simp] theorem fits_zero (maxLen : Option Nat) : fits maxLen 0 = true := by cases maxLen <;> simp [fits]

/-- What has room leaves room for anything shorter. -/
theorem fits_mono {maxLen : Option Nat} {m n : Nat} (h : m ≤ n) (hn : fits maxLen n = true) : fits maxLen m = true := by
  cases maxLen with
  | none => rfl
  | some c => simp only [fits, decide_eq_true_eq] at hn ⊢; omega

theorem needRoom_of_fits {maxLen : Option Nat} {n : Nat} (h : fits maxLen n = true) : needRoom maxLen n = .ok () := by
  simp [needRoom, h]

theorem needRoom_of_not_fits {maxLen : Option Nat} {n : Nat} (h : fits maxLen n = false) :
    needRoom maxLen n = .error (.refused .capacityExceeded) := by
  simp [needRoom, h]

/-- The check either lets the command go on or refuses it; it never raises an error (R208). -/
theorem needRoom_bind {α : Type} (maxLen : Option Nat) (n : Nat) (k : Unit → Except Abort α) :
    (needRoom maxLen n >>= k) = if fits maxLen n then k () else .error (.refused .capacityExceeded) := by
  cases h : fits maxLen n <;> simp [needRoom, h]

/-- Validation accepts exactly the valid operands, and gives the low 16 bits and the padded name (R101). -/
theorem validate_ok_iff {pi : Word} {ps : List Byte} {v : Half × Vector Byte 8} :
    validate pi ps = .ok v ↔
      (0 ≤ pi.toInt ∧ pi.toInt ≤ 0xFFFF) ∧ ∃ h : ps.length ≤ 8, v = (pi.setWidth 16, padPs ps h) := by
  unfold validate
  split
  · simp [raise]; omega
  · split
    · rename_i h
      simp only [Except.ok.injEq, eq_comm, h, exists_true_left]
      constructor
      · intro hv; exact ⟨by omega, hv⟩
      · exact fun hv => hv.2
    · rename_i h
      constructor
      · intro hv; simp [raise] at hv
      · rintro ⟨-, h', -⟩; exact absurd h' h

/-- Validation fails only with the two validation errors, PI first (R101, R206). -/
theorem validate_cases (pi : Word) (ps : List Byte) :
    (∃ v, validate pi ps = .ok v) ∨
    (validate pi ps = raise .invalidPICode ∧ (pi.toInt < 0 ∨ 0xFFFF < pi.toInt)) ∨
    (validate pi ps = raise .invalidPSName ∧ ¬(pi.toInt < 0 ∨ 0xFFFF < pi.toInt) ∧ 8 < ps.length) := by
  unfold validate
  split
  · simp_all
  · split
    · exact .inl ⟨_, rfl⟩
    · simp_all

/-- What `nameOperands` can do: validate, with room for the name before and for the padded name after (R72, R101). -/
theorem nameOperands_eq (maxLen : Option Nat) (pi : Word) (ps : List Byte) :
    nameOperands maxLen pi ps =
      if fits maxLen ps.length then
        match validate pi ps with
        | .ok v => if fits maxLen Config.psLen then .ok v else .error (.refused .capacityExceeded)
        | .error a => .error a
      else .error (.refused .capacityExceeded) := by
  simp only [nameOperands, needRoom_bind]
  split
  · cases validate pi ps <;> rfl
  · rfl

/-- The pair count fails only as degenerate (R173). -/
theorem pairCount_cases (x : F64) :
    (∃ n, pairCount x = .ok n) ∨ pairCount x = raise .degenerateParameters := by
  unfold pairCount
  split
  · exact .inr rfl
  · exact .inr rfl
  · split
    · exact .inr rfl
    · split
      · exact .inr rfl
      · exact .inr rfl
      · exact .inl ⟨_, rfl⟩

end Sys2Proof.Machine
end

