-- ==== Sys2Proof/Laws/Stages.lean ====
section
/-! SUPPORT. The stage functions: lengths of their results, how the generator advances, and when a checked stage
succeeds. -/

namespace Sys2Proof.Machine

@[simp] theorem pull_zero (g : Generator) : pull 0 g = ([], g) := rfl

theorem pull_succ (n : Nat) (g : Generator) :
    pull (n + 1) g = ((emit g).1 :: (pull n (emit g).2).1, (pull n (emit g).2).2) := rfl

@[simp] theorem pull_length (n : Nat) (g : Generator) : (pull n g).1.length = n := by
  induction n generalizing g with
  | zero => rfl
  | succ n ih => simp [pull_succ, ih]

/-- Pulling in two parts is pulling once. -/
theorem pull_add (m n : Nat) (g : Generator) :
    pull (m + n) g = ((pull m g).1 ++ (pull n (pull m g).2).1, (pull n (pull m g).2).2) := by
  induction m generalizing g with
  | zero => simp
  | succ m ih => rw [Nat.add_right_comm, pull_succ, pull_succ, ih]; simp

@[simp] theorem emit_pi (g : Generator) : (emit g).2.pi = g.pi := rfl

@[simp] theorem emit_ps (g : Generator) : (emit g).2.ps = g.ps := rfl

@[simp] theorem pull_pi (n : Nat) (g : Generator) : (pull n g).2.pi = g.pi := by
  induction n generalizing g with
  | zero => rfl
  | succ n ih => simp [pull_succ, ih]

@[simp] theorem pull_ps (n : Nat) (g : Generator) : (pull n g).2.ps = g.ps := by
  induction n generalizing g with
  | zero => rfl
  | succ n ih => simp [pull_succ, ih]

@[simp] theorem xorChain_length (prev : Bit) (cs : List Bit) : (xorChain prev cs).length = cs.length := by
  induction cs generalizing prev with
  | nil => rfl
  | cons c cs ih => simp [xorChain, ih]

@[simp] theorem diffenc_length (cs : List Bit) : (diffenc cs).length = cs.length := by
  cases cs <;> simp [diffenc]

@[simp] theorem prototype_length (spb : Nat) : (prototype spb).length = spb := by simp [prototype]

@[simp] theorem symbolOf_length (spb : Nat) (b : Bit) : (symbolOf spb b).length = spb := by
  cases b <;> simp [symbolOf]

@[simp] theorem impulses_length (spb : Nat) (bits : List Bit) : (impulses spb bits).length = bits.length * spb := by
  induction bits with
  | nil => simp [impulses]
  | cons b bs ih =>
    have step : impulses spb (b :: bs) = symbolOf spb b ++ impulses spb bs := by simp [impulses]
    rw [step, List.length_append, ih, symbolOf_length, List.length_cons, Nat.add_mul, Nat.one_mul, Nat.add_comm]

@[simp] theorem kernel_length (tables : List TapTable) (spb fs : Nat) : (kernel tables spb fs).length = 2 * spb := by
  unfold kernel
  split
  · rename_i t h
    have := List.find?_some h
    simp_all
  · simp [defaultKernel]

@[simp] theorem convolve_length (conv : ConvBinding) (x h : List Val) :
    (convolve conv x h).length = x.length + h.length - 1 := by
  simp [convolve]

/-- What `expand` can do (R140). -/
theorem expand_eq (maxLen : Option Nat) (bits : List Bit) (spb : Nat) :
    expand maxLen bits spb =
      if spb < 4 then raise .degenerateParameters
      else if fits maxLen spb ∧ fits maxLen (bits.length * spb) then .ok (impulses spb bits)
      else .error (.refused .capacityExceeded) := by
  simp only [expand, needRoom_bind]
  split
  · rfl
  · cases fits maxLen spb <;> cases fits maxLen (bits.length * spb) <;> simp

/-- What `shapePulse` can do (R150). -/
theorem shapePulse_eq (p : Platform) (x : List Val) (spb fs : Nat) :
    shapePulse p x spb fs =
      if spb = 0 ∨ fs = 0 ∨ x.length = 0 then raise .degenerateParameters
      else if fits p.maxLen (2 * spb) ∧ fits p.maxLen (x.length + 2 * spb - 1) then
        .ok (convolve p.conv x (kernel p.kernels spb fs))
      else .error (.refused .capacityExceeded) := by
  simp only [shapePulse, needRoom_bind]
  split
  · rfl
  · cases fits p.maxLen (2 * spb) <;> cases fits p.maxLen (x.length + 2 * spb - 1) <;> simp

/-- What the batch loop can raise (R172): only the encoder's error. -/
theorem encodeBatches_error {p : Platform} {fuel n : Nat} {g : Generator} {acc : List Bit} {e : Err}
    (h : encodeBatches p fuel n g acc = raise e) : ∃ info, e = .channelEncoder info := by
  induction fuel generalizing n g acc with
  | zero => simp [encodeBatches, raise] at h
  | succ fuel ih =>
    unfold encodeBatches at h
    split at h
    · simp [raise] at h
    · simp only [needRoom_bind] at h
      split at h
      · split at h
        · split at h
          · exact ih h
          · simp [raise] at h
        · simp only [raise, Except.error.injEq, Abort.raised.injEq] at h
          exact ⟨_, h.symm⟩
        · simp [raise] at h
      · simp [raise] at h

/-- Where the batch loop succeeds, its result has room (R72). -/
theorem encodeBatches_fits {p : Platform} {fuel n : Nat} {g : Generator} {acc bs : List Bit}
    (hacc : fits p.maxLen acc.length = true) (h : encodeBatches p fuel n g acc = .ok bs) :
    fits p.maxLen bs.length = true := by
  induction fuel generalizing n g acc with
  | zero => simp [encodeBatches] at h; exact h ▸ hacc
  | succ fuel ih =>
    unfold encodeBatches at h
    split at h
    · simp at h; exact h ▸ hacc
    · simp only [needRoom_bind] at h
      split at h
      · split at h
        · split at h
          · rename_i hf; exact ih hf h
          · simp at h
        · simp [raise] at h
        · simp at h
      · simp at h

end Sys2Proof.Machine
end

