-- ==== Sys2Proof/Laws/Kernel.lean ====
section
/-! SUPPORT. The search for a tap's rounding: one step of it, and what it gives where some precision settles the tap. -/

namespace Sys2Proof.Machine

/-- One step of the search (R152). -/
theorem tapSearch_eq (fs u P : Nat) :
    tapSearch fs u P =
      if (tapBounds P (u * Config.twiceBitRate) fs).1 = (tapBounds P (u * Config.twiceBitRate) fs).2 then
        (tapBounds P (u * Config.twiceBitRate) fs).1
      else tapSearch fs u (2 * P) := by
  rw [tapSearch]

/-- Where a precision `2^k · P` settles the tap, the search from P ends at one that does. -/
theorem tapSearch_settled {fs u : Nat} {k P : Nat}
    (h : (tapBounds (P * 2 ^ k) (u * Config.twiceBitRate) fs).1 = (tapBounds (P * 2 ^ k) (u * Config.twiceBitRate) fs).2) :
    ∃ j, (tapBounds (P * 2 ^ j) (u * Config.twiceBitRate) fs).1 = (tapBounds (P * 2 ^ j) (u * Config.twiceBitRate) fs).2 ∧
      tapSearch fs u P = (tapBounds (P * 2 ^ j) (u * Config.twiceBitRate) fs).1 := by
  induction k generalizing P with
  | zero => exact ⟨0, h, by rw [tapSearch_eq]; simp at h; simp [h]⟩
  | succ k ih =>
    rw [tapSearch_eq]
    split
    · exact ⟨0, by simpa using ‹_›, by simp⟩
    · have hk : P * 2 ^ (k + 1) = 2 * P * 2 ^ k := by rw [Nat.pow_succ, Nat.mul_comm 2 P, Nat.mul_assoc, Nat.mul_comm 2]
      obtain ⟨j, hj, he⟩ := ih (P := 2 * P) (hk ▸ h)
      have hj' : P * 2 ^ (j + 1) = 2 * P * 2 ^ j := by rw [Nat.pow_succ, Nat.mul_comm 2 P, Nat.mul_assoc, Nat.mul_comm 2]
      exact ⟨j + 1, by rw [hj']; exact hj, by rw [hj']; exact he⟩

/-- The listed precisions are the search's own first steps. -/
theorem tapMag_eq_search (fs u : Nat) : tapMag fs u tapPrecisions = tapSearch fs u 128 := by
  simp only [tapPrecisions, tapMag]
  rw [tapSearch_eq fs u 128, tapSearch_eq fs u (2 * 128), tapSearch_eq fs u (2 * (2 * 128))]

end Sys2Proof.Machine
end

