-- ==== Sys2Proof/Laws/Meanings.lean ====
section
/-! SUPPORT. Each command's meaning as one case split over its checks, and what any command can do to the state. The later
proofs cite these and unfold no meaning. -/

namespace Sys2Proof.Machine

theorem execGwgInit_eq (s : State) :
    execGwgInit s =
      match nameOperands s.platform.maxLen s.piIn s.psIn with
      | .ok v => .next (succeed .none { s with genValid := true, gen := freshGenerator v.1 v.2 })
      | .error (.raised e) => .next (abort e s)
      | .error (.refused r) => .refused r
      | .error (.stuck f) => .fault f := by
  simp only [execGwgInit]
  cases nameOperands s.platform.maxLen s.piIn s.psIn with
  | ok v => rfl
  | error a => cases a <;> rfl

theorem execGwgNext_eq (s : State) :
    execGwgNext s =
      if s.genValid then
        if fits s.platform.maxLen 1 then
          .next (succeed (.words [(emit s.gen).1]) { s with gen := (emit s.gen).2 })
        else .refused .capacityExceeded
      else .next (abort .noGenerator s) := by
  simp only [execGwgNext, needRoom_bind]
  split
  · split <;> rfl
  · rfl

theorem execGwgPull_eq (n : Nat) (s : State) :
    execGwgPull n s =
      if s.genValid then
        if fits s.platform.maxLen n then
          .next (succeed (.words (pull n s.gen).1) { s with gen := (pull n s.gen).2 })
        else .refused .capacityExceeded
      else .next (abort .noGenerator s) := by
  simp only [execGwgPull, needRoom_bind]
  split
  · split <;> rfl
  · rfl

theorem execDiffEnc_eq (s : State) :
    execDiffEnc s =
      if fits s.platform.maxLen s.bitsIn.length then .next (succeed (.bits (diffenc s.bitsIn)) s)
      else .refused .capacityExceeded := by
  simp only [execDiffEnc, needRoom_bind]
  split <;> rfl

theorem execBiphase_eq (s : State) :
    execBiphase s =
      if fits s.platform.maxLen s.bitsIn.length then
        if s.spb.toNat < 4 then .next (abort .degenerateParameters s)
        else if fits s.platform.maxLen s.spb.toNat ∧ fits s.platform.maxLen (s.bitsIn.length * s.spb.toNat) then
          .next (succeedSamples (impulses s.spb.toNat s.bitsIn) s)
        else .refused .capacityExceeded
      else .refused .capacityExceeded := by
  simp only [execBiphase, needRoom_bind, expand_eq]
  split
  · split
    · rfl
    · split <;> rfl
  · rfl

theorem execShape_eq (s : State) :
    execShape s =
      if fits s.platform.maxLen s.impIn.length then
        if s.spb.toNat = 0 ∨ s.sampleRate.toNat = 0 ∨ s.impIn.length = 0 then .next (abort .degenerateParameters s)
        else if fits s.platform.maxLen (2 * s.spb.toNat) ∧
            fits s.platform.maxLen (s.impIn.length + 2 * s.spb.toNat - 1) then
          .next (succeedSamples
            (convolve s.platform.conv (impulseOperand s.impIn)
              (kernel s.platform.kernels s.spb.toNat s.sampleRate.toNat)) s)
        else .refused .capacityExceeded
      else .refused .capacityExceeded := by
  have hl : (impulseOperand s.impIn).length = s.impIn.length := by simp [impulseOperand]
  simp only [execShape, needRoom_bind, shapePulse_eq, hl]
  split
  · split
    · rfl
    · split <;> rfl
  · rfl

theorem execUnmod_eq (s : State) :
    execUnmod s =
      if fits s.platform.maxLen s.bitsIn.length then
        if samplesPerBit s.sampleRate.toNat < 4 then .next (abort .degenerateParameters s)
        else if fits s.platform.maxLen (samplesPerBit s.sampleRate.toNat) ∧
            fits s.platform.maxLen (s.bitsIn.length * samplesPerBit s.sampleRate.toNat) then
          if s.bitsIn.length = 0 then .next (abort .degenerateParameters s)
          else if fits s.platform.maxLen (2 * samplesPerBit s.sampleRate.toNat) ∧
              fits s.platform.maxLen
                (s.bitsIn.length * samplesPerBit s.sampleRate.toNat + 2 * samplesPerBit s.sampleRate.toNat - 1) then
            .next (succeedSamples
              (convolve s.platform.conv (impulses (samplesPerBit s.sampleRate.toNat) (diffenc s.bitsIn))
                (kernel s.platform.kernels (samplesPerBit s.sampleRate.toNat) s.sampleRate.toNat)) s)
          else .refused .capacityExceeded
        else .refused .capacityExceeded
      else .refused .capacityExceeded := by
  simp only [execUnmod, needRoom_bind, expand_eq, diffenc_length]
  generalize hspb : samplesPerBit s.sampleRate.toNat = spb
  have hfs : 4 ≤ spb → s.sampleRate.toNat ≠ 0 := by
    intro h0 h1; simp [samplesPerBit, h1] at hspb; omega
  split
  · split
    · rfl
    · rename_i h4
      have h1 : spb ≠ 0 := by omega
      have h2 := hfs (by omega)
      have h3 : (s.bitsIn.length * spb = 0) ↔ s.bitsIn.length = 0 := by
        rw [Nat.mul_eq_zero]; exact ⟨fun h => h.resolve_right h1, .inl⟩
      split
      · simp only [bind_ok, shapePulse_eq, impulses_length, diffenc_length, h1, h2, h3, false_or]
        split
        · rfl
        · split <;> rfl
      · rfl
  · rfl

/-- BITSTREAM from where its configuration and its operands are known (R172). -/
theorem execBitstream_eq (s : State) :
    execBitstream s =
      if s.platform.enc = .unbound then .refused .encoderNotBound
      else if s.platform.batch = 0 then .refused .batchZero
      else
        settle s (nameOperands s.platform.maxLen s.piIn s.psIn >>= fun v =>
          pairCount s.seconds >>= fun n =>
          encodeBatches s.platform n n (freshGenerator v.1 v.2) [] >>= fun acc =>
          .ok (succeed (.bits acc) s)) := by
  simp only [execBitstream, needEncoder]
  split
  · rfl
  · split <;> rfl

/-- What any command can do when it goes on: fail, or succeed and change at most the generator slot and the NaN count
besides the result and status (R43, R203). -/
theorem exec_next_cases {i : Instr} {s t : State} (h : exec i s = .next t) :
    (∃ e, t = abort e s) ∨
    ∃ out valid g n, t = succeed out { s with genValid := valid, gen := g, nanCount := n } := by
  cases i with
  | gwgInit =>
    simp only [exec, execGwgInit_eq] at h
    split at h
    · simp only [Host.Outcome.next.injEq] at h; exact .inr ⟨_, _, _, s.nanCount, h.symm⟩
    · simp only [Host.Outcome.next.injEq] at h; exact .inl ⟨_, h.symm⟩
    · simp at h
    · simp at h
  | gwgNext =>
    simp only [exec, execGwgNext_eq] at h
    split at h
    · split at h
      · simp only [Host.Outcome.next.injEq] at h; exact .inr ⟨_, s.genValid, _, s.nanCount, h.symm⟩
      · simp at h
    · simp only [Host.Outcome.next.injEq] at h; exact .inl ⟨_, h.symm⟩
  | gwgPull n =>
    simp only [exec, execGwgPull_eq] at h
    split at h
    · split at h
      · simp only [Host.Outcome.next.injEq] at h; exact .inr ⟨_, s.genValid, _, s.nanCount, h.symm⟩
      · simp at h
    · simp only [Host.Outcome.next.injEq] at h; exact .inl ⟨_, h.symm⟩
  | diffEnc =>
    simp only [exec, execDiffEnc_eq] at h
    split at h
    · simp only [Host.Outcome.next.injEq] at h; exact .inr ⟨_, s.genValid, s.gen, s.nanCount, h.symm⟩
    · simp at h
  | biphase =>
    simp only [exec, execBiphase_eq] at h
    split at h
    · split at h
      · simp only [Host.Outcome.next.injEq] at h; exact .inl ⟨_, h.symm⟩
      · split at h
        · simp only [Host.Outcome.next.injEq] at h; exact .inr ⟨_, s.genValid, s.gen, _, h.symm⟩
        · simp at h
    · simp at h
  | shape =>
    simp only [exec, execShape_eq] at h
    split at h
    · split at h
      · simp only [Host.Outcome.next.injEq] at h; exact .inl ⟨_, h.symm⟩
      · split at h
        · simp only [Host.Outcome.next.injEq] at h; exact .inr ⟨_, s.genValid, s.gen, _, h.symm⟩
        · simp at h
    · simp at h
  | unmod =>
    simp only [exec, execUnmod_eq] at h
    repeat' split at h
    all_goals first
      | (simp only [Host.Outcome.next.injEq] at h; exact .inl ⟨_, h.symm⟩)
      | (simp only [Host.Outcome.next.injEq] at h; exact .inr ⟨_, s.genValid, s.gen, _, h.symm⟩)
      | simp at h
  | bitstream =>
    simp only [exec, execBitstream] at h
    rcases settle_next_iff.1 h with h | ⟨e, -, h⟩
    · right
      simp only [needEncoder] at h
      refine ⟨t.out, s.genValid, s.gen, s.nanCount, ?_⟩
      split at h
      · simp at h
      · split at h
        · simp at h
        · simp only [bind_ok] at h
          cases hv : nameOperands s.platform.maxLen s.piIn s.psIn with
          | error a => simp [hv] at h
          | ok v =>
            cases hn : pairCount s.seconds with
            | error a => simp [hv, hn] at h
            | ok n =>
              cases hb : encodeBatches s.platform n n (freshGenerator v.1 v.2) [] with
              | error a => simp [hv, hn, hb] at h
              | ok acc => simp [hv, hn, hb] at h; subst h; rfl
    · exact .inl ⟨e, h⟩

end Sys2Proof.Machine
end

