-- ==== Sys2Proof/Laws/PerInstr.lean ====
section
/-! SUPPORT. Statements made of every command as syntax, one lemma per constructor. -/

namespace Sys2Proof.Laws.EncodedOpcode

/-- The low byte of a command's word is its opcode, whatever its operand (R80, R82). -/
def Statement (i : Instr) : Prop := opcField (encode i) = i.opcode

theorem low_byte (c : BitVec 24) (o : BitVec 8) : opcField (c ++ o) = o := by
  apply BitVec.eq_of_getLsbD_eq
  intro k hk
  have low : (c ++ o).getLsbD k = o.getLsbD k := by rw [BitVec.getLsbD_append]; simp [hk]
  simp only [opcField, BitVec.getLsbD_extractLsb', hk, decide_true, Bool.true_and, Nat.zero_add]
  exact low

theorem gwgInit : Statement .gwgInit := low_byte _ _

theorem gwgNext : Statement .gwgNext := low_byte _ _

theorem gwgPull (count : Nat) : Statement (.gwgPull count) := low_byte _ _

theorem diffEnc : Statement .diffEnc := low_byte _ _

theorem biphase : Statement .biphase := low_byte _ _

theorem shape : Statement .shape := low_byte _ _

theorem unmod : Statement .unmod := low_byte _ _

theorem bitstream : Statement .bitstream := low_byte _ _

end Sys2Proof.Laws.EncodedOpcode
end

