-- ==== Sys2Proof/Laws/Step.lean ====
section
/-! SUPPORT. One step: which host access it serves, and what an access can do. -/

namespace Sys2Proof.Machine

theorem step_idle {s : State} (h : s.host = []) : step s = .next s := by simp [step, h]

theorem step_access {s : State} {a : HostAction} {rest : List HostAction} (h : s.host = a :: rest) :
    step s = hostAccess a { s with host := rest } := by simp [step, h]

@[simp] theorem regAt_regIndex (r : Reg) : regAt (regIndex r) = some r := by cases r <;> rfl

/-- An index names a register only if it is that register's own (R22: no aliases). -/
theorem regAt_eq_some {k : Nat} {r : Reg} (h : regAt k = some r) : k = regIndex r := by
  unfold regAt at h
  split at h <;> simp at h <;> subst h <;> rfl

/-- What a CMD write can do: run its command, or raise IllegalCommand (R31, R81). -/
theorem runCommand_cases (w : Word) (s : State) :
    (∃ i, decode w = .ok i ∧ runCommand w s = exec i { s with cmd := w }) ∨
    (∃ e, decode w = .error e ∧ runCommand w s = .next (abort .illegalCommand { s with cmd := w })) := by
  unfold runCommand
  cases h : decode w with
  | ok i => exact .inl ⟨i, rfl, rfl⟩
  | error e => exact .inr ⟨e, rfl, rfl⟩

/-- A sequence register is set, or the write is refused for want of room (R72). -/
theorem storeSequence_next {n : Nat} {s t u : State} (h : storeSequence n s t = .next u) :
    u = t ∧ fits s.platform.maxLen n = true := by
  unfold storeSequence at h
  split at h
  · simp only [Host.Outcome.next.injEq] at h
    exact ⟨h.symm, ‹_›⟩
  · simp at h

end Sys2Proof.Machine
end

