-- ==== Sys2Proof/Tests/Slice0.lean ====
section
/-! SUPPORT. Tests, each of one step on a small state, with expected results from spec/95_test_vectors.md and the rules'
own examples; and, for every statement with hypotheses, a witness that meets them. -/

namespace Sys2Proof.Tests

open Sys2Proof.Machine

/-- The state an outcome goes on to. -/
def nextOf : Host.Outcome State Fault Refusal → Option State
  | .next t => some t
  | .fault _ => none
  | .refused _ => none

/-- The fault an outcome ends in. -/
def faultOf : Host.Outcome State Fault Refusal → Option Fault
  | .next _ => none
  | .fault f => some f
  | .refused _ => none

/-- The refusal an outcome ends in. -/
def refusalOf : Host.Outcome State Fault Refusal → Option Refusal
  | .next _ => none
  | .fault _ => none
  | .refused r => some r

/-- The bytes of an ASCII name. -/
def ascii (name : String) : List Byte := name.toList.map fun c => BitVec.ofNat 8 c.toNat

/-- Reset, on a platform with STUB16 bound. -/
def base : State := { State.reset with platform := { Platform.default with enc := .stub16 } }

/-- `base` with PI 0x1234 and "TESTSTAT" in the operand registers (S-1). -/
def station : State := { base with piIn := 0x1234, psIn := ascii "TESTSTAT" }

/-- A generator for PI 0x1234 and "TESTSTAT" at a cursor. -/
def generatorAt (i blk : BitVec 2) : State :=
  { station with
    genValid := true
    gen := { pi := 0x1234, ps := #v[0x54, 0x45, 0x53, 0x54, 0x53, 0x54, 0x41, 0x54], i := i, blk := blk } }

/-- A platform whose sequences hold at most two elements. -/
def cramped : State := { base with platform := { base.platform with maxLen := some 2 } }

/-! ## Well-formedness, decoding, assembly -/

theorem test_wf_refuses_wide_count : (Instr.gwgPull 16777216).wf = false := by decide

theorem test_wf_accepts_widest_count : (Instr.gwgPull 16777215).wf = true := by decide

-- R80, R82: bits 31:8 COUNT, bits 7:0 OPC, written out bit by bit.
theorem test_word_gwgInit : decode 0b000000000000000000000000_00000001#32 = .ok .gwgInit := by rfl

theorem test_word_gwgNext : decode 0b000000000000000000000000_00000010#32 = .ok .gwgNext := by rfl

theorem test_word_gwgPull : decode 0b000000000000000000001000_00000011#32 = .ok (.gwgPull 8) := by rfl

theorem test_word_diffEnc : decode 0b000000000000000000000000_00010000#32 = .ok .diffEnc := by rfl

theorem test_word_biphase : decode 0b000000000000000000000000_00010001#32 = .ok .biphase := by rfl

theorem test_word_shape : decode 0b000000000000000000000000_00010010#32 = .ok .shape := by rfl

theorem test_word_unmod : decode 0b000000000000000000000000_00100000#32 = .ok .unmod := by rfl

theorem test_word_bitstream : decode 0b000000000000000000000000_00100001#32 = .ok .bitstream := by rfl

-- V-DEC-1, V-DEC-3.
theorem test_word_zero_illegal : decode 0x00000000#32 = .error (.unknownOpcode 0) := by rfl

theorem test_word_count_reserved : decode 0x00000101#32 = .error (.reservedCount 1 1) := by rfl

theorem test_encode_pull : encode (.gwgPull 16) = 0x00001003#32 := by decide

theorem test_table_word : decodeTableWord 32 0x00000803 = some (.gwgPull 8) := by decide

-- R87, R88.
theorem test_assemble_hex : assembleLine "GWG_PULL 0x10".toList = some (.gwgPull 16) := by decide +kernel

theorem test_assemble_wide_count : assembleLine "GWG_PULL 16777216".toList = none := by decide +kernel

/-! ## The host's registers -/

-- V-DE-9, V-DEC-3: an illegal word is a next state with code 6.
theorem test_illegal_word :
    (nextOf (runCommand 0x00000110#32 station)).map (fun t => (t.errLast, t.errSticky, t.out)) =
      some (6, 0x40, .none) := by decide

-- V-GWG-2: STATUS = 0x11 for GEN_I = 2, GEN_BLK = 0.
theorem test_status : readIndex (generatorAt 2 0) 0x01 = .word 0x11#32 := by decide

-- V-GWG-2: element 0x00035445 of the D pair.
theorem test_words_element : wordsElement ⟨.d, 0x5445⟩ = 0x00035445#32 := by decide

theorem test_unknown_index : readIndex station 0x09 = .word 0#32 := by decide

theorem test_write_pi :
    (nextOf (hostAccess (.write 0x05 (.word 0xFFFFFFFF)) station)).map (·.piIn) = some 0xFFFFFFFF := by decide

-- V-RST-1.
theorem test_reset :
    (nextOf (hostAccess .reset (abort .noGenerator (generatorAt 2 1)))).map
      (fun t => (statusWord t, t.errSticky, t.spb.toNat, t.sampleRate.toNat)) = some (0, 0, 192, 228000) := by decide

/-! ## The commands -/

-- V-GWG-1, V-GWG-12.
theorem test_gwgInit :
    (nextOf (exec .gwgInit station)).map (fun t => (statusWord t, t.gen.ps[7], t.errLast)) =
      some (0x01, 0x54, 0) := by decide +kernel

theorem test_gwgInit_pi_first :
    (nextOf (exec .gwgInit { base with piIn := 0x10000, psIn := ascii "123456789" })).map (·.errLast) =
      some 1 := by decide +kernel

-- R102's example; V-GWG-14.
theorem test_gwgNext :
    (nextOf (exec .gwgNext (generatorAt 0 1))).map (fun t => (t.out, statusWord t)) =
      some (.words [⟨.b, 0x0800⟩], 0x05) := by decide +kernel

theorem test_gwgNext_no_generator :
    (nextOf (exec .gwgNext base)).map (fun t => (t.errLast, t.out)) = some (5, .none) := by decide

-- R104's example, continued over the end of the group (S-1).
theorem test_gwgPull :
    (nextOf (exec (.gwgPull 6) (generatorAt 0 0))).map (fun t => (t.out, statusWord t)) =
      some (.words [⟨.a, 0x1234⟩, ⟨.b, 0x0800⟩, ⟨.cPrime, 0x1234⟩, ⟨.d, 0x5445⟩, ⟨.a, 0x1234⟩, ⟨.b, 0x0801⟩],
        0x0D) := by decide +kernel

-- V-GWG-15.
theorem test_gwgPull_zero_checks_generator :
    (nextOf (exec (.gwgPull 0) base)).map (·.errLast) = some 5 := by decide

-- V-DE-1, V-DE-2.
theorem test_diffEnc :
    (nextOf (exec .diffEnc { base with bitsIn := [true, false, true, true, false, false, true] })).map (·.out) =
      some (.bits [false, false, true, false, false, false, true]) := by decide

theorem test_diffEnc_empty : (nextOf (exec .diffEnc base)).map (·.out) = some (.bits []) := by decide

-- V-BP-1, V-BP-9.
theorem test_biphase :
    (nextOf (exec .biphase { base with spb := 4, bitsIn := [true, false] })).map (·.out) =
      some (.samples [0x3FF0000000000000, 0xBFF0000000000000, 0, 0, 0xBFF0000000000000, 0x3FF0000000000000,
        0x8000000000000000, 0x8000000000000000]) := by decide +kernel

theorem test_biphase_spb_zero : (nextOf (exec .biphase { base with spb := 0 })).map (·.errLast) = some 3 := by decide

-- V-SH-1: the eight taps.
theorem test_shape :
    (nextOf (exec .shape { base with spb := 4, sampleRate := 4750, impIn := [0x3FF0000000000000] })).map (·.out) =
      some (.samples [0xBF94B1F84F05E003, 0x3FA2A02C471EE336, 0xBFB5BADE52F95E69, 0x3FDB2995E7B7B604,
        0x3FF45F306DC9C883, 0x3FDB2995E7B7B604, 0xBFB5BADE52F95E69, 0x3FA2A02C471EE336]) := by decide +kernel

-- V-SH-9: +∞ through zero taps, and the singular taps.
theorem test_shape_infinity :
    convolve .direct [.inf false] (defaultKernel 8 9500) =
      [.inf true, .nan, .inf false, .nan, .inf true, .nan, .inf false, .inf false, .inf false, .inf false, .inf false,
       .nan, .inf true, .nan, .inf false, .nan] := by decide +kernel

-- V-SH-4: taps 167 and 1 of the kernel at the default rate.
theorem test_tap_near_singular : tapAt 228000 25 = valOf 0x3FEF5316982A6C1E#64 := by decide +kernel

theorem test_tap_far : tapAt 228000 191 = valOf 0xBF94DF04ED1078A1#64 := by decide +kernel

-- V-UM-1: samples 8 and 14 of 15 (0.8852046358634942 and +0.0).
theorem test_unmod :
    (nextOf (exec .unmod { base with sampleRate := 4750, bitsIn := [true, true] })).map (fun t =>
      match t.out with
      | .samples ys => (ys.length, ys[8]?, ys[14]?)
      | .none => (0, none, none)
      | .words _ => (0, none, none)
      | .bits _ => (0, none, none)) = some (15, some 0x3FEC5398AC29A438, some 0) := by decide +kernel

-- V-UM-4.
theorem test_unmod_rate_too_low :
    (nextOf (exec .unmod { base with sampleRate := 4749, bitsIn := [true] })).map (·.errLast) = some 3 := by decide

-- V-BS-1: 0.05 s is three pairs, one call.
theorem test_bitstream :
    (nextOf (exec .bitstream { station with seconds := 0x3FA999999999999A })).map (·.out) =
      some (.bits ([0x1234#16, 0x0800#16, 0x1234#16].flatMap fun w => (List.range 16).map fun k =>
        w.toNat / 2 ^ (15 - k) % 2 == 1)) := by decide +kernel

-- V-BS-4.
theorem test_bitstream_encoder_error :
    (nextOf (exec .bitstream { station with
      seconds := 0x3FB999999999999A, platform := { station.platform with enc := .stubErr ⟨7⟩ } })).map
      (fun t => (t.errLast, t.errInfo, t.errSticky, t.out)) = some (4, some ⟨7⟩, 0x10, .none) := by decide +kernel

-- V-BS-6.
theorem test_pair_counts :
    [0x0000000000000000, 0x8000000000000000, 0x0000000000000001, 0x3FA999999999999A, 0x3FB999999999999A,
      0x3FF0000000000000, 0x4024000000000000].map (fun x => (pairCount (BitVec.ofNat 64 x)).toOption) =
      [some 0, some 0, some 1, some 3, some 5, some 46, some 457] := by decide +kernel

-- V-BS-5: −1.0, +∞, a NaN, and 1e308, whose product overflows.
theorem test_pair_count_degenerate :
    [0xBFF0000000000000, 0x7FF0000000000000, 0x7FF8000000000000, 0x7FE1CCF385EBC8A0].map
      (fun x => (pairCount (BitVec.ofNat 64 x)).toOption) = [none, none, none, none] := by decide +kernel

-- R12: a tie to even, and the least subnormal halved.
theorem test_round_tie : fadd (valOf 0x3FF0000000000000#64) (valOf 0x3CA0000000000000#64) = valOne := by decide +kernel

theorem test_underflow : fmul (valOf 0x8000000000000001#64) (valOf 0x3FE0000000000000#64) = .fin true 0 0 := by
  decide +kernel

/-! ## Witnesses -/

theorem witness_DecodedWordReencodes : decode 0xFFFFFF03#32 = .ok (.gwgPull 16777215) := by rfl

theorem witness_CommandWordDecoding :
    0xFFFFFF03 % 256 = 0x03 ∧ 0x00000021 % 256 = 0x21 ∧ 0x00000021 / 256 = 0 ∧
    (0x00000110 % 256 ≠ 0x03 ∧ 0x00000110 / 256 ≠ 0) ∧
    (0x00000022 % 256 ≠ 0x03 ∧ 0x22 ∉ [0x01, 0x02, 0x10, 0x11, 0x12, 0x20, 0x21]) := by decide

theorem witness_StepRunsDecodedCommand :
    let s : State := { base with host := [.write 0x00 (.word 0x10)] }
    s.host = .write 0x00 (.word 0x10#32) :: [] ∧ decode 0x10#32 = .ok .diffEnc ∧
    decodeTableWord 32 0x10 = some .diffEnc ∧ (decode 0x22#32).toOption = none ∧
    decodeTableWord 32 0x22 = none := by decide

theorem witness_IdleBlockHoldsState : State.reset.host = [] := by rfl

theorem witness_HostWriteReadsBack :
    writable none 0x05 (.word 0xFFFFFFFF) = true ∧ writable none 0x08 (.double 0x7FF8000000000000) = true ∧
    writable (some 2) 0x10 (.bytes [1, 2]) = true ∧ writable (some 2) 0x12 (.doubles []) = true ∧
    writable (some 2) 0x11 (.bits [true, false]) = true := by decide

theorem witness_ReadOnlyIndicesIgnoreWrites :
    0x13 ∈ [0x01, 0x02, 0x03, 0x04, 0x13] ∧ (8 < 0x09 ∧ 0x09 < 0x10) ∧ 0x13 < 0x14 := by decide

theorem witness_OutReadFormat :
    base.out = .none ∧ (succeed (.words [⟨.cPrime, 1⟩]) base).out = .words [⟨.cPrime, 1⟩] ∧
    (succeed (.bits [true]) base).out = .bits [true] ∧ (succeed (.samples [0]) base).out = .samples [0] := by decide

theorem witness_StickyBitsClearedOnlyByReset :
    let s : State := { base with host := [.write 0x00 (.word 0x02)], errSticky := 0x40 }
    (nextOf (step s)).map (·.errSticky) = some 0x60 ∧ (nextOf (exec .diffEnc s)).map (·.errLast) = some 0 ∧
    s.host = [.write 0x00 (.word 0x02)] := by decide

theorem witness_StepKeepsStateInvariant : State.reset.Inv ∧ step State.reset = .next State.reset :=
  ⟨by constructor <;> decide, rfl⟩

theorem witness_GwgInitConstructsGenerator :
    ValidPi 0#32 ∧ ValidPi 0xFFFF#32 ∧ station.psIn.length = 8 ∧ fits (some 8) 8 = true :=
  ⟨by unfold ValidPi; decide, by unfold ValidPi; decide, by decide +kernel, by decide +kernel⟩

theorem witness_FailedGwgInitKeepsGenerator :
    ¬ ValidPi 0x10000#32 ∧ ¬ ValidPi 0xFFFFFFFF#32 ∧ 8 < (ascii "123456789").length ∧
    (nextOf (exec .gwgInit { generatorAt 1 0 with piIn := 0x10000 })).map (·.errLast) = some 1 :=
  ⟨by unfold ValidPi; decide, by unfold ValidPi; decide, by decide +kernel, by decide +kernel⟩

/-- Meets GwgNextEmitsPair, GwgPullAdvancesCursor and GwgPullIsRepeatedGwgNext. -/
theorem witness_generator_commands :
    let s := generatorAt 0 0
    s.genValid = true ∧ fits s.platform.maxLen 1 = true ∧ fits s.platform.maxLen 16 = true ∧
    s.platform.maxLen = none ∧ s.gen.i = 0 ∧ s.gen.blk = 0 := by decide

/-- Meets StreamAfterGwgInit and StreamCarriesPiAndPs; a DIFF_ENC stands between two pulls. -/
theorem witness_StreamAfterGwgInit :
    let ps : Vector Byte 8 := #v[0x54, 0x45, 0x53, 0x54, 0x53, 0x54, 0x41, 0x54]
    (nextOf (exec .gwgInit station)).map (fun t => (t.errLast, t.platform.maxLen,
      (collectWords [.gwgPull 3, .diffEnc, .gwgNext] t).map (·.1))) =
        some (0, none, some [⟨.a, 0x1234⟩, ⟨.b, 0x0800⟩, ⟨.cPrime, 0x1234⟩, ⟨.d, 0x5445⟩]) ∧
    PaddedFrom station.psIn ps ∧ ∀ i ∈ [Instr.gwgNext, .gwgPull 6], pullsWords i :=
  ⟨by decide +kernel, by unfold PaddedFrom; decide +kernel, by simp [pullsWords]⟩

theorem witness_NoGeneratorRaised :
    base.genValid = false ∧
    (nextOf (exec .gwgInit { base with piIn := 0x10000 })).map (·.errLast) = some 1 := by decide

theorem witness_StreamIgnoresInputRegisters :
    let u : State := { generatorAt 0 2 with piIn := 7, out := .bits [] }
    pullsWords (.gwgPull 3) ∧ (nextOf (exec (.gwgPull 3) (generatorAt 0 2))).isSome = true ∧
    u.gen = (generatorAt 0 2).gen ∧ u.genValid = (generatorAt 0 2).genValid :=
  ⟨.inr ⟨3, rfl⟩, by decide +kernel, rfl, rfl⟩

/-- Meets FailingCommandChangesOnlyStatus, and the clauses of CommandFrame and ErrorsOnlyFromListedCommands. -/
theorem witness_command_outcomes :
    (nextOf (exec .unmod base)).map (·.errLast) = some 3 ∧
    (nextOf (exec .bitstream station)).map (·.errLast) = some 0 ∧
    (nextOf (exec (.gwgPull 1) (generatorAt 0 0))).map (·.errLast) = some 0 ∧
    (nextOf (exec .gwgInit station)).map (·.errLast) = some 0 ∧ (decode 0#32).toOption = none ∧
    (nextOf (exec .bitstream { station with
      seconds := 1, platform := { station.platform with enc := .stubErr ⟨7⟩ } })).map (·.errLast) = some 4 := by
  decide +kernel

/-- Every premise is met while the bound encoder would fail on any batch. -/
theorem witness_ChecksComeInOrder :
    let p : Platform := { base.platform with enc := .stubErr ⟨7⟩, maxLen := some 9 }
    2 * 4749 / 2375 < 4 ∧ p.enc ≠ .unbound ∧ p.batch ≠ 0 ∧ fits p.maxLen 9 = true ∧ fits p.maxLen 8 = true ∧
    ¬ ValidPi 0x10000#32 ∧ ValidPi 0xFFFF#32 ∧ 8 < (ascii "123456789").length ∧
    (pairCount 0xBFF0000000000000#64).toOption = none :=
  ⟨by decide, by decide, by decide, by decide, by decide, by unfold ValidPi; decide, by unfold ValidPi; decide,
   by decide +kernel, by decide +kernel⟩

theorem witness_CommandsReadOnlyTheirOperands :
    let u : State := { station with seconds := 1, errSticky := 2 }
    station.platform = u.platform ∧ station.gen = u.gen ∧ station.piIn = u.piIn ∧ station.psIn = u.psIn ∧
    station.bitsIn = u.bitsIn ∧ station.spb = u.spb ∧ station.impIn = u.impIn ∧ station ≠ u ∧
    (nextOf (exec .gwgInit u)).map (·.errLast) = some 0 := by decide +kernel

theorem witness_DiffEncEncodes :
    let s : State := { cramped with bitsIn := [true, true] }
    fits s.platform.maxLen s.bitsIn.length = true ∧ 0 + 1 < s.bitsIn.length ∧ 0 + 1 < (diffenc s.bitsIn).length := by
  decide

/-- Meets DiffEncClosedForm. -/
theorem witness_DiffEncClosedForm :
    (nextOf (exec .diffEnc { base with bitsIn := [true, true] })).map (·.out) = some (.bits [false, true]) := by decide

theorem witness_FirstCodedBitIsLost :
    0 + 1 < [true, false].length ∧ 0 + 1 < (diffenc [true, false]).length := by decide

theorem witness_SplitEncodingDiffers :
    ([true] : List Bit) ≠ [] ∧ ([true, true] : List Bit) ≠ [] ∧
    (nextOf (exec .diffEnc { base with bitsIn := [true] })).map (·.out) = some (.bits [false]) ∧
    (nextOf (exec .diffEnc { base with bitsIn := [true, true] })).map (·.out) = some (.bits [false, true]) ∧
    (nextOf (exec .diffEnc { base with bitsIn := [true] ++ [true, true] })).map (·.out) =
      some (.bits [false, true, false]) := by decide

theorem witness_SymbolsAreBalanced :
    let s : State := { base with spb := 4, bitsIn := [false] }
    (nextOf (exec .biphase s)).map (·.out) =
      some (.samples [0xBFF0000000000000, 0x3FF0000000000000, 0x8000000000000000, 0x8000000000000000]) ∧
    0 < s.bitsIn.length := by decide +kernel

theorem witness_BiphaseSymbols :
    let s : State := { base with spb := 4, bitsIn := [true] }
    4 ≤ s.spb.toNat ∧ fits s.platform.maxLen s.bitsIn.length = true ∧ fits s.platform.maxLen s.spb.toNat = true ∧
    fits s.platform.maxLen (s.bitsIn.length * s.spb.toNat) = true ∧ 0 < s.bitsIn.length ∧ 3 < s.spb.toNat := by decide

theorem witness_BiphaseRejectsSmallSpb :
    let s : State := { base with spb := 3 }
    s.spb.toNat < 4 ∧ fits s.platform.maxLen s.bitsIn.length = true := by decide

theorem witness_ShapeConvolves :
    let s : State := { base with spb := 1, sampleRate := 1, impIn := [0x7FF8000000000000] }
    let u : State := { s with platform := { s.platform with conv := .other 3 } }
    s.spb.toNat ≠ 0 ∧ s.sampleRate.toNat ≠ 0 ∧ s.impIn ≠ [] ∧ fits s.platform.maxLen s.impIn.length = true ∧
    fits s.platform.maxLen (2 * s.spb.toNat) = true ∧
    fits s.platform.maxLen (s.impIn.length + 2 * s.spb.toNat - 1) = true ∧ s.platform.conv = .direct ∧
    u.platform.conv = .other 3 ∧
    convSum (s.impIn.map valOf) (kernel [] 1 1) 0 ≠ valZero ∧ convSum [valZero] (kernel [] 1 1) 0 = valZero := by
  decide +kernel

theorem witness_DeclaredConvIsBitIdentical :
    let s : State := { base with spb := 1, sampleRate := 1, impIn := [0x8000000000000000] }
    (nextOf (exec .shape { s with platform := { s.platform with conv := .direct } })).map (·.out) =
      some (.samples [0, 0]) ∧
    (nextOf (exec .shape { s with platform := { s.platform with conv := .other 3 } })).map (·.out.length) = some 2 := by
  decide +kernel

theorem witness_ShapeRejectsDegenerate :
    ({ base with spb := 0 } : State).spb.toNat = 0 ∧ ({ base with sampleRate := 0 } : State).sampleRate.toNat = 0 ∧
    base.impIn = [] ∧ fits base.platform.maxLen base.impIn.length = true := by decide

theorem witness_KernelEvenWithLandmarks :
    0 < 9500 ∧ 1 < 8 ∧ 4 * (2375 * 1) = 9500 ∧ 4 * (2375 * 3) = (2 * 1 + 1) * 9500 ∧ 3 ≤ 8 := by decide

theorem witness_CosineBoundsEnclose : 0 < 4750 ∧ 2 * 2375 ≤ 4750 := by decide

theorem witness_KernelTapsCorrectlyRounded :
    0 < 4750 ∧ 4750 < 2 ^ 32 ∧ 1 ≤ 2 ^ 32 ∧ TapSettled 4750 1 ∧ 4 * (2375 * 1) ≠ 4750 ∧
    TapSettled 9500 1 ∧ 4 * (2375 * 1) = 9500 ∧ (valOf 0x3FF0000000000000#64).isFin = true :=
  ⟨by decide, by decide, by decide, .inr ⟨0, by decide +kernel⟩, by decide, .inl (by decide), by decide, by decide +kernel⟩

/-- Both sides of the overflow boundary. -/
theorem witness_RoundingIsNearestTiesToEven :
    roundMag 1 3 < infMag ∧ 0 < infMag ∧ 0 ≠ roundMag 1 3 ∧ roundMag ((2 ^ 54 - 1) * 2 ^ 970) 1 = infMag ∧
    roundMag ((2 ^ 54 - 1) * 2 ^ 970 - 1) 1 < infMag := by decide +kernel

/-- Non-zero operands, an exact zero sum, a zero product, and a sum that overflows. -/
theorem witness_FloatOpsRoundTheExactResult :
    let x := valOf 0x3FF0000000000000#64
    let y := valOf 0xBFF0000000000000#64
    let z := valOf 0x8000000000000000#64
    let big := valOf 0x7FEFFFFFFFFFFFFF#64
    x.isFin = true ∧ y.isFin = true ∧ z.isFin = true ∧ big.isFin = true ∧ fadd x y = valOf 0#64 ∧
    fmul x z = z ∧ fadd z z = z ∧ (fdiv x y).isFin = true ∧ (fadd big big).isFin = false := by decide +kernel

theorem witness_PatternsRoundTrip : valOf 0x8000000000000000#64 ≠ .nan := by decide +kernel

/-- A NaN, and +∞ against the zero tap x = 1 of a 16-tap kernel at 9500 (V-SH-9). -/
theorem witness_NanAndInfinityPropagate :
    let s : State := { base with spb := 1, sampleRate := 4750, impIn := [0x7FF8000000000000] }
    let u : State := { base with spb := 8, sampleRate := 9500, impIn := [0x7FF0000000000000] }
    valOf s.impIn[0] = .nan ∧ 0 < 0 + 2 * s.spb.toNat ∧ (nextOf (exec .shape s)).map (·.out.length) = some 2 ∧
    s.platform.conv = .direct ∧ valOf u.impIn[0] = .inf false ∧
    (kernel u.platform.kernels u.spb.toNat u.sampleRate.toNat)[1]? = some (.fin false 0 0) ∧
    (nextOf (exec .shape u)).map (·.out.length) = some 16 := by
  decide +kernel

/-- Meets NoNegativeZeroSample, UnmodRuns and UnmodEqualsHostChain. -/
theorem witness_unmod :
    let s : State := { base with sampleRate := 4750, bitsIn := [true] }
    4 = 2 * s.sampleRate.toNat / 2375 ∧ 4750 ≤ s.sampleRate.toNat ∧ s.bitsIn ≠ [] ∧
    fits s.platform.maxLen s.bitsIn.length = true ∧ fits s.platform.maxLen 4 = true ∧
    fits s.platform.maxLen (s.bitsIn.length * 4) = true ∧ fits s.platform.maxLen (2 * 4) = true ∧
    fits s.platform.maxLen (s.bitsIn.length * 4 + 2 * 4 - 1) = true ∧ s.platform.conv = .direct ∧
    (nextOf (exec .unmod s)).map (·.out.length) = some 11 := by decide +kernel

theorem witness_UnmodRejectsDegenerate :
    fits cramped.platform.maxLen cramped.bitsIn.length = true ∧ cramped.bitsIn = [] ∧
    ({ cramped with sampleRate := 4749 } : State).sampleRate.toNat < 4750 ∧
    fits base.platform.maxLen (2 * base.sampleRate.toNat / 2375) = true ∧
    fits cramped.platform.maxLen (2 * ({ cramped with sampleRate := 2375 } : State).sampleRate.toNat / 2375) = true := by
  decide

theorem witness_SamplesPerBitIsTheFloor : 4294967295 < 2 ^ 32 := by decide

/-- Five pairs in two batches, the second of one pair (V-BS-2); and no pairs under a silent encoder (V-BS-3). -/
theorem witness_BitstreamConcatenatesBatches :
    let s : State := { station with seconds := 0x3FB999999999999A }
    let u : State := { station with platform := { station.platform with enc := .silent } }
    s.platform.enc ≠ .unbound ∧ 0 < s.platform.batch ∧ ValidPi s.piIn ∧ s.psIn.length ≤ 8 ∧
    PaddedFrom s.psIn #v[0x54, 0x45, 0x53, 0x54, 0x53, 0x54, 0x41, 0x54] ∧ pairCount s.seconds = .ok 5 ∧
    (∀ batch, callEncoder s.platform.enc batch = .ok ((fun b => b.flatMap fun p => wordBitsMsb p.word) batch)) ∧
    s.platform.maxLen = none ∧
    u.platform.enc ≠ .unbound ∧ pairCount u.seconds = .ok 0 ∧ (∀ k, ¬ k * u.platform.batch < 0) := by
  refine ⟨by decide, by decide, by simp only [ValidPi]; decide, by decide +kernel, ?_, by decide +kernel, fun _ => rfl,
    rfl, by decide, by decide +kernel, fun k => Nat.not_lt_zero _⟩
  unfold PaddedFrom
  decide +kernel

/-- A station for five pairs whose encoder answers the first batch and comes to `last` on the second, of one pair. -/
def answeredOnce (last : EncAnswer) : State :=
  { station with
    seconds := 0x3FB999999999999A
    platform := { station.platform with
      enc := .fixed [([⟨.a, 0x1234⟩, ⟨.b, 0x0800⟩, ⟨.cPrime, 0x1234⟩, ⟨.d, 0x5445⟩], .ok [true]), ([⟨.a, 0x1234⟩], last)] } }

/-- The premises of EncoderErrorAborts and BitstreamStops at batch number 1, the first batch answered. -/
theorem witness_second_batch :
    ∀ last ∈ [EncAnswer.err ⟨7⟩, .noAnswer],
      let s := answeredOnce last
      let batch := fun j => streamBatch (s.piIn.extractLsb' 0 16) #v[0x54, 0x45, 0x53, 0x54, 0x53, 0x54, 0x41, 0x54]
        s.platform.batch 5 j
      s.platform.enc ≠ .unbound ∧ 0 < s.platform.batch ∧ s.platform.maxLen = none ∧ pairCount s.seconds = .ok 5 ∧
      1 * s.platform.batch < 5 ∧ (∀ j, j < 1 → callEncoder s.platform.enc (batch j) = .ok [true]) ∧
      callEncoder s.platform.enc (batch 1) = last := by decide +kernel

theorem witness_EncoderErrorAborts :
    (nextOf (exec .bitstream (answeredOnce (.err ⟨7⟩)))).map (·.errInfo) = some (some ⟨7⟩) := by decide +kernel

theorem witness_BitstreamStops :
    faultOf (exec .bitstream (answeredOnce .noAnswer)) = some .encoderNeverAnswers ∧
    ({ station.platform with enc := .unbound } : Platform).enc = .unbound ∧
    ({ station.platform with batch := 0 } : Platform).batch = 0 := by decide +kernel

theorem witness_SecondsGivePairCount :
    (valOf 0x7FF8000000000000#64).isFin = false ∧ (valOf 0xBFF0000000000000#64).toRat < 0 ∧
    (fdiv (fmul (valOf 0x7FE1CCF385EBC8A0#64) valBitRate) valBlockBits).isFin = false ∧
    0 ≤ (valOf 0x8000000000000000#64).toRat := by decide +kernel

theorem witness_BitstreamLengthPerPair :
    let s : State := { station with seconds := 0x3FB999999999999A }
    pairCount s.seconds = .ok 5 ∧
    (∀ batch b, callEncoder s.platform.enc batch = .ok b → b.length = 16 * batch.length) ∧
    (nextOf (exec .bitstream s)).map (·.errLast) = some 0 := by
  refine ⟨by decide +kernel, ?_, by decide +kernel⟩
  intro batch b h
  have hb : b = batch.flatMap fun p => wordBitsMsb p.word := by
    injection (show EncAnswer.ok _ = EncAnswer.ok b from h) with h; exact h.symm
  subst hb
  induction batch with
  | nil => rfl
  | cons p ps ih => simp [wordBitsMsb] at ih ⊢; omega

theorem witness_BitstreamGeneratorIsPrivate : (nextOf (exec .bitstream (generatorAt 0 2))).isSome = true := by
  decide +kernel

/-- GWG_PULL at the boundary; a padded name that has no room; and a BITSTREAM whose growing result has none. -/
theorem witness_CapacityRefusalsExactly :
    refusalOf (exec (.gwgPull 3) { cramped with genValid := true }) = some .capacityExceeded ∧
    (nextOf (exec (.gwgPull 2) { cramped with genValid := true })).isSome = true ∧ base.platform.maxLen = none ∧
    refusalOf (exec .gwgInit { cramped with platform := { cramped.platform with maxLen := some 7 } }) =
      some .capacityExceeded ∧
    refusalOf (exec .bitstream { cramped with platform := { cramped.platform with maxLen := some 7 } }) =
      some .capacityExceeded ∧
    refusalOf (exec .bitstream { station with
      seconds := 0x3FA999999999999A, platform := { station.platform with maxLen := some 47 } }) =
      some .capacityExceeded ∧
    (nextOf (exec .bitstream { station with
      seconds := 0x3FA999999999999A, platform := { station.platform with maxLen := some 48 } })).isSome = true := by
  decide +kernel

theorem witness_InstancesShareNothing :
    stepInstance [base, { base with host := [.reset] }] (1 : Fin 2) = .next [base, base] := by rfl

end Sys2Proof.Tests
end

section
/-! Binary64 patterns and values convert back and forth (O44). -/

namespace Sys2Proof.Machine

/-- A pattern's number: the sign bit stands above the 63 bits of the magnitude. -/
theorem toNat_patternOf (neg : Bool) (mag : Nat) :
    (patternOf neg mag).toNat = neg.toNat * 2 ^ 63 + mag % 2 ^ 63 := by
  rw [patternOf, BitVec.toNat_append, BitVec.toNat_ofBool, BitVec.toNat_ofNat,
    ← Nat.shiftLeft_add_eq_or_of_lt (Nat.mod_lt _ (by decide)), Nat.shiftLeft_eq]

theorem msb_patternOf (neg : Bool) (mag : Nat) : (patternOf neg mag).msb = neg := by
  rw [BitVec.msb_eq_decide, toNat_patternOf]
  cases neg with
  | false => simpa using Nat.mod_lt mag (by decide)
  | true => simp

theorem magnitude_patternOf (neg : Bool) {mag : Nat} (h : mag < 2 ^ 63) :
    (patternOf neg mag).toNat % 2 ^ 63 = mag := by
  rw [toNat_patternOf]
  omega

/-- A pattern is its sign bit followed by its magnitude. -/
theorem patternOf_msb_magnitude (x : F64) : patternOf x.msb (x.toNat % 2 ^ 63) = x := by
  apply BitVec.eq_of_toNat_eq
  have hx := x.isLt
  rw [toNat_patternOf, BitVec.msb_eq_decide]
  by_cases h : 2 ^ 63 ≤ x.toNat
  · simp only [h, decide_true, Bool.toNat_true]; omega
  · simp only [h, decide_false, Bool.toNat_false]; omega

/-- The value of a pattern put together from a sign and a magnitude. -/
theorem valOf_patternOf (neg : Bool) {mag : Nat} (h : mag < 2 ^ 63) :
    valOf (patternOf neg mag) = Val.ofMag neg mag := by
  rw [valOf, msb_patternOf, magnitude_patternOf neg h]

theorem ofMag_infMag (neg : Bool) : Val.ofMag neg infMag = .inf neg := by simp [Val.ofMag]

theorem ofMag_eq_nan_iff (neg : Bool) (mag : Nat) : Val.ofMag neg mag = .nan ↔ infMag < mag := by
  unfold Val.ofMag
  split
  · next h => simp [h]
  · next h =>
    split
    · simp [h]
    · split <;> simp [h]

/-- A magnitude that is no NaN's is recovered from its value: the exponent and the fraction put it together again. -/
theorem pattern_ofMag (nb : NaNBits) (neg : Bool) {mag : Nat} (h : mag ≤ infMag) :
    (Val.ofMag neg mag).pattern nb = patternOf neg mag := by
  unfold Val.ofMag
  rw [if_neg (by omega)]
  split
  · next hinf => rw [hinf, Val.pattern]
  · split
    · simp [Val.pattern]
    · next hnormal =>
      have hmag : (mag / 2 ^ 52 - 1) * 2 ^ 52 + (2 ^ 52 + mag % 2 ^ 52) = mag := by omega
      rw [Val.pattern, hmag]

/-- R12: a pattern that is no NaN is recovered from its value. -/
theorem pattern_valOf (nb : NaNBits) {x : F64} (h : valOf x ≠ .nan) : (valOf x).pattern nb = x := by
  have hmag : x.toNat % 2 ^ 63 ≤ infMag := by
    simpa [valOf, ofMag_eq_nan_iff] using h
  rw [valOf, pattern_ofMag nb _ hmag, patternOf_msb_magnitude]

/-- R61: whatever sign and payload is published for a NaN, the pattern is a NaN. -/
theorem valOf_pattern_nan (nb : NaNBits) : valOf (Val.pattern nb .nan) = .nan := by
  have hfrac := nb.frac.isLt
  rw [Val.pattern, valOf_patternOf _ (by unfold infMag; omega), ofMag_eq_nan_iff]
  omega

end Sys2Proof.Machine

open Sys2Proof Sys2Proof.Machine

/-- Settles O44: a magnitude below a NaN's is put together again from its exponent and fraction, and a NaN's payload
always lies above the pattern of infinity. -/
theorem patternsRoundTrip : Obligations.PatternsRoundTrip :=
  fun _ nb => ⟨pattern_valOf nb, valOf_pattern_nan nb⟩

end

section
/-! RN64 on a non-negative fraction (O42): a magnitude pattern counts the finite values in order, and `roundMag` picks
one of the two neighbours of the fraction. -/

namespace Sys2Proof.Machine

/-! ### Magnitude patterns in order -/

/-- The number of units 2^−1074 that a magnitude pattern stands for, read on past the finite ones. -/
def magUnits (mag : Nat) : Nat :=
  if mag < 2 ^ 52 then mag else (2 ^ 52 + mag % 2 ^ 52) * 2 ^ (mag / 2 ^ 52 - 1)

/-- What ties `magUnits` to the model's values. -/
theorem toRat_ofMag (neg : Bool) {mag : Nat} (h : mag < infMag) :
    (Val.ofMag neg mag).toRat = (signed neg (magUnits mag) : Rat) / unitScale := by
  unfold Val.ofMag magUnits
  rw [if_neg (by omega), if_neg (by omega)]
  split
  · simp [Val.toRat]
  · rfl

/-- A significand of up to 53 bits, full unless the exponent is the least, stands for its multiple of the unit in the
last place; the significand 2^53 carries into the exponent. -/
theorem magUnits_mul_add (sh q : Nat) (hq : q ≤ 2 ^ 53) (hfull : sh = 0 ∨ 2 ^ 52 ≤ q) :
    magUnits (sh * 2 ^ 52 + q) = q * 2 ^ sh := by
  unfold magUnits
  by_cases hsub : q < 2 ^ 52
  · obtain rfl : sh = 0 := by omega
    rw [if_pos (by omega)]
    omega
  · rw [if_neg (by omega)]
    by_cases hcarry : q = 2 ^ 53
    · have hfrac : (sh * 2 ^ 52 + q) % 2 ^ 52 = 0 := by omega
      have hexp : (sh * 2 ^ 52 + q) / 2 ^ 52 - 1 = sh + 1 := by omega
      rw [hfrac, hexp, hcarry, pow_succ]
      ring
    · have hfrac : (sh * 2 ^ 52 + q) % 2 ^ 52 = q - 2 ^ 52 := by omega
      have hexp : (sh * 2 ^ 52 + q) / 2 ^ 52 - 1 = sh := by omega
      rw [hfrac, hexp, Nat.add_sub_cancel' (by omega)]

theorem cast_magUnits_mul_add (sh q : Nat) (hq : q ≤ 2 ^ 53) (hfull : sh = 0 ∨ 2 ^ 52 ≤ q) :
    (magUnits (sh * 2 ^ 52 + q) : ℚ) = q * 2 ^ sh := by
  rw [magUnits_mul_add sh q hq hfull]
  push_cast
  rfl

/-- Every pattern has such a significand. -/
theorem exists_significand (mag : Nat) :
    ∃ sh q, mag = sh * 2 ^ 52 + q ∧ q < 2 ^ 53 ∧ (sh = 0 ∨ 2 ^ 52 ≤ q) := by
  by_cases h : mag < 2 ^ 52
  · exact ⟨0, mag, by omega, by omega, .inl rfl⟩
  · exact ⟨mag / 2 ^ 52 - 1, 2 ^ 52 + mag % 2 ^ 52, by omega, by omega, .inr (by omega)⟩

/-- A greater magnitude pattern stands for a greater value. -/
theorem magUnits_strictMono : StrictMono magUnits := by
  apply strictMono_nat_of_lt_succ
  intro mag
  obtain ⟨sh, q, rfl, hq, hfull⟩ := exists_significand mag
  rw [magUnits_mul_add sh q (by omega) hfull, Nat.add_assoc, magUnits_mul_add sh (q + 1) (by omega) (by omega)]
  exact Nat.mul_lt_mul_of_pos_right (Nat.lt_succ_self q) (by positivity)

theorem cast_magUnits_lt {k m : Nat} (h : k < m) : (magUnits k : ℚ) < magUnits m := by
  exact_mod_cast magUnits_strictMono h

theorem cast_magUnits_le {k m : Nat} (h : k ≤ m) : (magUnits k : ℚ) ≤ magUnits m := by
  exact_mod_cast magUnits_strictMono.monotone h

/-! ### The two neighbours of a value -/

/-- `p` is the one of the neighbouring patterns `n` and `n + 1` of `X` units that is nearer, or even of two equally
near. -/
structure RoundsBetween (X : ℚ) (n p : Nat) : Prop where
  lower : (magUnits n : ℚ) ≤ X
  upper : X < magUnits (n + 1)
  choice : (p = n ∧ (2 * X < magUnits n + magUnits (n + 1) ∨
      2 * X = magUnits n + magUnits (n + 1) ∧ n % 2 = 0)) ∨
    (p = n + 1 ∧ ((magUnits n + magUnits (n + 1) : ℚ) < 2 * X ∨
      2 * X = magUnits n + magUnits (n + 1) ∧ n % 2 = 1))

/-- No other pattern is nearer than the rounded one, and it is even where another is equally near. -/
theorem RoundsBetween.nearest {X : ℚ} {n p : Nat} (h : RoundsBetween X n p) {mag : Nat} (hne : mag ≠ p) :
    |(magUnits p : ℚ) - X| < |(magUnits mag : ℚ) - X| ∨
      |(magUnits p : ℚ) - X| = |(magUnits mag : ℚ) - X| ∧ p % 2 = 0 := by
  obtain ⟨hlower, hupper, hchoice⟩ := h
  rcases hchoice with ⟨rfl, hnear⟩ | ⟨rfl, hnear⟩
  · rw [abs_of_nonpos (sub_nonpos.2 hlower)]
    rcases Nat.lt_or_gt_of_ne hne with hm | hm
    · have hfar := cast_magUnits_lt hm
      rw [abs_of_nonpos (by linarith)]
      exact .inl (by linarith)
    · have hfar := cast_magUnits_le (Nat.succ_le_of_lt hm)
      rw [abs_of_nonneg (by linarith)]
      rcases hnear with hlt | ⟨htie, heven⟩
      · exact .inl (by linarith)
      · rcases hfar.lt_or_eq with hlt | heq
        · exact .inl (by linarith)
        · exact .inr ⟨by linarith, heven⟩
  · rw [abs_of_pos (sub_pos.2 hupper)]
    rcases Nat.lt_or_gt_of_ne hne with hm | hm
    · have hfar := cast_magUnits_le (Nat.le_of_lt_succ hm)
      rw [abs_of_nonpos (by linarith)]
      rcases hnear with hlt | ⟨htie, hodd⟩
      · exact .inl (by linarith)
      · rcases hfar.lt_or_eq with hlt | heq
        · exact .inl (by linarith)
        · exact .inr ⟨by linarith, by omega⟩
    · have hfar := cast_magUnits_lt hm
      rw [abs_of_pos (by linarith)]
      exact .inl (by linarith)

/-- The rounded pattern lies above an odd pattern `k` exactly from halfway between `k` and `k + 1` on. -/
theorem RoundsBetween.lt_iff {X : ℚ} {n p : Nat} (h : RoundsBetween X n p) {k : Nat} (hk : k % 2 = 1) :
    k < p ↔ (magUnits k + magUnits (k + 1) : ℚ) ≤ 2 * X := by
  obtain ⟨hlower, hupper, hchoice⟩ := h
  have hstep := cast_magUnits_lt (Nat.lt_succ_self k)
  rcases Nat.lt_trichotomy n k with hnk | rfl | hkn
  · have hhi := cast_magUnits_le (Nat.succ_le_of_lt hnk)
    exact ⟨fun hkp => by omega, fun hX => by linarith⟩
  · rcases hchoice with ⟨rfl, hlt | ⟨-, heven⟩⟩ | ⟨rfl, hlt | ⟨htie, -⟩⟩
    · exact ⟨fun hkp => by omega, fun hX => by linarith⟩
    · omega
    · exact ⟨fun _ => hlt.le, fun _ => Nat.lt_succ_self _⟩
    · exact ⟨fun _ => htie.ge, fun _ => Nat.lt_succ_self _⟩
  · have hlo := cast_magUnits_le (Nat.succ_le_of_lt hkn)
    exact ⟨fun _ => by linarith, fun _ => by omega⟩

/-! ### What `roundMag` picks -/

/-- A quotient's leading 53 bits: fewer only where no exponent is taken off. -/
theorem leading_bits (t : Nat) :
    t / 2 ^ (t.log2 - 52) < 2 ^ 53 ∧ (t.log2 - 52 = 0 ∨ 2 ^ 52 ≤ t / 2 ^ (t.log2 - 52)) := by
  have hupper : t < 2 ^ (t.log2 + 1) := Nat.lt_log2_self
  by_cases hsmall : t.log2 ≤ 52
  · rw [Nat.sub_eq_zero_of_le hsmall, pow_zero, Nat.div_one]
    exact ⟨hupper.trans_le (Nat.pow_le_pow_right (by decide) (by omega)), .inl rfl⟩
  · have ht : t ≠ 0 := by rintro rfl; simp at hsmall
    have hlower : 2 ^ t.log2 ≤ t := Nat.log2_self_le ht
    refine ⟨Nat.div_lt_of_lt_mul ?_, .inr ((Nat.le_div_iff_mul_le (by positivity)).2 ?_)⟩
    · rwa [← pow_add, show t.log2 - 52 + 53 = t.log2 + 1 by omega]
    · rwa [← pow_add, show 52 + (t.log2 - 52) = t.log2 by omega]

/-- A quotient of up to 53 bits is rounded up from a remainder of more than half the divisor, or of half of it where the
quotient is odd. -/
theorem roundsBetween_quotient {X : ℚ} {sh q r ulp : Nat} (hr : r < ulp) (hX : X = (q + r / ulp) * 2 ^ sh)
    (hq : q < 2 ^ 53) (hfull : sh = 0 ∨ 2 ^ 52 ≤ q) :
    RoundsBetween X (sh * 2 ^ 52 + q)
      (sh * 2 ^ 52 + if ulp < 2 * r ∨ (ulp = 2 * r ∧ q % 2 = 1) then q + 1 else q) := by
  have hlo := cast_magUnits_mul_add sh q hq.le hfull
  have hhi : (magUnits (sh * 2 ^ 52 + q + 1) : ℚ) = (q + 1) * 2 ^ sh := by
    rw [Nat.add_assoc, cast_magUnits_mul_add sh (q + 1) hq (by omega), Nat.cast_succ]
  have hulp : (0 : ℚ) < ulp := by exact_mod_cast Nat.zero_lt_of_lt hr
  have hmid : 2 * X - (magUnits (sh * 2 ^ 52 + q) + magUnits (sh * 2 ^ 52 + q + 1)) =
      (2 * r - ulp) * (2 ^ sh / ulp) := by
    rw [hX, hlo, hhi]
    field_simp
    ring
  have hscale : (0 : ℚ) < 2 ^ sh / ulp := by positivity
  refine ⟨?_, ?_, ?_⟩
  · have hfrac : (0 : ℚ) ≤ r / ulp := by positivity
    rw [hlo, hX]
    gcongr
    linarith
  · have hfrac : (r : ℚ) / ulp < 1 := by rw [div_lt_one hulp]; exact_mod_cast hr
    rw [hhi, hX]
    gcongr
  · rcases Nat.lt_trichotomy (2 * r) ulp with hlt | heq | hgt
    · have hbelow : (2 * r - ulp : ℚ) < 0 := sub_neg.2 (by exact_mod_cast hlt)
      have hnear := hmid.trans_lt (mul_neg_of_neg_of_pos hbelow hscale)
      rw [if_neg (by omega)]
      exact .inl ⟨rfl, .inl (sub_neg.1 hnear)⟩
    · have hhalf : (2 * r - ulp : ℚ) = 0 := sub_eq_zero.2 (by exact_mod_cast heq)
      rw [hhalf, zero_mul] at hmid
      have htie := sub_eq_zero.1 hmid
      by_cases hodd : q % 2 = 1
      · rw [if_pos (.inr ⟨heq.symm, hodd⟩)]
        exact .inr ⟨(Nat.add_assoc ..).symm, .inr ⟨htie, by omega⟩⟩
      · rw [if_neg (by omega)]
        exact .inl ⟨rfl, .inr ⟨htie, by omega⟩⟩
    · have habove : (0 : ℚ) < 2 * r - ulp := sub_pos.2 (by exact_mod_cast hgt)
      have hnear := (mul_pos habove hscale).trans_eq hmid.symm
      rw [if_pos (.inl hgt)]
      exact .inr ⟨(Nat.add_assoc ..).symm, .inl (sub_pos.1 hnear)⟩

theorem unitScale_pos : 0 < unitScale := by
  unfold unitScale
  positivity

theorem cast_unitScale_pos : (0 : ℚ) < unitScale := by exact_mod_cast unitScale_pos

/-- The exponent is made a variable first, so that no tactic computes the power. -/
theorem cast_unitScale : (unitScale : ℚ) = 2 ^ 1074 := by
  unfold unitScale
  generalize 1074 = n
  norm_cast

/-- `roundMag` rounds to one of the fraction's neighbours, up to infinity. -/
theorem roundMag_roundsBetween (num : Nat) {den : Nat} (hden : 0 < den) :
    ∃ n p, roundMag num den = min p infMag ∧ RoundsBetween ((num : ℚ) / den * unitScale) n p := by
  obtain ⟨hq, hfull⟩ := leading_bits (num * unitScale / den)
  rw [Nat.div_div_eq_div_mul] at hq hfull
  refine ⟨_, _, rfl, roundsBetween_quotient (Nat.mod_lt _ (by positivity)) ?_ hq hfull⟩
  have hdivmod := Nat.div_add_mod (num * unitScale) (den * 2 ^ ((num * unitScale / den).log2 - 52))
  generalize (num * unitScale / den).log2 - 52 = sh at hdivmod ⊢
  generalize num * unitScale / (den * 2 ^ sh) = q at hdivmod ⊢
  generalize num * unitScale % (den * 2 ^ sh) = r at hdivmod ⊢
  have hcast : (den * 2 ^ sh * q + r : ℚ) = num * unitScale := by exact_mod_cast hdivmod
  have hdenq : (den : ℚ) ≠ 0 := by positivity
  push_cast
  field_simp
  linarith

/-- The distance of a magnitude's value from a rational, in units. -/
theorem abs_toRat_ofMag_sub {mag : Nat} (h : mag < infMag) (q : ℚ) :
    |(Val.ofMag false mag).toRat - q| = |(magUnits mag : ℚ) - q * unitScale| / unitScale := by
  have hU := cast_unitScale_pos
  rw [toRat_ofMag false h, ← abs_of_pos hU, ← abs_div, abs_of_pos hU, sub_div, mul_div_cancel_right₀ _ hU.ne']
  simp [signed]

/-- The values of a full significand and of the next pattern, which carries into the exponent. -/
theorem magUnits_add_carry (sh : Nat) :
    (magUnits (sh * 2 ^ 52 + (2 ^ 53 - 1)) + magUnits (sh * 2 ^ 52 + 2 ^ 53) : ℚ) = (2 ^ 54 - 1) * 2 ^ sh := by
  rw [cast_magUnits_mul_add sh (2 ^ 53 - 1) (by decide) (.inr (by decide)),
    cast_magUnits_mul_add sh (2 ^ 53) le_rfl (.inr (by decide))]
  push_cast
  ring

/-- Half a unit beyond the largest finite value is halfway between its pattern and infinity's. -/
theorem magUnits_overflow_midpoint :
    (magUnits (infMag - 1) + magUnits (infMag - 1 + 1) : ℚ) = 2 * ((2 ^ 54 - 1) * 2 ^ 970 * unitScale) := by
  have hlargest : infMag - 1 = 2045 * 2 ^ 52 + (2 ^ 53 - 1) := by decide
  have hinf : infMag - 1 + 1 = 2045 * 2 ^ 52 + 2 ^ 53 := by decide
  have hexp : (2 : ℚ) ^ 2045 = 2 * (2 ^ 970 * 2 ^ 1074) := by
    rw [show 2045 = 970 + 1074 + 1 from rfl, pow_succ', pow_add]
  rw [hinf, hlargest, magUnits_add_carry, cast_unitScale, hexp, mul_left_comm, mul_assoc (2 ^ 54 - 1 : ℚ)]

/-- A fraction is rounded to infinity exactly from half a unit beyond the largest finite value on. -/
theorem roundMag_eq_infMag_iff (num : Nat) {den : Nat} (hden : 0 < den) :
    roundMag num den = infMag ↔ ((2 ^ 54 - 1) * 2 ^ 970 : ℚ) ≤ (num : ℚ) / den := by
  obtain ⟨n, p, hround, hbetween⟩ := roundMag_roundsBetween num hden
  have hoverflow := hbetween.lt_iff (k := infMag - 1) (by decide)
  rw [magUnits_overflow_midpoint, mul_le_mul_iff_right₀ two_pos, mul_le_mul_iff_left₀ cast_unitScale_pos] at hoverflow
  rw [← hoverflow, hround]
  unfold infMag
  omega

/-- No other finite magnitude is nearer than the rounded one, and it is even where another is equally near. -/
theorem roundMag_nearest {num den : Nat} (hden : 0 < den) (hfin : roundMag num den < infMag)
    {mag : Nat} (hmag : mag < infMag) (hne : mag ≠ roundMag num den) :
    |(Val.ofMag false (roundMag num den)).toRat - (num : ℚ) / den| < |(Val.ofMag false mag).toRat - (num : ℚ) / den| ∨
    (|(Val.ofMag false (roundMag num den)).toRat - (num : ℚ) / den| =
      |(Val.ofMag false mag).toRat - (num : ℚ) / den| ∧ roundMag num den % 2 = 0) := by
  obtain ⟨n, p, hround, hbetween⟩ := roundMag_roundsBetween num hden
  obtain rfl : roundMag num den = p := by omega
  rw [abs_toRat_ofMag_sub hfin, abs_toRat_ofMag_sub hmag, div_lt_div_iff_of_pos_right cast_unitScale_pos,
    div_left_inj' cast_unitScale_pos.ne']
  exact hbetween.nearest hne

end Sys2Proof.Machine

open Sys2Proof Sys2Proof.Machine

/-- Settles O42: `roundMag` picks one of the two patterns around the fraction, and infinity's is picked from the midpoint
of the odd pattern below it on. -/
theorem roundingIsNearestTiesToEven : Obligations.RoundingIsNearestTiesToEven :=
  fun num _ hden => ⟨fun hfin _ hmag hne => roundMag_nearest hden hfin hmag hne, roundMag_eq_infMag_iff num hden⟩

end

section
/-! The operations on finite operands round the exact result once (O43). -/

namespace Sys2Proof.Machine

/-! ### The exact value of a finite operand -/

theorem abs_signed (neg : Bool) (m : Nat) : |signed neg m| = m := by
  cases neg <;> simp [signed]

theorem signed_neg_iff (neg : Bool) (m : Nat) : signed neg m < 0 ↔ neg = true ∧ m ≠ 0 := by
  cases neg <;> simp [signed, Nat.pos_iff_ne_zero]

theorem abs_toRat_fin (neg : Bool) (mant exp : Nat) :
    |(Val.fin neg mant exp).toRat| = (mant * 2 ^ exp : Nat) / (unitScale : ℚ) := by
  rw [Val.toRat, abs_div, ← Int.cast_abs, abs_signed, Nat.abs_cast, Int.cast_natCast]

@[simp] theorem toRat_fin_eq_zero_iff (neg : Bool) (mant exp : Nat) :
    (Val.fin neg mant exp).toRat = 0 ↔ mant = 0 := by
  rw [← abs_eq_zero, abs_toRat_fin, div_eq_zero_iff, or_iff_left cast_unitScale_pos.ne']
  simp

theorem toRat_fin_neg_iff (neg : Bool) {mant : Nat} (exp : Nat) (hmant : mant ≠ 0) :
    (Val.fin neg mant exp).toRat < 0 ↔ neg = true := by
  rw [Val.toRat, div_lt_iff₀ cast_unitScale_pos, zero_mul, Int.cast_lt_zero, signed_neg_iff]
  simp [hmant]

theorem toRat_fin_pos_iff (neg : Bool) {mant : Nat} (exp : Nat) (hmant : mant ≠ 0) :
    0 < (Val.fin neg mant exp).toRat ↔ neg = false := by
  rw [← not_le, le_iff_lt_or_eq, toRat_fin_neg_iff neg exp hmant, toRat_fin_eq_zero_iff, or_iff_left hmant,
    Bool.not_eq_true]

/-! ### Rounding depends on the rational alone -/

/-- A fraction that is not in lowest terms rounds as its reduction does. -/
theorem roundMag_mul_left {k : Nat} (hk : 0 < k) (num den : Nat) :
    roundMag (k * num) (k * den) = roundMag num den := by
  have hcmp (u r : Nat) : (k * u < 2 * (k * r)) = (u < 2 * r) := by
    rw [Nat.mul_left_comm, Nat.mul_lt_mul_left hk]
  have htie (u r : Nat) : (k * u = 2 * (k * r)) = (u = 2 * r) := by
    rw [Nat.mul_left_comm, Nat.mul_right_inj hk.ne']
  simp only [roundMag, Nat.mul_assoc, Nat.mul_div_mul_left _ _ hk, Nat.mul_mod_mul_left, hcmp, htie]

/-- Equal fractions round alike. -/
theorem roundMag_congr {num den num' den' : Nat} (hden : 0 < den) (hden' : 0 < den')
    (h : num * den' = num' * den) : roundMag num den = roundMag num' den' :=
  calc roundMag num den
      = roundMag (den' * num) (den' * den) := (roundMag_mul_left hden' num den).symm
    _ = roundMag (den * num') (den * den') := by rw [Nat.mul_comm den', h, Nat.mul_comm num', Nat.mul_comm den']
    _ = roundMag num' den' := roundMag_mul_left hden num' den'

theorem abs_eq_natAbs_num_div_den (q : ℚ) : |q| = (q.num.natAbs : ℚ) / q.den := by
  rw [Rat.abs_def, Rat.divInt_eq_div]
  rfl

/-- `roundVal` on any fraction of the exact result and its sign is RN64 of that result. -/
theorem roundVal_eq_roundedRat {q : ℚ} {neg : Bool} {num den : Nat} (hden : 0 < den) (hneg : q < 0 ↔ neg = true)
    (habs : |q| = (num : ℚ) / den) : roundVal neg num den = roundedRat q := by
  have hcross : num * q.den = q.num.natAbs * den := by
    rw [abs_eq_natAbs_num_div_den, div_eq_div_iff (by positivity) (by positivity)] at habs
    exact_mod_cast habs.symm
  have hsign : neg = decide (q < 0) := by simp [hneg]
  rw [roundedRat, roundVal, roundVal, hsign, roundMag_congr hden q.den_pos hcross]

/-! ### What RN64 of a rational is -/

theorem isFin_ofMag_iff (neg : Bool) (mag : Nat) : (Val.ofMag neg mag).isFin = true ↔ mag < infMag := by
  unfold Val.ofMag
  split
  · simp [Val.isFin]; omega
  · split
    · simp [Val.isFin]; omega
    · split <;> simp [Val.isFin] <;> omega

theorem roundMag_le_infMag (num den : Nat) : roundMag num den ≤ infMag := Nat.min_le_right ..

/-- RN64 overflows exactly from half a unit beyond the largest finite value on. -/
theorem isFin_roundedRat_iff (q : ℚ) : (roundedRat q).isFin = true ↔ |q| < (2 ^ 54 - 1) * 2 ^ 970 := by
  rw [roundedRat, roundVal, isFin_ofMag_iff, (roundMag_le_infMag ..).lt_iff_ne, Ne,
    roundMag_eq_infMag_iff _ q.den_pos, ← abs_eq_natAbs_num_div_den, not_le]

theorem toRat_ofMag_true {mag : Nat} (h : mag < infMag) : (Val.ofMag true mag).toRat = -(Val.ofMag false mag).toRat := by
  rw [toRat_ofMag true h, toRat_ofMag false h, ← neg_div]
  simp [signed]

theorem abs_toRat_ofMag (neg : Bool) {mag : Nat} (h : mag < infMag) :
    |(Val.ofMag neg mag).toRat| = (Val.ofMag false mag).toRat := by
  rw [toRat_ofMag neg h, toRat_ofMag false h, abs_div, ← Int.cast_abs, abs_signed, Nat.abs_cast]
  rfl

/-- A magnitude under the sign of `q` is as far from `q` as the bare magnitude is from |q|. -/
theorem abs_toRat_ofMag_sign_sub {mag : Nat} (h : mag < infMag) (q : ℚ) :
    |(Val.ofMag (decide (q < 0)) mag).toRat - q| = |(Val.ofMag false mag).toRat - (|q|)| := by
  by_cases hq : q < 0
  · rw [decide_eq_true hq, toRat_ofMag_true h, abs_of_neg hq, ← abs_neg]
    ring_nf
  · rw [decide_eq_false hq, abs_of_nonneg (not_lt.1 hq)]

/-- No finite pattern's value is nearer to `q` than a finite RN64 of `q`. -/
theorem roundedRat_nearest {q : ℚ} (hfin : (roundedRat q).isFin = true) {w : F64} (hw : (valOf w).isFin = true) :
    |(roundedRat q).toRat - q| ≤ |(valOf w).toRat - q| := by
  rw [roundedRat, roundVal] at hfin ⊢
  rw [isFin_ofMag_iff] at hfin
  rw [valOf] at hw ⊢
  rw [isFin_ofMag_iff] at hw
  rw [abs_toRat_ofMag_sign_sub hfin]
  calc |(Val.ofMag false (roundMag q.num.natAbs q.den)).toRat - (|q|)|
      ≤ |(Val.ofMag false (w.toNat % 2 ^ 63)).toRat - (|q|)| := by
        by_cases hne : w.toNat % 2 ^ 63 = roundMag q.num.natAbs q.den
        · rw [hne]
        · rw [abs_eq_natAbs_num_div_den q]
          rcases roundMag_nearest q.den_pos hfin hw hne with hlt | ⟨heq, -⟩
          · exact hlt.le
          · exact heq.le
    _ = |(|(Val.ofMag w.msb (w.toNat % 2 ^ 63)).toRat|) - (|q|)| := by rw [abs_toRat_ofMag w.msb hw]
    _ ≤ |(Val.ofMag w.msb (w.toNat % 2 ^ 63)).toRat - q| := abs_abs_sub_abs_le ..

/-- `r` is finite exactly where `q` does not overflow, and then nearest to it among the finite values. -/
def RoundsTo (r : Val) (q : ℚ) : Prop :=
  (r.isFin = true ↔ |q| < (2 ^ 54 - 1) * 2 ^ 970) ∧
  (r.isFin = true → ∀ w : F64, (valOf w).isFin = true → |r.toRat - q| ≤ |(valOf w).toRat - q|)

/-- RN64 of a non-zero exact result, and a zero for an exact 0, rounds to that result. -/
theorem roundsTo_of_cases {r : Val} {q : ℚ} {neg : Bool} (hround : q ≠ 0 → r = roundedRat q)
    (hzero : q = 0 → r = .fin neg 0 0) : RoundsTo r q := by
  by_cases hq : q = 0
  · rw [hzero hq, hq]
    refine ⟨iff_of_true rfl (by norm_num), fun _ w _ => ?_⟩
    simp [(toRat_fin_eq_zero_iff neg 0 0).2 rfl]
  · rw [hround hq]
    exact ⟨isFin_roundedRat_iff q, fun hfin w hw => roundedRat_nearest hfin hw⟩

/-! ### The three operations on finite values -/

/-- Two finite values' exact sum is one of whole units. -/
theorem toRat_fin_add (n₁ n₂ : Bool) (m₁ e₁ m₂ e₂ : Nat) :
    (Val.fin n₁ m₁ e₁).toRat + (Val.fin n₂ m₂ e₂).toRat =
      (signed n₁ (m₁ * 2 ^ e₁) + signed n₂ (m₂ * 2 ^ e₂) : Int) / (unitScale : ℚ) := by
  rw [Val.toRat, Val.toRat, Int.cast_add, add_div]

theorem fadd_fin_eq_roundedRat {n₁ n₂ : Bool} {m₁ e₁ m₂ e₂ : Nat}
    (h : (Val.fin n₁ m₁ e₁).toRat + (Val.fin n₂ m₂ e₂).toRat ≠ 0) :
    fadd (.fin n₁ m₁ e₁) (.fin n₂ m₂ e₂) =
      roundedRat ((Val.fin n₁ m₁ e₁).toRat + (Val.fin n₂ m₂ e₂).toRat) := by
  have hterms : ¬ (m₁ = 0 ∧ m₂ = 0) := by
    rintro ⟨rfl, rfl⟩
    simp [(toRat_fin_eq_zero_iff ..).2] at h
  rw [toRat_fin_add] at h ⊢
  simp only [fadd, if_neg hterms]
  generalize signed n₁ (m₁ * 2 ^ e₁) + signed n₂ (m₂ * 2 ^ e₂) = sum at h ⊢
  have hsum : sum ≠ 0 := by rintro rfl; simp at h
  rw [if_neg hsum]
  refine roundVal_eq_roundedRat unitScale_pos ?_ ?_
  · rw [div_lt_iff₀ cast_unitScale_pos, zero_mul, Int.cast_lt_zero, decide_eq_true_iff]
  · rw [abs_div, Nat.abs_cast, ← Int.cast_abs, ← Nat.cast_natAbs]

/-- An exact zero sum is +0.0, or −0.0 from two negative zeros (R157). -/
theorem fadd_fin_of_add_eq_zero {n₁ n₂ : Bool} {m₁ e₁ m₂ e₂ : Nat}
    (h : (Val.fin n₁ m₁ e₁).toRat + (Val.fin n₂ m₂ e₂).toRat = 0) :
    fadd (.fin n₁ m₁ e₁) (.fin n₂ m₂ e₂) =
      .fin (decide ((n₁ = true ∧ m₁ = 0) ∧ n₂ = true ∧ m₂ = 0)) 0 0 := by
  rw [toRat_fin_add, div_eq_zero_iff, or_iff_left cast_unitScale_pos.ne', Int.cast_eq_zero] at h
  by_cases hterms : m₁ = 0 ∧ m₂ = 0
  · simp only [fadd, if_pos hterms]
    cases n₁ <;> cases n₂ <;> simp [hterms]
  · have hnot : ¬ ((n₁ = true ∧ m₁ = 0) ∧ n₂ = true ∧ m₂ = 0) := fun ⟨⟨_, h₁⟩, _, h₂⟩ => hterms ⟨h₁, h₂⟩
    simp only [fadd, if_neg hterms, if_pos h, decide_eq_false hnot]

/-- The sign of a product or quotient of non-zero values. -/
theorem mul_fin_neg_iff (n₁ n₂ : Bool) {m₁ m₂ : Nat} (e₁ e₂ : Nat) (h₁ : m₁ ≠ 0) (h₂ : m₂ ≠ 0) :
    (Val.fin n₁ m₁ e₁).toRat * (Val.fin n₂ m₂ e₂).toRat < 0 ↔ (n₁ ^^ n₂) = true := by
  rw [mul_neg_iff, toRat_fin_pos_iff n₁ e₁ h₁, toRat_fin_pos_iff n₂ e₂ h₂, toRat_fin_neg_iff n₁ e₁ h₁,
    toRat_fin_neg_iff n₂ e₂ h₂]
  cases n₁ <;> cases n₂ <;> decide

theorem fmul_fin_eq_roundedRat {n₁ n₂ : Bool} {m₁ e₁ m₂ e₂ : Nat}
    (h : (Val.fin n₁ m₁ e₁).toRat * (Val.fin n₂ m₂ e₂).toRat ≠ 0) :
    fmul (.fin n₁ m₁ e₁) (.fin n₂ m₂ e₂) =
      roundedRat ((Val.fin n₁ m₁ e₁).toRat * (Val.fin n₂ m₂ e₂).toRat) := by
  obtain ⟨h₁, h₂⟩ : m₁ ≠ 0 ∧ m₂ ≠ 0 := by simpa [not_or] using h
  rw [fmul, if_neg (not_or.2 ⟨h₁, h₂⟩)]
  refine roundVal_eq_roundedRat (Nat.mul_pos unitScale_pos unitScale_pos) (mul_fin_neg_iff _ _ _ _ h₁ h₂) ?_
  rw [abs_mul, abs_toRat_fin, abs_toRat_fin, div_mul_div_comm, pow_add]
  push_cast
  ring

theorem fmul_fin_of_mul_eq_zero {n₁ n₂ : Bool} {m₁ e₁ m₂ e₂ : Nat}
    (h : (Val.fin n₁ m₁ e₁).toRat * (Val.fin n₂ m₂ e₂).toRat = 0) :
    fmul (.fin n₁ m₁ e₁) (.fin n₂ m₂ e₂) = .fin (n₁ ^^ n₂) 0 0 := by
  have hfactors : m₁ = 0 ∨ m₂ = 0 := by simpa using h
  rw [fmul, if_pos hfactors]

theorem fdiv_fin_eq_roundedRat {n₁ n₂ : Bool} {m₁ e₁ m₂ e₂ : Nat}
    (h : (Val.fin n₁ m₁ e₁).toRat / (Val.fin n₂ m₂ e₂).toRat ≠ 0) :
    fdiv (.fin n₁ m₁ e₁) (.fin n₂ m₂ e₂) =
      roundedRat ((Val.fin n₁ m₁ e₁).toRat / (Val.fin n₂ m₂ e₂).toRat) := by
  obtain ⟨h₁, h₂⟩ : m₁ ≠ 0 ∧ m₂ ≠ 0 := by simpa [not_or] using h
  rw [fdiv, if_neg h₂, if_neg h₁]
  refine roundVal_eq_roundedRat (by positivity) ?_ ?_
  · rw [← mul_fin_neg_iff n₁ n₂ e₁ e₂ h₁ h₂, div_neg_iff, mul_neg_iff]
  · rw [abs_div, abs_toRat_fin, abs_toRat_fin, div_div_div_cancel_right₀ cast_unitScale_pos.ne']

theorem fdiv_fin_of_div_eq_zero {n₁ n₂ : Bool} {m₁ e₁ m₂ e₂ : Nat} (hdivisor : (Val.fin n₂ m₂ e₂).toRat ≠ 0)
    (h : (Val.fin n₁ m₁ e₁).toRat / (Val.fin n₂ m₂ e₂).toRat = 0) :
    fdiv (.fin n₁ m₁ e₁) (.fin n₂ m₂ e₂) = .fin (n₁ ^^ n₂) 0 0 := by
  have h₂ : m₂ ≠ 0 := by simpa using hdivisor
  have h₁ : m₁ = 0 := by simpa [h₂] using h
  rw [fdiv, if_neg h₂, if_pos h₁]

/-! ### Finite patterns -/

theorem neg_eq_of_ofMag_eq_fin {neg n : Bool} {mag m e : Nat} (h : Val.ofMag neg mag = .fin n m e) : n = neg := by
  unfold Val.ofMag at h
  split at h
  · cases h
  · split at h
    · cases h
    · split at h <;> (cases h; rfl)

/-- The pattern of −0.0 is the one whose value has the sign set and the significand 0. -/
theorem eq_negZero_iff {x : F64} {n : Bool} {m e : Nat} (hx : valOf x = .fin n m e) :
    x = 0x8000000000000000#64 ↔ n = true ∧ m = 0 := by
  constructor
  · rintro rfl
    have : valOf 0x8000000000000000#64 = .fin true 0 0 := by decide
    rw [hx] at this
    injection this with hn hm
    exact ⟨hn, hm⟩
  · rintro ⟨rfl, rfl⟩
    have hcanonical := valOf_canonical x
    rw [hx] at hcanonical
    obtain rfl : e = 0 := by obtain ⟨-, -, he⟩ := hcanonical; omega
    have hpattern := pattern_valOf ⟨false, 0⟩ (x := x) (by rw [hx]; nofun)
    rw [← hpattern, hx]
    rfl

/-- A finite pattern's value, under the pattern's sign bit. -/
theorem exists_valOf_eq_fin {x : F64} (h : (valOf x).isFin = true) : ∃ m e, valOf x = .fin x.msb m e := by
  cases hx : valOf x with
  | nan => rw [hx] at h; cases h
  | inf n => rw [hx] at h; cases h
  | fin n m e => exact ⟨m, e, by rw [neg_eq_of_ofMag_eq_fin hx]⟩

theorem valOf_signedZero (neg : Bool) :
    valOf (if neg then 0x8000000000000000#64 else 0x0000000000000000#64) = .fin neg 0 0 := by
  cases neg <;> decide

end Sys2Proof.Machine

open Sys2Proof Sys2Proof.Machine

/-- Settles O43: on finite operands each operation answers a zero of the right sign or rounds a fraction equal to the
exact result, and RN64 of a fraction depends on the rational alone. -/
theorem floatOpsRoundTheExactResult : Obligations.FloatOpsRoundTheExactResult := by
  intro x y hx hy
  obtain ⟨m₁, e₁, hvx⟩ := exists_valOf_eq_fin hx
  obtain ⟨m₂, e₂, hvy⟩ := exists_valOf_eq_fin hy
  have hsumZero : valOf (if x = 0x8000000000000000#64 ∧ y = 0x8000000000000000#64 then 0x8000000000000000#64
      else 0x0000000000000000#64) = .fin (decide ((x.msb = true ∧ m₁ = 0) ∧ y.msb = true ∧ m₂ = 0)) 0 0 := by
    rw [← valOf_signedZero]
    simp only [eq_negZero_iff hvx, eq_negZero_iff hvy, decide_eq_true_iff]
  rw [hvx, hvy, hsumZero]
  intro a b signedZero roundsTo
  rw [show valOf signedZero = _ from valOf_signedZero (x.msb ^^ y.msb)]
  refine ⟨fadd_fin_eq_roundedRat, fadd_fin_of_add_eq_zero,
    roundsTo_of_cases fadd_fin_eq_roundedRat fadd_fin_of_add_eq_zero, fmul_fin_eq_roundedRat, fmul_fin_of_mul_eq_zero,
    roundsTo_of_cases fmul_fin_eq_roundedRat fmul_fin_of_mul_eq_zero, fun hb => ?_⟩
  exact ⟨fun ha => fdiv_fin_eq_roundedRat (div_ne_zero ha hb),
    fun ha => fdiv_fin_of_div_eq_zero hb (div_eq_zero_iff.2 (.inl ha)),
    roundsTo_of_cases fdiv_fin_eq_roundedRat (fdiv_fin_of_div_eq_zero hb)⟩

end

section
/-! What a command that goes on can do (R43, R203), told apart by kind of result: the commands' frames (O25). -/

namespace Sys2Proof.Machine

/-! ### BIPHASE draws no NaN -/

theorem exists_eq_fin_of_isFin {v : Val} (h : v.isFin = true) : ∃ neg mant exp, v = .fin neg mant exp := by
  cases v with
  | nan => cases h
  | inf n => cases h
  | fin n m e => exact ⟨n, m, e, rfl⟩

theorem ne_nan_of_isFin {v : Val} (h : v.isFin = true) : v ≠ .nan := by
  rintro rfl
  cases h

/-- A product of finite values overflows at most to an infinity. -/
theorem fmul_ne_nan_of_isFin {x y : Val} (hx : x.isFin = true) (hy : y.isFin = true) : fmul x y ≠ .nan := by
  obtain ⟨n₁, m₁, e₁, rfl⟩ := exists_eq_fin_of_isFin hx
  obtain ⟨n₂, m₂, e₂, rfl⟩ := exists_eq_fin_of_isFin hy
  simp only [fmul]
  split
  · nofun
  · rw [roundVal, Ne, ofMag_eq_nan_iff]
    exact (roundMag_le_infMag ..).not_gt

theorem isFin_of_mem_prototype {spb : Nat} {v : Val} (h : v ∈ prototype spb) : v.isFin = true := by
  rcases List.mem_or_eq_of_mem_set h with h | rfl
  · rcases List.mem_or_eq_of_mem_set h with h | rfl
    · rw [List.eq_of_mem_replicate h]; decide
    · decide
  · decide

/-- R159: a symbol's samples are those of the prototype, as they are or times −1.0. -/
theorem ne_nan_of_mem_impulses {spb : Nat} {bs : List Bit} {v : Val} (h : v ∈ impulses spb bs) : v ≠ .nan := by
  obtain ⟨b, -, hv⟩ := List.mem_flatMap.1 h
  unfold symbolOf at hv
  split at hv
  · exact ne_nan_of_isFin (isFin_of_mem_prototype hv)
  · obtain ⟨p, hp, rfl⟩ := List.mem_map.1 hv
    exact fmul_ne_nan_of_isFin (isFin_of_mem_prototype hp) (by decide)

/-! ### The outcomes of a command -/

/-- What a successful command makes of the state it ran in, by the kind of its result; each result has room (R72). -/
inductive SucceedsTo (s : State) : Instr → State → Prop
  | fresh (pi : Half) (ps : Vector Byte 8) :
      SucceedsTo s .gwgInit (succeed .none { s with genValid := true, gen := freshGenerator pi ps })
  | pulled {i : Instr} (hkind : pullsWords i) (hvalid : s.genValid = true)
      (hroom : fits s.platform.maxLen (pairsEmitted i) = true) :
      SucceedsTo s i
        (succeed (.words (pull (pairsEmitted i) s.gen).1) { s with gen := (pull (pairsEmitted i) s.gen).2 })
  | bits {i : Instr} {bs : List Bit} (hkind : i ∈ [.diffEnc, .bitstream])
      (hroom : fits s.platform.maxLen bs.length = true) : SucceedsTo s i (succeed (.bits bs) s)
  | samples {i : Instr} {vs : List Val} (hkind : i ∈ [.biphase, .shape, .unmod])
      (hroom : fits s.platform.maxLen vs.length = true) (hnan : i = .biphase → ∀ v ∈ vs, v ≠ .nan) :
      SucceedsTo s i (succeedSamples vs s)

theorem succeedsTo_of_execBitstream {s t : State} (h : execBitstream s = .next t) :
    (∃ e, t = abort e s) ∨ SucceedsTo s .bitstream t := by
  rw [execBitstream_eq] at h
  split at h
  · cases h
  · split at h
    · cases h
    · rcases settle_next_iff.1 h with h | ⟨e, -, ht⟩
      · cases hv : nameOperands s.platform.maxLen s.piIn s.psIn with
        | error a => simp [hv] at h
        | ok v =>
          cases hn : pairCount s.seconds with
          | error a => simp [hv, hn] at h
          | ok n =>
            cases hb : encodeBatches s.platform n n (freshGenerator v.1 v.2) [] with
            | error a => simp [hv, hn, hb] at h
            | ok acc =>
              simp only [hv, hn, hb, bind_ok, Except.ok.injEq] at h
              exact .inr (h ▸ .bits (by simp) (encodeBatches_fits (fits_zero _) hb))
      · exact .inl ⟨e, ht⟩

/-- What any command can do when it goes on: fail, or succeed with a result of its kind. -/
theorem exec_aborts_or_succeeds {i : Instr} {s t : State} (h : exec i s = .next t) :
    (∃ e, t = abort e s) ∨ SucceedsTo s i t := by
  cases i with
  | gwgInit =>
    simp only [exec, execGwgInit_eq] at h
    split at h
    · cases h; exact .inr (.fresh ..)
    · cases h; exact .inl ⟨_, rfl⟩
    · cases h
    · cases h
  | gwgNext =>
    simp only [exec, execGwgNext_eq] at h
    split at h
    · split at h
      · cases h; exact .inr (.pulled (.inl rfl) ‹_› ‹_›)
      · cases h
    · cases h; exact .inl ⟨_, rfl⟩
  | gwgPull n =>
    simp only [exec, execGwgPull_eq] at h
    split at h
    · split at h
      · cases h; exact .inr (.pulled (.inr ⟨n, rfl⟩) ‹_› ‹_›)
      · cases h
    · cases h; exact .inl ⟨_, rfl⟩
  | diffEnc =>
    simp only [exec, execDiffEnc_eq] at h
    split at h
    · cases h; exact .inr (.bits (by simp) (by simpa))
    · cases h
  | biphase =>
    simp only [exec, execBiphase_eq] at h
    split at h
    · split at h
      · cases h; exact .inl ⟨_, rfl⟩
      · split at h
        · next hroom =>
          cases h; exact .inr (.samples (by simp) (by simpa using hroom.2) fun _ _ => ne_nan_of_mem_impulses)
        · cases h
    · cases h
  | shape =>
    simp only [exec, execShape_eq] at h
    split at h
    · split at h
      · cases h; exact .inl ⟨_, rfl⟩
      · split at h
        · next hroom => cases h; exact .inr (.samples (by simp) (by simpa [impulseOperand] using hroom.2) nofun)
        · cases h
    · cases h
  | unmod =>
    simp only [exec, execUnmod_eq] at h
    split at h
    · split at h
      · cases h; exact .inl ⟨_, rfl⟩
      · split at h
        · split at h
          · cases h; exact .inl ⟨_, rfl⟩
          · split at h
            · next hroom => cases h; exact .inr (.samples (by simp) (by simpa using hroom.2) nofun)
            · cases h
        · cases h
    · cases h
  | bitstream => exact succeedsTo_of_execBitstream h

theorem SucceedsTo.errLast {s t : State} {i : Instr} (h : SucceedsTo s i t) : t.errLast = 0 := by cases h <;> rfl

theorem SucceedsTo.errSticky {s t : State} {i : Instr} (h : SucceedsTo s i t) : t.errSticky = s.errSticky := by
  cases h <;> rfl

theorem SucceedsTo.errInfo {s t : State} {i : Instr} (h : SucceedsTo s i t) : t.errInfo = none := by cases h <;> rfl

/-! ### The frames of R43 -/

/-- The code 0 of success is no error's. -/
theorem codeWord_ne_zero (e : Err) : e.codeWord ≠ 0 := by
  cases e <;> simp [Err.codeWord, Err.code]

theorem abort_sameButResult (e : Err) (s : State) : SameButResult s (abort e s) := rfl

/-- Only the generator's commands change more than the result, the status and the NaN count. -/
theorem SucceedsTo.sameButResult {s t : State} {i : Instr} (h : SucceedsTo s i t)
    (hi : i ∈ [.diffEnc, .biphase, .shape, .unmod, .bitstream]) : SameButResult s t := by
  cases h with
  | fresh pi ps => simp at hi
  | pulled hkind => rcases hkind with rfl | ⟨n, rfl⟩ <;> simp at hi
  | bits => rfl
  | samples => rfl

/-- Pulling moves the cursor, and only GWG_INIT constructs a generator. -/
theorem SucceedsTo.slot {s t : State} {i : Instr} (h : SucceedsTo s i t) (hi : i ≠ .gwgInit) :
    t.genValid = s.genValid ∧ t.gen.pi = s.gen.pi ∧ t.gen.ps = s.gen.ps := by
  cases h with
  | fresh pi ps => exact absurd rfl hi
  | pulled => simp
  | bits => simp
  | samples => simp

theorem SucceedsTo.nanCount {s t : State} {i : Instr} (h : SucceedsTo s i t) (hi : i ∉ [.shape, .unmod]) :
    t.nanCount = s.nanCount := by
  cases h with
  | fresh pi ps => rfl
  | pulled => rfl
  | bits => rfl
  | samples hkind _ hnan =>
    have hbiphase : i = .biphase := by simp at hkind hi; tauto
    exact publish_count_of_no_nan _ _ _ (hnan hbiphase)

theorem exec_keeps_inputs {i : Instr} {s t : State} (h : exec i s = .next t) :
    t.piIn = s.piIn ∧ t.psIn = s.psIn ∧ t.bitsIn = s.bitsIn ∧ t.impIn = s.impIn ∧ t.spb = s.spb ∧
      t.sampleRate = s.sampleRate ∧ t.seconds = s.seconds ∧ t.cmd = s.cmd ∧ t.platform = s.platform ∧
      t.host = s.host ∧ t.readData = s.readData := by
  rcases exec_next_cases h with ⟨e, rfl⟩ | ⟨out, valid, g, n, rfl⟩ <;> simp

end Sys2Proof.Machine

open Sys2Proof Sys2Proof.Machine

/-- Settles O25: a command that goes on fails, which touches the result and the status alone, or succeeds with a result
of its kind, and each kind has its frame. -/
theorem commandFrame : Obligations.CommandFrame := by
  intro i s t h
  refine ⟨exec_keeps_inputs h, ?_⟩
  rcases exec_aborts_or_succeeds h with ⟨e, rfl⟩ | hs
  · exact ⟨fun _ => ⟨rfl, rfl, rfl⟩, fun _ => abort_sameButResult e s, fun _ => rfl, fun _ => abort_sameButResult e s,
      fun h0 => absurd h0 (codeWord_ne_zero e)⟩
  · exact ⟨hs.slot, hs.sameButResult, hs.nanCount, fun h0 => absurd hs.errLast h0, fun _ => ⟨hs.errSticky, hs.errInfo⟩⟩

end

section
/-! What one step can do, access by access, and the invariant every step keeps (O14). -/

namespace Sys2Proof.Machine

/-! ### Writes to the RW registers -/

/-- What a host write of a value of the register's type makes of the state, where a sequence has room (R23, R72). -/
inductive StoresTo (s : State) : Reg → HostValue → State → Prop
  | piIn (w : Word) : StoresTo s .piIn (.word w) { s with piIn := w }
  | spb (w : Word) : StoresTo s .spb (.word w) { s with spb := w }
  | sampleRate (w : Word) : StoresTo s .sampleRate (.word w) { s with sampleRate := w }
  | seconds (x : F64) : StoresTo s .seconds (.double x) { s with seconds := x }
  | psIn {bs : List Byte} (hroom : fits s.platform.maxLen bs.length = true) :
      StoresTo s .psIn (.bytes bs) { s with psIn := bs }
  | bitsIn {bs : List Bit} (hroom : fits s.platform.maxLen bs.length = true) :
      StoresTo s .bitsIn (.bits bs) { s with bitsIn := bs }
  | impIn {xs : List F64} (hroom : fits s.platform.maxLen xs.length = true) :
      StoresTo s .impIn (.doubles xs) { s with impIn := xs }

theorem storeSequence_of_fits {n : Nat} {s t : State} (h : fits s.platform.maxLen n = true) :
    storeSequence n s t = .next t := if_pos h

theorem StoresTo.writeReg {s t : State} {r : Reg} {v : HostValue} (h : StoresTo s r v t) :
    writeReg r v s = .next t := by
  cases h with
  | piIn w => rfl
  | spb w => rfl
  | sampleRate w => rfl
  | seconds x => rfl
  | psIn hroom => exact storeSequence_of_fits hroom
  | bitsIn hroom => exact storeSequence_of_fits hroom
  | impIn hroom => exact storeSequence_of_fits hroom

/-- A host write that goes on runs a command at CMD, sets an RW register, or is ignored. -/
theorem writeReg_next_cases {r : Reg} {v : HostValue} {s t : State} (h : writeReg r v s = .next t) :
    (∃ w, r = .cmd ∧ v = .word w ∧ runCommand w s = .next t) ∨ t = s ∨ StoresTo s r v t := by
  unfold writeReg at h
  split at h
  · exact .inl ⟨_, rfl, rfl, h⟩
  · cases h; exact .inr (.inl rfl)
  · cases h; exact .inr (.inl rfl)
  · cases h; exact .inr (.inl rfl)
  · cases h; exact .inr (.inl rfl)
  · cases h; exact .inr (.inr (.piIn _))
  · cases h; exact .inr (.inr (.spb _))
  · cases h; exact .inr (.inr (.sampleRate _))
  · cases h; exact .inr (.inr (.seconds _))
  · obtain ⟨rfl, hroom⟩ := storeSequence_next h; exact .inr (.inr (.psIn hroom))
  · obtain ⟨rfl, hroom⟩ := storeSequence_next h; exact .inr (.inr (.bitsIn hroom))
  · obtain ⟨rfl, hroom⟩ := storeSequence_next h; exact .inr (.inr (.impIn hroom))
  · cases h; exact .inr (.inl rfl)
  · cases h

/-! ### The outcomes of a step -/

/-- What a host access makes of the state it is served in, when the block goes on (R23, R31, R44, R230). -/
inductive ServesTo (s : State) : HostAction → State → Prop
  | ran {w : Word} {i : Instr} {t : State} (h : exec i { s with cmd := w } = .next t) :
      ServesTo s (.write 0x00 (.word w)) t
  | illegal (w : Word) : ServesTo s (.write 0x00 (.word w)) (abort .illegalCommand { s with cmd := w })
  | stored {r : Reg} {v : HostValue} {t : State} (h : StoresTo s r v t) : ServesTo s (.write (regIndex r) v) t
  | ignored (k : Nat) (v : HostValue) : ServesTo s (.write k v) s
  | read (k : Nat) : ServesTo s (.read k) { s with readData := some (readIndex s k) }
  | reset : ServesTo s .reset (resetBlock s)

theorem hostAccess_next_cases {a : HostAction} {s t : State} (h : hostAccess a s = .next t) : ServesTo s a t := by
  cases a with
  | write k v =>
    simp only [hostAccess, writeIndex] at h
    split at h
    · next r hr =>
      rw [regAt_eq_some hr]
      rcases writeReg_next_cases h with ⟨w, rfl, rfl, hrun⟩ | rfl | hstore
      · rcases runCommand_cases w s with ⟨i, -, he⟩ | ⟨e, -, he⟩
        · exact .ran (he ▸ hrun)
        · rw [he] at hrun; cases hrun; exact .illegal w
      · exact .ignored ..
      · exact .stored hstore
    · cases h; exact .ignored ..
  | read k => cases h; exact .read k
  | reset => cases h; exact .reset

/-- A step waits, or serves the host's next access (R21, R217). -/
theorem step_next_cases {s t : State} (h : step s = .next t) :
    t = s ∨ ∃ a rest, s.host = a :: rest ∧ ServesTo { s with host := rest } a t := by
  cases hhost : s.host with
  | nil => rw [step_idle hhost] at h; cases h; exact .inl rfl
  | cons a rest => rw [step_access hhost] at h; exact .inr ⟨a, rest, rfl, hostAccess_next_cases h⟩

/-! ### What an error records -/

theorem codeWord_toNat (e : Err) : e.codeWord.toNat = e.code := by cases e <;> rfl

theorem code_le_six (e : Err) : e.code ≤ 6 := by cases e <;> simp [Err.code]

/-- R35: the codes' bits are bits 1 to 6. -/
theorem stickyBit_and_zeroBits (e : Err) : e.stickyBit &&& 0xFFFFFF81#32 = 0 := by
  cases e <;> simp only [Err.stickyBit, Err.code] <;> rfl

theorem stickyBit_getLsbD_code (e : Err) : e.stickyBit.getLsbD e.code = true := by
  have hlt : e.code < 32 := (code_le_six e).trans_lt (by decide)
  simp [Err.stickyBit, hlt]

/-- R36: only the channel encoder's error carries a value. -/
theorem info_isSome_iff (e : Err) : e.info.isSome = true ↔ e.codeWord = 4 := by
  cases e <;> simp [Err.info, Err.codeWord, Err.code]

/-! ### Every step keeps the invariant -/

theorem State.Inv.abort {s : State} (h : s.Inv) (e : Err) : (abort e s).Inv :=
  { h with
    lastIsCode := (codeWord_toNat e).trans_le (code_le_six e)
    stickyBits := by
      rw [abort_errSticky, BitVec.and_or_distrib_right, h.stickyBits, stickyBit_and_zeroBits, BitVec.or_self]
    infoForEncoder := info_isSome_iff e
    failureLeftNoResult := fun _ => ⟨rfl, by simp [codeWord_toNat, stickyBit_getLsbD_code]⟩
    outFits := fits_zero _ }

theorem State.Inv.succeed {s : State} (h : s.Inv) {o : Out} (hroom : fits s.platform.maxLen o.length = true) :
    (succeed o s).Inv :=
  { h with
    lastIsCode := Nat.zero_le 6
    infoForEncoder := by simp
    failureLeftNoResult := fun h0 => absurd rfl h0
    outFits := hroom }

theorem SucceedsTo.inv {s t : State} {i : Instr} (h : SucceedsTo s i t) (hs : s.Inv) : t.Inv := by
  cases h with
  | fresh pi ps =>
    exact State.Inv.succeed (s := { s with genValid := true, gen := freshGenerator pi ps })
      { hs with cursorAtStart := nofun } (fits_zero _)
  | pulled hkind hvalid hroom =>
    exact State.Inv.succeed (s := { s with gen := (pull (pairsEmitted i) s.gen).2 })
      { hs with cursorAtStart := fun h0 => absurd (hvalid.symm.trans h0) (by simp) }
      (by simpa [Out.length] using hroom)
  | bits hkind hroom => exact hs.succeed hroom
  | @samples _ vs _ hroom =>
    exact State.Inv.succeed (s := { s with nanCount := (publish s.platform.nans s.nanCount vs).2 }) { hs with }
      (by simpa [Out.length] using hroom)

theorem exec_keeps_inv {i : Instr} {s t : State} (h : exec i s = .next t) (hs : s.Inv) : t.Inv := by
  rcases exec_aborts_or_succeeds h with ⟨e, rfl⟩ | hsucc
  · exact hs.abort e
  · exact hsucc.inv hs

theorem StoresTo.inv {s t : State} {r : Reg} {v : HostValue} (h : StoresTo s r v t) (hs : s.Inv) : t.Inv := by
  cases h with
  | piIn w => exact { hs with }
  | spb w => exact { hs with }
  | sampleRate w => exact { hs with }
  | seconds x => exact { hs with }
  | psIn hroom => exact { hs with psFits := hroom }
  | bitsIn hroom => exact { hs with bitsFit := hroom }
  | impIn hroom => exact { hs with impFits := hroom }

/-- R45: after reset no command has failed, there is no cursor to have moved, and every sequence is empty. -/
theorem resetBlock_inv (s : State) : (resetBlock s).Inv where
  lastIsCode := Nat.zero_le 6
  stickyBits := by simp [State.reset]
  infoForEncoder := by simp [State.reset]
  failureLeftNoResult := fun h0 => absurd rfl h0
  cursorAtStart := fun _ => ⟨rfl, rfl⟩
  psFits := fits_zero _
  bitsFit := fits_zero _
  impFits := fits_zero _
  outFits := fits_zero _

theorem ServesTo.inv {s t : State} {a : HostAction} (h : ServesTo s a t) (hs : s.Inv) : t.Inv := by
  cases h with
  | ran h => exact exec_keeps_inv h { hs with }
  | illegal w => exact State.Inv.abort (s := { s with cmd := w }) { hs with } _
  | stored h => exact h.inv hs
  | ignored k v => exact hs
  | read k => exact { hs with }
  | reset => exact resetBlock_inv s

end Sys2Proof.Machine

open Sys2Proof Sys2Proof.Machine

/-- Settles O14: waiting changes nothing, and every outcome of a host access keeps the invariant. -/
theorem stepKeepsStateInvariant : Obligations.StepKeepsStateInvariant := by
  intro s t hs h
  rcases step_next_cases h with rfl | ⟨a, rest, -, hserve⟩
  · exact hs
  · exact hserve.inv { hs with }

end

section
/-! ERR_STICKY (O12) and reset (O11, O13). -/

namespace Sys2Proof.Machine

/-- R203, R205: a command that goes on keeps the sticky bits, but for its own error's where it fails. -/
theorem exec_errSticky {i : Instr} {s t : State} (h : exec i s = .next t) :
    t.errSticky = if t.errLast = 0 then s.errSticky else s.errSticky ||| (1#32 <<< t.errLast.toNat) := by
  rcases exec_next_cases h with ⟨e, rfl⟩ | ⟨out, valid, g, n, rfl⟩
  · rw [abort_errSticky, abort_errLast, if_neg (codeWord_ne_zero e), codeWord_toNat, Err.stickyBit]
  · rfl

theorem word_and_or_absorb (x y : Word) : x &&& (x ||| y) = x := by
  ext k
  simpa using Or.inl

theorem exec_keeps_stickyBits {i : Instr} {s t : State} (h : exec i s = .next t) :
    s.errSticky &&& t.errSticky = s.errSticky := by
  rw [exec_errSticky h]
  split
  · exact BitVec.and_self
  · exact word_and_or_absorb ..

theorem StoresTo.errSticky {s t : State} {r : Reg} {v : HostValue} (h : StoresTo s r v t) :
    t.errSticky = s.errSticky := by
  cases h <;> rfl

theorem ServesTo.keeps_stickyBits {s t : State} {a : HostAction} (h : ServesTo s a t) (ha : a ≠ .reset) :
    s.errSticky &&& t.errSticky = s.errSticky := by
  cases h with
  | @ran w _ _ h => exact exec_keeps_stickyBits (s := { s with cmd := w }) h
  | illegal w => exact word_and_or_absorb ..
  | stored h => rw [h.errSticky, BitVec.and_self]
  | ignored k v => exact BitVec.and_self
  | read k => exact BitVec.and_self
  | reset => exact absurd rfl ha

/-- R33, R45: without a generator and with its cursor at the start, STATUS is 0. -/
theorem statusWord_resetBlock (s : State) : statusWord (resetBlock s) = 0 := by simp [statusWord, State.reset]

end Sys2Proof.Machine

open Sys2Proof Sys2Proof.Machine

/-- Settles O12: of all accesses only reset takes a sticky bit away, and a command adds at most its own error's. -/
theorem stickyBitsClearedOnlyByReset : Obligations.StickyBitsClearedOnlyByReset := by
  refine ⟨fun s t h hreset => ?_, fun i s t => exec_errSticky⟩
  rcases step_next_cases h with rfl | ⟨a, rest, hhost, hserve⟩
  · exact BitVec.and_self
  · exact hserve.keeps_stickyBits fun ha => hreset rest (ha ▸ hhost)

/-- Settles O11: reset gives every register the value it has in `State.reset`. -/
theorem resetRestoresEveryRegister : Obligations.ResetRestoresEveryRegister := by
  intro s
  refine ⟨resetBlock s, rfl, ?_⟩
  rintro u (rfl | rfl)
  · simp [State.reset, statusWord, Config.defaultSpb, Config.defaultSampleRate]
  · simp [State.reset, statusWord, Config.defaultSpb, Config.defaultSampleRate]

/-- Settles O13, as an instance of the invariant after reset from any state. -/
theorem resetMeetsStateInvariant : Obligations.ResetMeetsStateInvariant :=
  resetBlock_inv State.reset

end

section
/-! The host's register map: CMD writes (O5), RW registers (O7), RO and unmapped indices (O8), STATUS (O9). -/

namespace Sys2Proof.Machine

/-! ### CMD -/

theorem abort_illegalCommand (s : State) : abort .illegalCommand s = failedWith 6 none s := rfl

theorem runCommand_of_decode {w : Word} {i : Instr} (h : decode w = .ok i) (s : State) :
    runCommand w s = exec i { s with cmd := w } := by
  simp [runCommand, h]

theorem runCommand_of_illegal {w : Word} (h : (decode w).toOption = none) (s : State) :
    runCommand w s = .next (failedWith 6 none { s with cmd := w }) := by
  rcases runCommand_cases w s with ⟨i, hi, -⟩ | ⟨e, -, he⟩
  · simp [hi, Except.toOption] at h
  · rw [he, abort_illegalCommand]

theorem step_cmdWrite {s : State} {w : Word} {rest : List HostAction} (h : s.host = .write 0x00 (.word w) :: rest) :
    step s = runCommand w { s with host := rest } := step_access h

theorem step_withFetchWord (s : State) (w : Nat) :
    step (s.withFetchWord 32 w) = runCommand (BitVec.ofNat 32 (w % 2 ^ 32)) s := rfl

theorem except_toOption_eq_some_iff {ε α : Type} {r : Except ε α} {a : α} : r.toOption = some a ↔ r = .ok a := by
  cases r <;> simp [Except.toOption]

/-! ### The RW registers -/

/-- The register and the new state of a write that the table accepts (R23). -/
theorem exists_storesTo_of_writable {s : State} {k : Nat} {v : HostValue} (h : writable s.platform.maxLen k v = true) :
    ∃ r t, k = regIndex r ∧ StoresTo s r v t := by
  unfold writable at h
  split at h
  · exact ⟨.piIn, _, rfl, .piIn _⟩
  · exact ⟨.spb, _, rfl, .spb _⟩
  · exact ⟨.sampleRate, _, rfl, .sampleRate _⟩
  · exact ⟨.seconds, _, rfl, .seconds _⟩
  · exact ⟨.psIn, _, rfl, .psIn h⟩
  · exact ⟨.bitsIn, _, rfl, .bitsIn h⟩
  · exact ⟨.impIn, _, rfl, .impIn h⟩
  · cases h

@[simp] theorem readIndex_regIndex (s : State) (r : Reg) : readIndex s (regIndex r) = readReg s r := by
  simp [readIndex]

@[simp] theorem hostAccess_write_regIndex (s : State) (r : Reg) (v : HostValue) :
    hostAccess (.write (regIndex r) v) s = writeReg r v s := by
  simp [hostAccess, writeIndex]

theorem StoresTo.readReg_same {s t : State} {r : Reg} {v : HostValue} (h : StoresTo s r v t) :
    readReg t r = v.asRead := by
  cases h <;> rfl

theorem StoresTo.readReg_other {s t : State} {r r' : Reg} {v : HostValue} (h : StoresTo s r v t) (hne : r' ≠ r) :
    readReg t r' = readReg s r' := by
  cases h with
  | piIn w => cases r' with | piIn => exact absurd rfl hne | _ => rfl
  | spb w => cases r' with | spb => exact absurd rfl hne | _ => rfl
  | sampleRate w => cases r' with | sampleRate => exact absurd rfl hne | _ => rfl
  | seconds x => cases r' with | seconds => exact absurd rfl hne | _ => rfl
  | psIn hroom => cases r' with | psIn => exact absurd rfl hne | _ => rfl
  | bitsIn hroom => cases r' with | bitsIn => exact absurd rfl hne | _ => rfl
  | impIn hroom => cases r' with | impIn => exact absurd rfl hne | _ => rfl

/-- R22: every other index reads another register, or none. -/
theorem StoresTo.readIndex_other {s t : State} {r : Reg} {v : HostValue} (h : StoresTo s r v t) {j : Nat}
    (hne : j ≠ regIndex r) : readIndex t j = readIndex s j := by
  unfold readIndex
  cases hj : regAt j with
  | none => rfl
  | some r' => exact h.readReg_other fun he => hne (he ▸ regAt_eq_some hj)

theorem StoresTo.frame {s t : State} {r : Reg} {v : HostValue} (h : StoresTo s r v t) :
    t.gen = s.gen ∧ t.genValid = s.genValid ∧ t.cmd = s.cmd ∧ t.platform = s.platform ∧ t.host = s.host ∧
      t.readData = s.readData ∧ t.nanCount = s.nanCount := by
  cases h <;> simp

/-! ### RO and unmapped indices -/

theorem regAt_unmapped {k : Nat} (h : 8 < k ∧ k < 0x10 ∨ 0x13 < k) : regAt k = none := by
  cases hk : regAt k with
  | none => rfl
  | some r =>
    have hindex := regAt_eq_some hk
    cases r <;> simp only [regIndex] at hindex <;> omega

theorem write_readOnly {k : Nat} (h : k ∈ [0x01, 0x02, 0x03, 0x04, 0x13]) (v : HostValue) (s : State) :
    hostAccess (.write k v) s = .next s := by
  simp only [List.mem_cons, List.not_mem_nil, or_false] at h
  rcases h with rfl | rfl | rfl | rfl | rfl <;> rfl

/-! ### STATUS -/

/-- R33: each field of STATUS stands at its place. -/
theorem statusWord_fields (s : State) :
    (statusWord s).getLsbD 0 = s.genValid ∧ (statusWord s).extractLsb' 1 2 = s.gen.blk ∧
      (statusWord s).extractLsb' 3 2 = s.gen.i ∧ (statusWord s).extractLsb' 5 27 = 0 := by
  unfold statusWord
  generalize s.gen.i = i, s.gen.blk = blk, s.genValid = valid
  revert i blk valid
  decide

end Sys2Proof.Machine

open Sys2Proof Sys2Proof.Machine

/-- Settles O5: a CMD write is served by `runCommand`, and `withFetchWord` puts one first. -/
theorem stepRunsDecodedCommand : Obligations.StepRunsDecodedCommand := by
  refine ⟨fun s w rest hhost => ?_, fun s w => ?_⟩
  · rw [step_cmdWrite hhost]
    exact ⟨fun i hi => runCommand_of_decode hi _, fun hillegal => runCommand_of_illegal hillegal _⟩
  · rw [step_withFetchWord]
    exact ⟨fun i hi => runCommand_of_decode (except_toOption_eq_some_iff.1 hi) s,
      fun hillegal => runCommand_of_illegal hillegal s⟩

/-- Settles O7: the write goes to one register of the table, and every other index reads another register. -/
theorem hostWriteReadsBack : Obligations.HostWriteReadsBack := by
  intro s k v h
  obtain ⟨r, t, rfl, hstore⟩ := exists_storesTo_of_writable h
  refine ⟨t, ?_, ?_, fun j => hstore.readIndex_other, hstore.frame⟩
  · rw [hostAccess_write_regIndex, hstore.writeReg]
  · rw [readIndex_regIndex, hstore.readReg_same]

/-- Settles O8: an RO register ignores the write, and an index outside the table names no register. -/
theorem readOnlyIndicesIgnoreWrites : Obligations.ReadOnlyIndicesIgnoreWrites := by
  intro s k v
  refine ⟨fun h => write_readOnly h v s, fun h => ?_, rfl, rfl⟩
  simp [hostAccess, writeIndex, readIndex, regAt_unmapped h]

/-- Settles O9: a read of index 1 gives the STATUS view, whose fields are those of the generator slot. -/
theorem statusRegisterFields : Obligations.StatusRegisterFields := by
  intro s
  obtain ⟨hvalid, hblk, hi, hzero⟩ := statusWord_fields s
  exact ⟨statusWord s, rfl, hvalid, hblk, hi, hzero, congrArg ReadValue.word (statusWord_resetBlock s),
    fun v => write_readOnly (by simp) v s⟩

end

section
/-! What a read of OUT shows (O10), and instances side by side (O58). -/

namespace Sys2Proof.Machine

/-! ### The element formats of R62 -/

theorem wordsElement_fields (p : Pair) :
    (wordsElement p).extractLsb' 0 16 = p.word ∧ (wordsElement p).extractLsb' 16 2 = labelCode p.label ∧
      (wordsElement p).extractLsb' 18 14 = 0 := by
  have above (start len : Nat) (h : 16 ≤ start) :
      (wordsElement p).extractLsb' start len = (0#14 ++ labelCode p.label).extractLsb' (start - 16) len :=
    BitVec.extractLsb'_append_eq_of_le h
  refine ⟨BitVec.extractLsb'_append_eq_right, ?_, ?_⟩
  · exact (above 16 2 (by decide)).trans BitVec.extractLsb'_append_eq_right
  · exact (above 18 14 (by decide)).trans BitVec.extractLsb'_append_eq_left

theorem labelOf_labelCode (l : BlockLabel) : labelOf (labelCode l) = l := by cases l <;> rfl

theorem labelCode_injective : Function.Injective labelCode := Function.LeftInverse.injective labelOf_labelCode

theorem bitsElement_fields (b : Bit) :
    (bitsElement b).getLsbD 0 = b ∧ (bitsElement b).extractLsb' 1 31 = 0 := by
  revert b
  decide

theorem readIndex_out (s : State) : readIndex s 0x13 = readOut s.out := rfl

/-! ### Instances -/

theorem stepInstance_next_iff {sys sys' : List State} {k : Fin sys.length} :
    stepInstance sys k = .next sys' ↔ ∃ t, step sys[k] = .next t ∧ sys' = sys.set k t := by
  unfold stepInstance
  cases step sys[k] <;> simp [eq_comm]

end Sys2Proof.Machine

open Sys2Proof Sys2Proof.Machine

/-- Settles O10: OUT's read maps each element to its format of R62, and no two labels share a code. -/
theorem outReadFormat : Obligations.OutReadFormat := by
  refine ⟨fun s hout => ?_, fun s ps hout => ?_, fun s bs hout => ?_, fun s ys hout => ?_⟩ <;>
    rw [readIndex_out, hout]
  · rfl
  · refine ⟨_, rfl, by simp, fun k _ _ => ?_⟩
    obtain ⟨hword, hlabel, hzero⟩ := wordsElement_fields ps[k]
    rw [List.getElem_map, hlabel]
    exact ⟨hword, hzero, labelCode_injective.eq_iff' rfl, labelCode_injective.eq_iff' rfl,
      labelCode_injective.eq_iff' rfl, labelCode_injective.eq_iff' rfl⟩
  · refine ⟨_, rfl, by simp, fun k _ _ => ?_⟩
    rw [List.getElem_map]
    exact bitsElement_fields bs[k]
  · rfl

/-- Settles O58: the platform's step at place `k` is `step` of the state there, put back at that place. -/
theorem instancesShareNothing : Obligations.InstancesShareNothing := by
  intro sys sys' k h
  obtain ⟨t, ht, rfl⟩ := stepInstance_next_iff.1 h
  refine ⟨List.length_set, fun j hj => ?_, ⟨t, ht, ?_⟩, fun j u hj => ?_⟩
  · simp [List.getElem_set_ne (Fin.val_ne_of_ne hj.symm)]
  · simp
  · have hk : j.val ≠ k.val := Fin.val_ne_of_ne hj
    refine stepInstance_next_iff.2 ⟨t, ?_, List.set_comm _ _ hk.symm⟩
    simpa [List.getElem_set_ne hk] using ht

end

section
/-! The stream of a fresh generator, pair by pair (R104, R105). -/

namespace Sys2Proof.Machine

/-- Pulling one pair more is emitting where the earlier pull ended. -/
theorem pull_snoc (n : Nat) (g : Generator) :
    pull (n + 1) g = ((pull n g).1 ++ [(emit (pull n g).2).1], (emit (pull n g).2).2) := pull_add n 1 g

theorem pull_fst_eq_map (n : Nat) (g : Generator) :
    (pull n g).1 = (List.range n).map fun j => (emit (pull j g).2).1 := by
  induction n with
  | zero => rfl
  | succ n ih => rw [pull_snoc, List.range_succ, List.map_append, ih]; rfl

/-- R39: after `m` pairs BLK has advanced `m` times and I once in four. -/
theorem pull_freshGenerator_snd (pi : Half) (ps : Vector Byte 8) (m : Nat) :
    (pull m (freshGenerator pi ps)).2 =
      { pi := pi, ps := ps, i := BitVec.ofNat 2 (m / 4), blk := BitVec.ofNat 2 m } := by
  induction m with
  | zero => rfl
  | succ m ih =>
    have hblk : BitVec.ofNat 2 m = 3 ↔ m % 4 = 3 := by bv_omega
    have hi : (if BitVec.ofNat 2 m = 3 then BitVec.ofNat 2 (m / 4) + 1 else BitVec.ofNat 2 (m / 4)) =
        BitVec.ofNat 2 ((m + 1) / 4) := by
      rw [if_congr hblk rfl rfl]
      split <;> bv_omega
    simp only [pull_snoc, ih, emit, hi, BitVec.ofNat_add]
    rfl

/-- Two bytes side by side, as R63 writes a D-block word. -/
theorem byte_append_eq_shift_or (x y : Byte) : (x ++ y : Half) = (x.setWidth 16 <<< 8) ||| y.setWidth 16 := by
  rw [BitVec.append_def, BitVec.shiftLeftZeroExtend_eq, BitVec.setWidth'_eq]

theorem ofNat_two_eq_of_mod_four {m c : Nat} (h : m % 4 = c) : BitVec.ofNat 2 m = BitVec.ofNat 2 c := by
  subst h
  bv_omega

/-- R105: pair number `m` of a fresh generator's stream. -/
theorem emit_pull_freshGenerator (pi : Half) (ps : Vector Byte 8) (m : Nat) :
    (emit (pull m (freshGenerator pi ps)).2).1 = streamPair pi ps m := by
  have hi : (BitVec.ofNat 2 (m / 4)).toNat = m / 4 % 4 := BitVec.toNat_ofNat ..
  have hm : m % 4 < 4 := Nat.mod_lt _ (by decide)
  rw [pull_freshGenerator_snd, emit, streamPair]
  interval_cases hblk : m % 4 <;> rw [ofNat_two_eq_of_mod_four hblk]
  · rfl
  · have hindex : (BitVec.ofNat 2 (m / 4)).setWidth 16 = BitVec.ofNat 16 (m / 4 % 4) := by
      rw [← hi, BitVec.ofNat_toNat]
    simp [labelOf, groupWord, Config.blockBMark, hindex]
  · rfl
  · simp [labelOf, groupWord, dWord, hi, byte_append_eq_shift_or]

/-- R105: a pull in the middle of a fresh generator's stream. -/
theorem pull_pull_freshGenerator (pi : Half) (ps : Vector Byte 8) (m n : Nat) :
    (pull n (pull m (freshGenerator pi ps)).2).1 = (List.range n).map fun j => streamPair pi ps (m + j) := by
  rw [pull_fst_eq_map]
  refine List.map_congr_left fun j _ => ?_
  rw [← emit_pull_freshGenerator, pull_add]

end Sys2Proof.Machine

end

section
/-! BITSTREAM's loop, batch by batch (R172, R174), and where MAX_LEN refuses it (R72). -/

namespace Sys2Proof.Machine

theorem streamBatch_length (pi : Half) (ps : Vector Byte 8) (b n k : Nat) :
    (streamBatch pi ps b n k).length = min b (n - k * b) := by simp [streamBatch]

/-- R174: batch number `k` is what BITSTREAM's loop pulls after `k` whole batches. -/
theorem pull_eq_streamBatch (pi : Half) (ps : Vector Byte 8) (b n k : Nat) :
    (pull (min b (n - k * b)) (pull (k * b) (freshGenerator pi ps)).2).1 = streamBatch pi ps b n k :=
  pull_pull_freshGenerator ..

/-- ENC's answer to batch number `k` of the first `n` stream pairs. -/
def streamAnswer (p : Platform) (pi : Half) (ps : Vector Byte 8) (n k : Nat) : EncAnswer :=
  callEncoder p.enc (streamBatch pi ps p.batch n k)

theorem callEncoder_streamBatch (p : Platform) (pi : Half) (ps : Vector Byte 8) (n k : Nat) :
    callEncoder p.enc (streamBatch pi ps p.batch n k) = streamAnswer p pi ps n k := rfl

/-- The bits of the answers to the first `k` batches, in order. -/
def streamBits (p : Platform) (pi : Half) (ps : Vector Byte 8) (n k : Nat) : List Bit :=
  (List.range k).flatMap fun j => answerBits (streamAnswer p pi ps n j)

theorem streamBits_succ (p : Platform) (pi : Half) (ps : Vector Byte 8) (n k : Nat) :
    streamBits p pi ps n (k + 1) = streamBits p pi ps n k ++ answerBits (streamAnswer p pi ps n k) := by
  simp [streamBits, List.range_succ]

/-- BITSTREAM's loop where it stands after `k` whole batches. -/
def encodeFrom (p : Platform) (pi : Half) (ps : Vector Byte 8) (n fuel k : Nat) : Except Abort (List Bit) :=
  encodeBatches p fuel (n - k * p.batch) (pull (k * p.batch) (freshGenerator pi ps)).2 (streamBits p pi ps n k)

theorem encodeBatches_eq_encodeFrom (p : Platform) (pi : Half) (ps : Vector Byte 8) (n : Nat) :
    encodeBatches p n n (freshGenerator pi ps) [] = encodeFrom p pi ps n n 0 := by
  simp [encodeFrom, streamBits]

@[simp] theorem encodeBatches_no_pairs (p : Platform) (fuel : Nat) (g : Generator) (acc : List Bit) :
    encodeBatches p fuel 0 g acc = .ok acc := by
  cases fuel <;> simp [encodeBatches]

/-- The loop ends with the answers to all batches once every pair has been encoded. -/
theorem encodeFrom_of_le {p : Platform} {n k : Nat} (h : n ≤ k * p.batch) (pi : Half) (ps : Vector Byte 8) (fuel : Nat) :
    encodeFrom p pi ps n fuel k = .ok (streamBits p pi ps n k) := by
  rw [encodeFrom, Nat.sub_eq_zero_of_le h, encodeBatches_no_pairs]

/-- Where the loop goes on after batch number `k`: a whole batch further, or, after a shorter last batch, with no pair
left, so that the generator no longer matters. -/
theorem encodeBatches_after_batch (p : Platform) (fuel n k : Nat) (g : Generator) (acc : List Bit) :
    encodeBatches p fuel (n - k * p.batch - min p.batch (n - k * p.batch))
        (pull (min p.batch (n - k * p.batch)) (pull (k * p.batch) g).2).2 acc =
      encodeBatches p fuel (n - (k + 1) * p.batch) (pull ((k + 1) * p.batch) g).2 acc := by
  have hnext : (k + 1) * p.batch = k * p.batch + p.batch := Nat.succ_mul ..
  rcases Nat.le_total p.batch (n - k * p.batch) with hwhole | hlast
  · rw [Nat.min_eq_left hwhole, hnext, pull_add, Nat.sub_sub]
  · rw [Nat.min_eq_right hlast, Nat.sub_self, hnext, ← Nat.sub_sub, Nat.sub_eq_zero_of_le hlast,
      encodeBatches_no_pairs, encodeBatches_no_pairs]

/-- One turn of the loop (R172): the batch needs room, the encoder answers, and the answers so far need room. -/
theorem encodeFrom_succ {p : Platform} {n k : Nat} (h : k * p.batch < n) (pi : Half) (ps : Vector Byte 8) (fuel : Nat) :
    encodeFrom p pi ps n (fuel + 1) k =
      if fits p.maxLen (streamBatch pi ps p.batch n k).length then
        match streamAnswer p pi ps n k with
        | .ok _ =>
          if fits p.maxLen (streamBits p pi ps n (k + 1)).length then encodeFrom p pi ps n fuel (k + 1)
          else .error (.refused .capacityExceeded)
        | .err e => raise (.channelEncoder e)
        | .noAnswer => .error (.stuck .encoderNeverAnswers)
      else .error (.refused .capacityExceeded) := by
  rw [encodeFrom, encodeBatches, if_neg (by omega), encodeFrom, streamBits_succ, streamBatch_length]
  simp only [needRoom_bind, pull_eq_streamBatch, callEncoder_streamBatch, encodeBatches_after_batch]
  cases streamAnswer p pi ps n k <;> rfl

/-! ### Refusals of the loop -/

/-- Batch number `k` is encoded and the loop goes on after it. -/
def BatchPasses (p : Platform) (pi : Half) (ps : Vector Byte 8) (n k : Nat) : Prop :=
  fits p.maxLen (streamBatch pi ps p.batch n k).length = true ∧
    fits p.maxLen (streamBits p pi ps n (k + 1)).length = true ∧ ∃ b, streamAnswer p pi ps n k = .ok b

/-- MAX_LEN does not admit batch number `k`, or the answers so far with the one to it. -/
def BatchRefused (p : Platform) (pi : Half) (ps : Vector Byte 8) (n k : Nat) : Prop :=
  ¬ fits p.maxLen (streamBatch pi ps p.batch n k).length = true ∨
    (¬ fits p.maxLen (streamBits p pi ps n (k + 1)).length = true ∧ ∃ b, streamAnswer p pi ps n k = .ok b)

/-- A turn of the loop is refused itself, or passes and is followed by a refusal. -/
theorem encodeFrom_succ_refused_iff {p : Platform} {n k : Nat} (h : k * p.batch < n) (pi : Half) (ps : Vector Byte 8)
    (fuel : Nat) :
    encodeFrom p pi ps n (fuel + 1) k = .error (.refused .capacityExceeded) ↔
      BatchRefused p pi ps n k ∨
        (BatchPasses p pi ps n k ∧ encodeFrom p pi ps n fuel (k + 1) = .error (.refused .capacityExceeded)) := by
  rw [encodeFrom_succ h, BatchPasses, BatchRefused]
  by_cases hbatch : fits p.maxLen (streamBatch pi ps p.batch n k).length = true
  · cases streamAnswer p pi ps n k with
    | ok b =>
      by_cases hbits : fits p.maxLen (streamBits p pi ps n (k + 1)).length = true <;> simp [hbatch, hbits]
    | err e => simp [hbatch, raise]
    | noAnswer => simp [hbatch]
  · simp [hbatch]

/-- Some batch from number `k` on is refused, and every batch from `k` to it passes. -/
def RefusedFrom (p : Platform) (pi : Half) (ps : Vector Byte 8) (n k : Nat) : Prop :=
  ∃ m, k ≤ m ∧ m * p.batch < n ∧ (∀ j, k ≤ j → j < m → BatchPasses p pi ps n j) ∧ BatchRefused p pi ps n m

theorem not_refusedFrom_of_le {p : Platform} {n k : Nat} (h : n ≤ k * p.batch) (pi : Half) (ps : Vector Byte 8) :
    ¬ RefusedFrom p pi ps n k := by
  rintro ⟨m, hkm, hm, -⟩
  have := Nat.mul_le_mul_right p.batch hkm
  omega

theorem refusedFrom_iff {p : Platform} {n k : Nat} (h : k * p.batch < n) (pi : Half) (ps : Vector Byte 8) :
    RefusedFrom p pi ps n k ↔
      BatchRefused p pi ps n k ∨ (BatchPasses p pi ps n k ∧ RefusedFrom p pi ps n (k + 1)) := by
  constructor
  · rintro ⟨m, hkm, hm, hpass, hrefused⟩
    rcases Nat.eq_or_lt_of_le hkm with rfl | hlt
    · exact .inl hrefused
    · exact .inr ⟨hpass k (Nat.le_refl k) hlt, m, hlt, hm, fun j hkj => hpass j (Nat.le_of_lt hkj), hrefused⟩
  · rintro (hrefused | ⟨hk, m, hkm, hm, hpass, hrefused⟩)
    · exact ⟨k, Nat.le_refl k, h, fun j hkj hjk => absurd hjk (Nat.not_lt.2 hkj), hrefused⟩
    · refine ⟨m, Nat.le_of_lt hkm, hm, fun j hkj hjm => ?_, hrefused⟩
      rcases Nat.eq_or_lt_of_le hkj with rfl | hlt
      · exact hk
      · exact hpass j hlt hjm

/-- With fuel for the pairs that remain, the loop is refused exactly where MAX_LEN stops a batch that it reaches. -/
theorem encodeFrom_refused_iff {p : Platform} (hb : 0 < p.batch) (pi : Half) (ps : Vector Byte 8) {n fuel k : Nat}
    (hfuel : n - k * p.batch ≤ fuel) :
    encodeFrom p pi ps n fuel k = .error (.refused .capacityExceeded) ↔ RefusedFrom p pi ps n k := by
  induction fuel generalizing k with
  | zero =>
    have h : n ≤ k * p.batch := by omega
    rw [encodeFrom_of_le h]
    exact iff_of_false nofun (not_refusedFrom_of_le h pi ps)
  | succ fuel ih =>
    rcases Nat.lt_or_ge (k * p.batch) n with h | h
    · have hnext : (k + 1) * p.batch = k * p.batch + p.batch := Nat.succ_mul ..
      rw [encodeFrom_succ_refused_iff h, refusedFrom_iff h, ih (by omega)]
    · rw [encodeFrom_of_le h]
      exact iff_of_false nofun (not_refusedFrom_of_le h pi ps)

end Sys2Proof.Machine

end

section
/-! The commands' refusals for MAX_LEN (O57). -/

namespace Sys2Proof.Machine

/-! ### Refusals of the operands -/

theorem bind_eq_error_iff {α β : Type} {x : Except Abort α} {f : α → Except Abort β} {a : Abort} :
    (x >>= f) = .error a ↔ x = .error a ∨ ∃ v, x = .ok v ∧ f v = .error a := by
  cases x <;> simp

theorem padPs_eq_of_paddedFrom {name : List Byte} {ps : Vector Byte 8} (h : PaddedFrom name ps)
    (hlen : name.length ≤ 8) : padPs name hlen = ps := by
  refine Vector.ext fun k hk => ?_
  have hpad := h ⟨k, hk⟩
  rw [Fin.getElem_fin] at hpad
  simp [hpad, padPs, List.getElem_append, Config.padByte]

theorem exists_paddedFrom (name : List Byte) : ∃ ps, PaddedFrom name ps :=
  ⟨.ofFn fun k => if h : k.val < name.length then name[k.val] else 0x20#8, fun k => by simp⟩

/-- R101: validation gives the low half of PI and the padded name on valid operands, and raises an error on others. -/
theorem validate_cases_of_paddedFrom {name : List Byte} {ps : Vector Byte 8} (h : PaddedFrom name ps) (pi : Word) :
    ((ValidPi pi ∧ name.length ≤ 8) ∧ validate pi name = .ok (pi.extractLsb' 0 16, ps)) ∨
      (¬ (ValidPi pi ∧ name.length ≤ 8) ∧ ∃ e, validate pi name = raise e) := by
  by_cases hvalid : ValidPi pi ∧ name.length ≤ 8
  · refine .inl ⟨hvalid, validate_ok_iff.2 ⟨hvalid.1, hvalid.2, ?_⟩⟩
    rw [padPs_eq_of_paddedFrom h, BitVec.setWidth_eq_extractLsb' (by decide)]
  · refine .inr ⟨hvalid, ?_⟩
    rcases validate_cases pi name with ⟨v, hv⟩ | ⟨hv, -⟩ | ⟨hv, -⟩
    · obtain ⟨hpi, hlen, -⟩ := validate_ok_iff.1 hv
      exact absurd ⟨hpi, hlen⟩ hvalid
    · exact ⟨_, hv⟩
    · exact ⟨_, hv⟩

/-- R72: the operands pass when they are valid and there is room for the name as written and as padded. -/
theorem nameOperands_ok_iff {name : List Byte} {ps : Vector Byte 8} (h : PaddedFrom name ps) {maxLen : Option Nat}
    {pi : Word} {v : Half × Vector Byte 8} :
    nameOperands maxLen pi name = .ok v ↔
      (fits maxLen name.length = true ∧ (ValidPi pi ∧ name.length ≤ 8) ∧ fits maxLen 8 = true) ∧
        v = (pi.extractLsb' 0 16, ps) := by
  rw [nameOperands_eq]
  rcases validate_cases_of_paddedFrom h pi with ⟨hvalid, hv⟩ | ⟨hvalid, e, hv⟩
  · cases fits maxLen name.length <;> cases h8 : fits maxLen 8 <;> simp [hv, hvalid, h8, Config.psLen, eq_comm (a := v)]
  · cases fits maxLen name.length <;> simp [hv, hvalid, raise]

/-- R72: they are refused for the name as written, or, when they are valid, for the padded name. -/
theorem nameOperands_refused_iff {name : List Byte} {maxLen : Option Nat} {pi : Word} :
    nameOperands maxLen pi name = .error (.refused .capacityExceeded) ↔
      ¬ fits maxLen name.length = true ∨ (ValidPi pi ∧ name.length ≤ 8 ∧ ¬ fits maxLen 8 = true) := by
  obtain ⟨ps, h⟩ := exists_paddedFrom name
  rw [nameOperands_eq, ← and_assoc]
  rcases validate_cases_of_paddedFrom h pi with ⟨hvalid, hv⟩ | ⟨hvalid, e, hv⟩
  · cases fits maxLen name.length <;> cases h8 : fits maxLen 8 <;> simp [hv, hvalid, h8, Config.psLen]
  · cases fits maxLen name.length <;> simp [hv, hvalid, raise]

theorem pairCount_ne_refused (x : F64) (r : Refusal) : pairCount x ≠ .error (.refused r) := by
  rcases pairCount_cases x with ⟨n, h⟩ | h <;> rw [h] <;> nofun

/-! ### Refusals of each command

A command's meaning is a chain of checks that refuse, or that end it with an error. -/

section Checks
variable {c : Prop} [Decidable c] {x : Host.Outcome State Fault Refusal} {t : State} {r : Refusal}

theorem ite_refused_eq_iff : (if c then x else .refused r) = .refused r ↔ ¬ c ∨ x = .refused r := by
  by_cases h : c <;> simp [h]

theorem ite_next_left_eq_iff : (if c then .next t else x) = .refused r ↔ ¬ c ∧ x = .refused r := by
  by_cases h : c <;> simp [h]

theorem ite_next_right_eq_iff : (if c then x else .next t) = .refused r ↔ c ∧ x = .refused r := by
  by_cases h : c <;> simp [h]

end Checks

theorem execGwgInit_refused_iff (s : State) :
    execGwgInit s = .refused .capacityExceeded ↔
      ¬ fits s.platform.maxLen s.psIn.length = true ∨
        (ValidPi s.piIn ∧ s.psIn.length ≤ 8 ∧ ¬ fits s.platform.maxLen 8 = true) := by
  simp only [execGwgInit, settle_refused_iff, bind_eq_error_iff, nameOperands_refused_iff, reduceCtorEq, and_false,
    exists_false, or_false]

theorem execGwgNext_refused_iff (s : State) :
    execGwgNext s = .refused .capacityExceeded ↔ s.genValid = true ∧ ¬ fits s.platform.maxLen 1 = true := by
  simp only [execGwgNext_eq, ite_next_right_eq_iff, ite_refused_eq_iff, reduceCtorEq, or_false]

theorem execGwgPull_refused_iff (n : Nat) (s : State) :
    execGwgPull n s = .refused .capacityExceeded ↔ s.genValid = true ∧ ¬ fits s.platform.maxLen n = true := by
  simp only [execGwgPull_eq, ite_next_right_eq_iff, ite_refused_eq_iff, reduceCtorEq, or_false]

theorem execDiffEnc_refused_iff (s : State) :
    execDiffEnc s = .refused .capacityExceeded ↔ ¬ fits s.platform.maxLen s.bitsIn.length = true := by
  simp only [execDiffEnc_eq, ite_refused_eq_iff, reduceCtorEq, or_false]

theorem execBiphase_refused_iff (s : State) :
    execBiphase s = .refused .capacityExceeded ↔ ¬ fits s.platform.maxLen s.bitsIn.length = true ∨
      (4 ≤ s.spb.toNat ∧ (¬ fits s.platform.maxLen s.spb.toNat = true ∨
        ¬ fits s.platform.maxLen (s.bitsIn.length * s.spb.toNat) = true)) := by
  simp only [execBiphase_eq, ite_refused_eq_iff, ite_next_left_eq_iff, not_lt, not_and_or, reduceCtorEq, or_false]

theorem execShape_refused_iff (s : State) :
    execShape s = .refused .capacityExceeded ↔ ¬ fits s.platform.maxLen s.impIn.length = true ∨
      (s.spb.toNat ≠ 0 ∧ s.sampleRate.toNat ≠ 0 ∧ s.impIn ≠ [] ∧
        (¬ fits s.platform.maxLen (2 * s.spb.toNat) = true ∨
          ¬ fits s.platform.maxLen (s.impIn.length + 2 * s.spb.toNat - 1) = true)) := by
  simp only [execShape_eq, ite_refused_eq_iff, ite_next_left_eq_iff, List.length_eq_zero_iff, not_or, not_and_or,
    and_assoc, ne_eq, reduceCtorEq, or_false]

theorem execUnmod_refused_iff (s : State) :
    let spb := samplesPerBit s.sampleRate.toNat
    execUnmod s = .refused .capacityExceeded ↔ ¬ fits s.platform.maxLen s.bitsIn.length = true ∨
      (4 ≤ spb ∧ (¬ fits s.platform.maxLen spb = true ∨ ¬ fits s.platform.maxLen (s.bitsIn.length * spb) = true ∨
        (s.bitsIn ≠ [] ∧ (¬ fits s.platform.maxLen (2 * spb) = true ∨
          ¬ fits s.platform.maxLen (s.bitsIn.length * spb + 2 * spb - 1) = true)))) := by
  simp only [execUnmod_eq, ite_refused_eq_iff, ite_next_left_eq_iff, List.length_eq_zero_iff, not_lt, not_and_or,
    or_assoc, ne_eq, reduceCtorEq, or_false]

/-- BITSTREAM is refused at its operands, or in the loop that valid operands start. -/
theorem execBitstream_refused_iff {s : State} {ps : Vector Byte 8} (h : PaddedFrom s.psIn ps) :
    execBitstream s = .refused .capacityExceeded ↔ s.platform.enc ≠ .unbound ∧ s.platform.batch ≠ 0 ∧
      (¬ fits s.platform.maxLen s.psIn.length = true ∨ (ValidPi s.piIn ∧ s.psIn.length ≤ 8 ∧
        (¬ fits s.platform.maxLen 8 = true ∨ ∃ n, pairCount s.seconds = .ok n ∧
          RefusedFrom s.platform (s.piIn.extractLsb' 0 16) ps n 0))) := by
  rw [execBitstream_eq]
  by_cases henc : s.platform.enc = .unbound
  · simp [henc]
  by_cases hbatch : s.platform.batch = 0
  · simp [henc, hbatch]
  have hloop (n : Nat) : encodeBatches s.platform n n (freshGenerator (s.piIn.extractLsb' 0 16) ps) [] =
      .error (.refused .capacityExceeded) ↔ RefusedFrom s.platform (s.piIn.extractLsb' 0 16) ps n 0 := by
    rw [encodeBatches_eq_encodeFrom, encodeFrom_refused_iff (Nat.pos_of_ne_zero hbatch) _ _ (Nat.sub_le ..)]
  simp only [henc, hbatch, if_false, settle_refused_iff, bind_eq_error_iff, nameOperands_refused_iff,
    nameOperands_ok_iff h, pairCount_ne_refused, and_assoc, exists_and_left, exists_eq_left, hloop, reduceCtorEq,
    and_false, exists_false, or_false, false_or, ne_eq, not_false_eq_true, true_and]
  tauto

theorem not_refusedFrom_of_unbounded {p : Platform} (h : p.maxLen = none) (pi : Half) (ps : Vector Byte 8) (n k : Nat) :
    ¬ RefusedFrom p pi ps n k := by
  simp [RefusedFrom, BatchRefused, h]

/-- R72: without a bound no command is refused for it. -/
theorem exec_ne_capacityExceeded_of_unbounded {s : State} (h : s.platform.maxLen = none) (i : Instr) :
    exec i s ≠ .refused .capacityExceeded := by
  cases i with
  | gwgInit => simp [exec, execGwgInit_refused_iff, h]
  | gwgNext => simp [exec, execGwgNext_refused_iff, h]
  | gwgPull n => simp [exec, execGwgPull_refused_iff, h]
  | diffEnc => simp [exec, execDiffEnc_refused_iff, h]
  | biphase => simp [exec, execBiphase_refused_iff, h]
  | shape => simp [exec, execShape_refused_iff, h]
  | unmod => simp [exec, execUnmod_refused_iff, h]
  | bitstream =>
    obtain ⟨ps, hps⟩ := exists_paddedFrom s.psIn
    simp [exec, execBitstream_refused_iff hps, not_refusedFrom_of_unbounded h, h]

end Sys2Proof.Machine

open Sys2Proof Sys2Proof.Machine

/-- Settles O57: each command's refusals are those of its chain of checks, and BITSTREAM's also those of its loop. -/
theorem capacityRefusalsExactly : Obligations.CapacityRefusalsExactly := by
  intro s n
  refine ⟨execGwgInit_refused_iff s, execGwgNext_refused_iff s, execGwgPull_refused_iff n s,
    execDiffEnc_refused_iff s, execBiphase_refused_iff s, execShape_refused_iff s, execUnmod_refused_iff s,
    fun ps hps => ?_, fun i h => exec_ne_capacityExceeded_of_unbounded h i⟩
  have hbitstream := execBitstream_refused_iff hps
  simp only [RefusedFrom, Nat.zero_le, true_and, true_implies, ← exists_and_left] at hbitstream
  exact hbitstream

end

section
/-! The command word: decoder and encoder agree in both directions (O1, O2), and what each word written to CMD runs (O3,
O4); the assembler's commands (O59). -/

namespace Sys2Proof.Machine

/-! ### The two fields -/

theorem opcField_encode (i : Instr) : opcField (encode i) = i.opcode := BitVec.extractLsb'_append_eq_right

theorem wf_iff_countOperand_lt (i : Instr) : i.wf = true ↔ i.countOperand < 2 ^ 24 := by
  cases i <;> simp [Instr.wf, Instr.countOperand]

/-- R83: a COUNT that fits its 24 bits is kept whole. -/
theorem countField_encode {i : Instr} (h : i.wf = true) : countField (encode i) = i.countOperand := by
  rw [countField, encode, BitVec.extractLsb'_append_eq_left, BitVec.toNat_ofNat,
    Nat.mod_eq_of_lt ((wf_iff_countOperand_lt i).1 h)]

theorem countField_lt (w : Word) : countField w < 2 ^ 24 := BitVec.isLt _

/-- R80: COUNT and OPC are all of the word. -/
theorem ofNat_countField_append_opcField (w : Word) : BitVec.ofNat 24 (countField w) ++ opcField w = w := by
  rw [countField, BitVec.ofNat_toNat, BitVec.setWidth_eq]
  exact BitVec.extractLsb'_append_extractLsb'

theorem opcField_toNat (w : Word) : (opcField w).toNat = w.toNat % 256 := by simp [opcField]

theorem countField_eq_div (w : Word) : countField w = w.toNat / 256 := by
  rw [countField, BitVec.extractLsb'_toNat, Nat.shiftRight_eq_div_pow, Nat.mod_eq_of_lt (by omega)]

/-! ### The decoder -/

/-- R82: the opcode of GWG_PULL is its own. -/
theorem opcode_eq_three_iff {i : Instr} : i.opcode = 0x03#8 ↔ i = .gwgPull i.countOperand := by
  cases i <;> simp [Instr.opcode, Instr.countOperand]

theorem countOperand_eq_zero {i : Instr} (h : i.opcode ≠ 0x03#8) : i.countOperand = 0 := by
  cases i with
  | gwgPull count => exact absurd rfl h
  | _ => rfl

/-- R82: the rows with a reserved COUNT give the commands other than GWG_PULL, each for its own opcode. -/
theorem plainInstr_eq_some_iff {opc : BitVec 8} {i : Instr} :
    plainInstr opc = some i ↔ opc ≠ 0x03#8 ∧ i.opcode = opc := by
  constructor
  · intro h
    unfold plainInstr at h
    split at h <;> cases h <;> decide
  · rintro ⟨hopc, rfl⟩
    cases i with
    | gwgPull count => exact absurd rfl hopc
    | _ => rfl

/-- R81: with another opcode than GWG_PULL's, COUNT must be 0. -/
theorem decode_plain_eq_ok_iff {w : Word} {i : Instr} (h : opcField w ≠ 0x03#8) :
    decode w = .ok i ↔ plainInstr (opcField w) = some i ∧ countField w = 0 := by
  rw [decode, if_neg h]
  cases plainInstr (opcField w) with
  | none => simp
  | some j => by_cases hcount : countField w = 0 <;> simp [hcount]

/-- R81: a word decodes to the command that has its OPC and its COUNT, and to no other. -/
theorem decode_eq_ok_iff {w : Word} {i : Instr} :
    decode w = .ok i ↔ i.opcode = opcField w ∧ i.countOperand = countField w := by
  by_cases hopc : opcField w = 0x03#8
  · rw [decode, if_pos hopc, hopc, opcode_eq_three_iff, Except.ok.injEq]
    constructor
    · rintro rfl; exact ⟨rfl, rfl⟩
    · rintro ⟨hi, hcount⟩; rw [hi, hcount]
  · rw [decode_plain_eq_ok_iff hopc, plainInstr_eq_some_iff]
    constructor
    · rintro ⟨⟨-, hi⟩, hcount⟩; exact ⟨hi, by rw [countOperand_eq_zero (hi ▸ hopc), hcount]⟩
    · rintro ⟨hi, hcount⟩; exact ⟨⟨hopc, hi⟩, by rw [← hcount, countOperand_eq_zero (hi ▸ hopc)]⟩

/-- R80, R81: `decode_eq_ok_iff` with the fields as numbers. -/
theorem decode_eq_ok_iff_toNat {w : Word} {i : Instr} :
    decode w = .ok i ↔ i.opcode.toNat = w.toNat % 256 ∧ i.countOperand = w.toNat / 256 := by
  rw [decode_eq_ok_iff, BitVec.toNat_eq, opcField_toNat, countField_eq_div]

/-- The opcodes with a reserved COUNT, and their commands (R82). -/
def plainCommands : List (Nat × Instr) :=
  [(0x01, .gwgInit), (0x02, .gwgNext), (0x10, .diffEnc), (0x11, .biphase), (0x12, .shape), (0x20, .unmod),
   (0x21, .bitstream)]

theorem opcode_of_mem_plainCommands :
    ∀ p ∈ plainCommands, p.2.opcode.toNat = p.1 ∧ p.2.countOperand = 0 := by decide

theorem mem_plainCommands {i : Instr} (h : i.opcode.toNat ≠ 0x03) : i.opcode.toNat ∈ plainCommands.map Prod.fst := by
  cases i with
  | gwgPull count => exact absurd rfl h
  | _ => decide

/-- R81: the words that decode to no command. -/
theorem decode_illegal {w : Word} (hopc : w.toNat % 256 ≠ 0x03)
    (h : w.toNat % 256 ∉ plainCommands.map Prod.fst ∨ w.toNat / 256 ≠ 0) : (decode w).toOption = none := by
  cases hw : decode w with
  | error e => rfl
  | ok i =>
    obtain ⟨hi, hcount⟩ := decode_eq_ok_iff_toNat.1 hw
    have hne : i.opcode.toNat ≠ 0x03 := hi ▸ hopc
    rcases h with h | h
    · exact absurd (hi ▸ mem_plainCommands hne) h
    · exact absurd (hcount ▸ countOperand_eq_zero fun h3 => hne (congrArg BitVec.toNat h3)) h

/-! ### The assembler -/

/-- R87: a command is written with its own mnemonic and operand. -/
theorem assemble_mnemonic {i : Instr} (h : i.wf = true) : assemble (mnemonic i) (operand i) = some i := by
  cases i with
  | gwgPull count => simpa [assemble, mnemonic, operand, Instr.wf] using h
  | _ => simp [assemble, mnemonic, operand]

end Sys2Proof.Machine

open Sys2Proof Sys2Proof.Machine

/-- Settles O1: the word has the command's OPC and, as it fits its field, the command's COUNT. -/
theorem decodeEncodeRoundTrip : Obligations.DecodeEncodeRoundTrip := fun i h =>
  decode_eq_ok_iff.2 ⟨(opcField_encode i).symm, (countField_encode h).symm⟩

/-- Settles O2: the command has the word's OPC and COUNT, which are all of the word. -/
theorem decodedWordReencodes : Obligations.DecodedWordReencodes := by
  intro w i h
  obtain ⟨hopc, hcount⟩ := decode_eq_ok_iff.1 h
  refine ⟨(wf_iff_countOperand_lt i).2 (hcount ▸ countField_lt w), ?_⟩
  rw [encode, hopc, hcount, ofNat_countField_append_opcField]

/-- Settles O3, with the written word in CMD: the fields decide what `decode` gives, and `runCommand` runs it. -/
theorem commandWordDecoding : Obligations.CommandWordDecoding := by
  intro w s
  refine ⟨w, fun hopc => ?_, fun p hp hopc hcount => ?_, fun hopc hillegal => ?_⟩
  · exact runCommand_of_decode (decode_eq_ok_iff_toNat (i := .gwgPull _).2 ⟨hopc.symm, rfl⟩) s
  · obtain ⟨hcode, hoperand⟩ := opcode_of_mem_plainCommands p hp
    exact runCommand_of_decode (decode_eq_ok_iff_toNat.2 ⟨hcode.trans hopc.symm, hoperand.trans hcount.symm⟩) s
  · exact runCommand_of_illegal (decode_illegal hopc hillegal) s

/-- Settles O4: each word is decoded by evaluation. -/
theorem commandWordsOfTheTable : Obligations.CommandWordsOfTheTable :=
  ⟨rfl, rfl, rfl, rfl, rfl, rfl, rfl, rfl, rfl, rfl, rfl, rfl⟩

/-- Settles O59: each mnemonic names its own command, and a COUNT of 25 bits fails GWG_PULL's check. -/
theorem assemblerSyntax : Obligations.AssemblerSyntax := by
  refine ⟨fun i => assemble_mnemonic, fun n hn => ?_, by decide, by decide⟩
  exact if_neg fun h => absurd h.2 (Nat.not_lt.2 hn)

end

section
/-! GWG_NEXT's pair and cursor (O17), and the registers each command reads (O28). -/

namespace Sys2Proof.Machine

theorem succeed_eq_succeededWith (out : Out) (s : State) : succeed out s = succeededWith out s := rfl

/-! ### The next pair -/

/-- R102: the label and the word at each block position. -/
theorem emit_fst_eq (g : Generator) :
    (emit g).1 =
      if g.blk = 0 then ⟨.a, g.pi⟩
      else if g.blk = 1 then ⟨.b, 0x0800#16 ||| g.i.setWidth 16⟩
      else if g.blk = 2 then ⟨.cPrime, g.pi⟩
      else ⟨.d, (g.ps[2 * g.i.toNat].setWidth 16 <<< 8) ||| g.ps[2 * g.i.toNat + 1].setWidth 16⟩ := by
  unfold emit labelOf
  split
  · rfl
  · split
    · rfl
    · split
      · rfl
      · simp only [groupWord, dWord, byte_append_eq_shift_or]

/-- R38, R39: the block position and, after block D, the index go on by one, each modulo 4. -/
theorem emit_snd_eq (g : Generator) :
    (emit g).2 = { g with
      i := if g.blk.toNat = 3 then BitVec.ofNat 2 ((g.i.toNat + 1) % 4) else g.i
      blk := BitVec.ofNat 2 ((g.blk.toNat + 1) % 4) } := by
  have hnext (x : BitVec 2) : x + 1 = BitVec.ofNat 2 ((x.toNat + 1) % 4) := by bv_omega
  have hlast : g.blk = 3 ↔ g.blk.toNat = 3 := by bv_omega
  simp only [emit, hnext, hlast]

/-- R104: GWG_NEXT pulls one pair. -/
theorem execGwgNext_eq_execGwgPull (s : State) : execGwgNext s = execGwgPull 1 s := by
  rw [execGwgNext_eq, execGwgPull_eq]; rfl

theorem exec_of_pullsWords {i : Instr} (h : pullsWords i) (s : State) : exec i s = execGwgPull (pairsEmitted i) s := by
  rcases h with rfl | ⟨n, rfl⟩
  · exact execGwgNext_eq_execGwgPull s
  · rfl

/-! ### What the result registers show -/

section Visible
variable (s u : State)

theorem visible_next : visible (.next s) = .next (s.out, s.errLast, s.errInfo) := rfl

@[simp] theorem visible_abort (e : Err) : visible (.next (abort e s)) = .next (.none, e.codeWord, e.info) := rfl

@[simp] theorem visible_succeed (out : Out) : visible (.next (succeed out s)) = .next (out, 0, none) := rfl

@[simp] theorem visible_succeedSamples (vs : List Val) :
    visible (.next (succeedSamples vs s)) =
      .next (.samples (publish s.platform.nans s.nanCount vs).1, 0, none) := rfl

@[simp] theorem slotAfter_next : slotAfter (.next s) = some (s.genValid, s.gen) := rfl

/-- Commands that take the same check or operand show the same, if they do after it. -/
theorem visible_settle_bind_congr {α : Type} {x : Except Abort α} {f g : α → Except Abort State}
    (h : ∀ a, visible (settle s (f a)) = visible (settle u (g a))) :
    visible (settle s (x >>= f)) = visible (settle u (x >>= g)) := by
  cases x with
  | ok a => exact h a
  | error e => cases e <;> rfl

end Visible

/-! ### Samples without NaNs -/

theorem pattern_of_ne_nan {v : Val} (h : v ≠ .nan) (nb nb' : NaNBits) : v.pattern nb = v.pattern nb' := by
  cases v with
  | nan => exact absurd rfl h
  | inf neg => rfl
  | fin neg mant exp => rfl

/-- Without NaNs the published samples do not depend on how many were drawn before. -/
theorem publish_fst_of_no_nan (id : Nat) (vs : List Val) (m n : Nat) (h : ∀ v ∈ vs, v ≠ .nan) :
    (publish id m vs).1 = (publish id n vs).1 := by
  induction vs generalizing m n with
  | nil => rfl
  | cons v vs ih =>
    obtain ⟨hv, hvs⟩ := List.forall_mem_cons.1 h
    simp only [publish, pattern_of_ne_nan hv (Config.nanBits id m) (Config.nanBits id n), if_neg hv, ih m n hvs]

/-! ### The operands of each command (R83) -/

section Operands
variable {s u : State} (hp : s.platform = u.platform)
include hp

theorem visible_execGwgInit_congr (hpi : s.piIn = u.piIn) (hps : s.psIn = u.psIn) :
    visible (execGwgInit s) = visible (execGwgInit u) := by
  simp only [execGwgInit, hp, hpi, hps]
  exact visible_settle_bind_congr s u fun v => rfl

theorem visible_execGwgPull_congr (hvalid : s.genValid = u.genValid) (hgen : s.gen = u.gen) (n : Nat) :
    visible (execGwgPull n s) = visible (execGwgPull n u) := by
  simp only [execGwgPull_eq, apply_ite visible, visible_abort, visible_succeed, hp, hvalid, hgen]

theorem slotAfter_execGwgPull_congr (hvalid : s.genValid = u.genValid) (hgen : s.gen = u.gen) (n : Nat) :
    slotAfter (execGwgPull n s) = slotAfter (execGwgPull n u) := by
  simp only [execGwgPull_eq, apply_ite slotAfter, slotAfter_next, succeed_genValid, succeed_gen, abort_genValid,
    abort_gen, hp, hvalid, hgen]

theorem visible_execDiffEnc_congr (hbits : s.bitsIn = u.bitsIn) :
    visible (execDiffEnc s) = visible (execDiffEnc u) := by
  simp only [execDiffEnc_eq, apply_ite visible, visible_succeed, hp, hbits]

theorem visible_execBiphase_congr (hbits : s.bitsIn = u.bitsIn) (hspb : s.spb = u.spb) :
    visible (execBiphase s) = visible (execBiphase u) := by
  have hsamples := publish_fst_of_no_nan u.platform.nans (impulses u.spb.toNat u.bitsIn) s.nanCount u.nanCount
    fun _ => ne_nan_of_mem_impulses
  simp only [execBiphase_eq, apply_ite visible, visible_abort, visible_succeedSamples, hp, hbits, hspb, hsamples]

theorem visible_execShape_congr (himp : s.impIn = u.impIn) (hspb : s.spb = u.spb)
    (hrate : s.sampleRate = u.sampleRate) (hnans : s.nanCount = u.nanCount) :
    visible (execShape s) = visible (execShape u) := by
  simp only [execShape_eq, apply_ite visible, visible_abort, visible_succeedSamples, hp, himp, hspb, hrate, hnans]

theorem visible_execUnmod_congr (hbits : s.bitsIn = u.bitsIn) (hrate : s.sampleRate = u.sampleRate)
    (hnans : s.nanCount = u.nanCount) : visible (execUnmod s) = visible (execUnmod u) := by
  simp only [execUnmod_eq, apply_ite visible, visible_abort, visible_succeedSamples, hp, hbits, hrate, hnans]

theorem visible_execBitstream_congr (hpi : s.piIn = u.piIn) (hps : s.psIn = u.psIn) (hsec : s.seconds = u.seconds) :
    visible (execBitstream s) = visible (execBitstream u) := by
  simp only [execBitstream, hp, hpi, hps, hsec]
  exact visible_settle_bind_congr s u fun _ => visible_settle_bind_congr s u fun v =>
    visible_settle_bind_congr s u fun n => visible_settle_bind_congr s u fun bits => rfl

end Operands

/-- R100: a GWG_INIT that succeeds leaves a fresh generator made of its operands. -/
theorem slot_of_execGwgInit {s t : State} (h : execGwgInit s = .next t) (h0 : t.errLast = 0) :
    t.genValid = true ∧ ∃ v, nameOperands s.platform.maxLen s.piIn s.psIn = .ok v ∧ t.gen = freshGenerator v.1 v.2 := by
  rw [execGwgInit_eq] at h
  split at h
  · next v hv => cases h; exact ⟨rfl, v, hv, rfl⟩
  · cases h; exact absurd h0 (codeWord_ne_zero _)
  · cases h
  · cases h

theorem execGwgInit_slot_congr {s u t v : State} (hp : s.platform = u.platform) (hpi : s.piIn = u.piIn)
    (hps : s.psIn = u.psIn) (ht : execGwgInit s = .next t) (hv : execGwgInit u = .next v) (h0 : t.errLast = 0) :
    t.gen = v.gen ∧ t.genValid = true ∧ v.genValid = true := by
  have hshown := visible_execGwgInit_congr hp hpi hps
  simp only [ht, hv, visible_next, Host.Outcome.next.injEq, Prod.mk.injEq] at hshown
  obtain ⟨-, herr, -⟩ := hshown
  obtain ⟨htvalid, x, hx, htgen⟩ := slot_of_execGwgInit ht h0
  obtain ⟨hvvalid, y, hy, hvgen⟩ := slot_of_execGwgInit hv (herr ▸ h0)
  rw [hp, hpi, hps, hy] at hx
  cases hx
  exact ⟨htgen.trans hvgen.symm, htvalid, hvvalid⟩

end Sys2Proof.Machine

open Sys2Proof Sys2Proof.Machine

/-- Settles O17: GWG_NEXT pulls the pair that `emit` gives. -/
theorem gwgNextEmitsPair : Obligations.GwgNextEmitsPair := by
  intro s hvalid hroom g pair
  rw [exec, execGwgNext_eq, if_pos hvalid, if_pos hroom, emit_fst_eq, emit_snd_eq, succeed_eq_succeededWith]

/-- Settles O28: the checks and the results of each command mention no other register. -/
theorem commandsReadOnlyTheirOperands : Obligations.CommandsReadOnlyTheirOperands := by
  intro s u hp
  refine ⟨fun hpi hps => ⟨visible_execGwgInit_congr hp hpi hps, fun t v => execGwgInit_slot_congr hp hpi hps⟩,
    fun hvalid hgen i hi => ?_, visible_execDiffEnc_congr hp, visible_execBiphase_congr hp, visible_execShape_congr hp,
    visible_execUnmod_congr hp, visible_execBitstream_congr hp⟩
  rw [exec_of_pullsWords hi, exec_of_pullsWords hi]
  exact ⟨visible_execGwgPull_congr hp hvalid hgen _, slotAfter_execGwgPull_congr hp hvalid hgen _⟩

end

section
/-! The generator's commands and the stream they pull, whatever runs between them (R100 to R107: O15, O18 to O23). -/

namespace Sys2Proof.Machine

/-! ### The operands of GWG_INIT -/

theorem toNat_extractLsb'_of_validPi {pi : Word} (h : ValidPi pi) : ((pi.extractLsb' 0 16).toNat : Int) = pi.toInt := by
  obtain ⟨hpos, hle⟩ := h
  rw [BitVec.extractLsb'_toNat, Nat.shiftRight_zero]
  rw [BitVec.toInt_eq_toNat_cond] at hpos hle ⊢
  omega

theorem PaddedFrom.getElem_eq_getD {name : List Byte} {ps : Vector Byte 8} (h : PaddedFrom name ps) {k : Nat}
    (hk : k < 8) : ps[k] = name.getD k 0x20#8 := by
  have hpad := h ⟨k, hk⟩
  rw [Fin.getElem_fin] at hpad
  rw [hpad]
  split
  · exact (List.getD_eq_getElem _ _ ‹_›).symm
  · exact (List.getD_eq_default _ _ (not_lt.1 ‹_›)).symm

/-- R100: what a GWG_INIT that succeeds has checked, and the generator it leaves. -/
theorem freshGenerator_of_execGwgInit {s t : State} {ps : Vector Byte 8} (hps : PaddedFrom s.psIn ps)
    (h : execGwgInit s = .next t) (h0 : t.errLast = 0) :
    ValidPi s.piIn ∧ t.genValid = true ∧ t.gen = freshGenerator (s.piIn.extractLsb' 0 16) ps := by
  obtain ⟨hvalid, v, hv, hgen⟩ := slot_of_execGwgInit h h0
  obtain ⟨⟨-, ⟨hpi, -⟩, -⟩, rfl⟩ := (nameOperands_ok_iff hps).1 hv
  exact ⟨hpi, hvalid, hgen⟩

/-! ### Pulling -/

/-- The state after `n` pairs are pulled (R104): they are the result, and the cursor stands after them. -/
def afterPull (n : Nat) (s : State) : State :=
  succeed (.words (pull n s.gen).1) { s with gen := (pull n s.gen).2 }

/-- R103, R104: GWG_PULL goes on with the next pairs of its generator, or without a generator fails. -/
theorem execGwgPull_next_iff {n : Nat} {s t : State} :
    execGwgPull n s = .next t ↔
      (s.genValid = true ∧ fits s.platform.maxLen n = true ∧ t = afterPull n s) ∨
        (s.genValid = false ∧ t = abort .noGenerator s) := by
  rw [execGwgPull_eq, ← afterPull]
  cases s.genValid <;> cases fits s.platform.maxLen n <;> simp [eq_comm]

theorem exec_of_pullsWords_eq_afterPull {i : Instr} {s : State} (hi : pullsWords i) (hvalid : s.genValid = true)
    (hroom : fits s.platform.maxLen (pairsEmitted i) = true) : exec i s = .next (afterPull (pairsEmitted i) s) :=
  (exec_of_pullsWords hi s).trans (execGwgPull_next_iff.2 (.inl ⟨hvalid, hroom, rfl⟩))

theorem exec_gwgPull_of_unbounded {s : State} (hvalid : s.genValid = true) (hroom : s.platform.maxLen = none) (n : Nat) :
    exec (.gwgPull n) s = .next (afterPull n s) :=
  exec_of_pullsWords_eq_afterPull (.inr ⟨n, rfl⟩) hvalid (hroom ▸ fits_none n)

/-- Every cursor is one that a fresh generator reaches. -/
theorem eq_pull_freshGenerator (g : Generator) :
    g = (pull (4 * g.i.toNat + g.blk.toNat) (freshGenerator g.pi g.ps)).2 := by
  have hi : BitVec.ofNat 2 ((4 * g.i.toNat + g.blk.toNat) / 4) = g.i := by bv_omega
  have hblk : BitVec.ofNat 2 (4 * g.i.toNat + g.blk.toNat) = g.blk := by bv_omega
  rw [pull_freshGenerator_snd, hi, hblk]

/-- R104: the cursor's closed form. -/
theorem pull_snd_eq (n : Nat) (g : Generator) :
    (pull n g).2 = { g with
      i := BitVec.ofNat 2 (g.i.toNat + (g.blk.toNat + n) / 4)
      blk := BitVec.ofNat 2 (g.blk.toNat + n) } := by
  have hpull : (pull n g).2 = (pull (4 * g.i.toNat + g.blk.toNat + n) (freshGenerator g.pi g.ps)).2 := by
    rw [pull_add, ← eq_pull_freshGenerator]
  have hi : (4 * g.i.toNat + g.blk.toNat + n) / 4 = g.i.toNat + (g.blk.toNat + n) / 4 := by omega
  have hblk : BitVec.ofNat 2 (4 * g.i.toNat + g.blk.toNat + n) = BitVec.ofNat 2 (g.blk.toNat + n) := by bv_omega
  rw [hpull, pull_freshGenerator_snd, hi, hblk]

/-! ### The words of successive commands -/

/-- The words a result holds. -/
def wordsOf : Out → List Pair
  | .none => []
  | .words ps => ps
  | .bits _ => []
  | .samples _ => []

/-- The first command goes on, and the words among the later results follow its own. -/
theorem collectWords_cons_eq_some_iff {i : Instr} {is : List Instr} {s u : State} {pairs : List Pair} :
    collectWords (i :: is) s = some (pairs, u) ↔
      ∃ t rest, exec i s = .next t ∧ collectWords is t = some (rest, u) ∧ pairs = wordsOf t.out ++ rest := by
  rw [collectWords]
  cases exec i s with
  | next t => cases hout : t.out <;> simp [wordsOf, hout, eq_comm]
  | fault f => simp
  | refused r => simp

/-- A command other than GWG_INIT pulls its words from the generator, and so moves the cursor, or leaves it alone. -/
theorem exists_pull_of_exec {i : Instr} {s t : State} (h : exec i s = .next t) (hi : i ≠ .gwgInit) :
    ∃ k, wordsOf t.out = (pull k s.gen).1 ∧ t.gen = (pull k s.gen).2 := by
  rcases exec_aborts_or_succeeds h with ⟨e, rfl⟩ | hs
  · exact ⟨0, rfl, rfl⟩
  · cases hs with
    | fresh pi ps => exact absurd rfl hi
    | pulled => exact ⟨_, rfl, rfl⟩
    | bits => exact ⟨0, rfl, rfl⟩
    | samples => exact ⟨0, rfl, rfl⟩

/-- R105: without a GWG_INIT, the words of all results in command order are what the generator emits next. -/
theorem collectWords_eq_pull {is : List Instr} {s u : State} {pairs : List Pair} (his : Instr.gwgInit ∉ is)
    (h : collectWords is s = some (pairs, u)) : pairs = (pull pairs.length s.gen).1 := by
  induction is generalizing s pairs with
  | nil => cases h; rfl
  | cons i is ih =>
    obtain ⟨hi, his⟩ := List.ne_and_not_mem_of_not_mem_cons his
    obtain ⟨t, rest, hexec, hrest, rfl⟩ := collectWords_cons_eq_some_iff.1 h
    obtain ⟨k, hwords, hgen⟩ := exists_pull_of_exec hexec hi.symm
    rw [hwords, List.length_append, pull_length, pull_add, ← hgen, ← ih his hrest]

/-- R104: with a generator and room, pulling commands run, and together they pull the sum of their pairs at once. -/
theorem exists_collectWords_of_pullsWords {is : List Instr} {s : State} (his : ∀ i ∈ is, pullsWords i)
    (hvalid : s.genValid = true) (hroom : s.platform.maxLen = none) :
    ∃ t, collectWords is s = some ((pull (is.map pairsEmitted).sum s.gen).1, t) ∧
      t.gen = (pull (is.map pairsEmitted).sum s.gen).2 ∧ t.genValid = true := by
  induction is generalizing s with
  | nil => exact ⟨s, rfl, rfl, hvalid⟩
  | cons i is ih =>
    obtain ⟨hi, his⟩ := List.forall_mem_cons.1 his
    have hexec := exec_of_pullsWords_eq_afterPull hi hvalid (hroom ▸ fits_none _)
    obtain ⟨t, hrest, hgen, ht⟩ := ih (s := afterPull (pairsEmitted i) s) his hvalid hroom
    rw [List.map_cons, List.sum_cons, pull_add]
    exact ⟨t, collectWords_cons_eq_some_iff.2 ⟨_, _, hexec, hrest, rfl⟩, hgen, ht⟩

/-! ### The stream's pairs (R105, R106) -/

theorem getElem_pull_freshGenerator (pi : Half) (ps : Vector Byte 8) {n m : Nat}
    (h : m < (pull n (freshGenerator pi ps)).1.length) :
    (pull n (freshGenerator pi ps)).1[m] = streamPair pi ps m := by
  simp only [pull_fst_eq_map, List.getElem_map, List.getElem_range, emit_pull_freshGenerator]

theorem streamPair_add_sixteen (pi : Half) (ps : Vector Byte 8) (m : Nat) :
    streamPair pi ps (m + 16) = streamPair pi ps m := by
  have hblk : (m + 16) % 4 = m % 4 := by omega
  have hi : (m + 16) / 4 % 4 = m / 4 % 4 := by omega
  simp only [streamPair, hblk, hi]

section StreamPair
variable (pi : Half) (ps : Vector Byte 8) {m : Nat}

theorem streamPair_a (h : m % 4 = 0) : streamPair pi ps m = ⟨.a, pi⟩ := by simp [streamPair, h]

theorem streamPair_b (h : m % 4 = 1) :
    streamPair pi ps m = ⟨.b, 0x0800#16 ||| BitVec.ofNat 16 (m / 4 % 4)⟩ := by simp [streamPair, h]

theorem streamPair_cPrime (h : m % 4 = 2) : streamPair pi ps m = ⟨.cPrime, pi⟩ := by simp [streamPair, h]

theorem streamPair_d (h : m % 4 = 3) :
    streamPair pi ps m = ⟨.d, ps[2 * (m / 4 % 4)] ++ ps[2 * (m / 4 % 4) + 1]⟩ := by
  simp [streamPair, h, byte_append_eq_shift_or]

end StreamPair

theorem low_bits_bWord {i : Nat} (h : i < 4) : ((0x0800#16 ||| BitVec.ofNat 16 i).extractLsb' 0 2).toNat = i := by
  interval_cases i <;> rfl

end Sys2Proof.Machine

open Sys2Proof Sys2Proof.Machine

/-- Settles O15: the operands pass validation, with room for the name as written and as padded. -/
theorem gwgInitConstructsGenerator : Obligations.GwgInitConstructsGenerator := by
  intro s hpi hlen hroom
  obtain ⟨ps, hps⟩ := exists_paddedFrom s.psIn
  have hoperands := (nameOperands_ok_iff hps).2 ⟨⟨fits_mono hlen hroom, ⟨hpi, hlen⟩, hroom⟩, rfl⟩
  refine ⟨ps, hps, ?_⟩
  rw [exec, execGwgInit_eq, hoperands]
  rfl

/-- Settles O18: the pairs are those of `pull`, whose cursor has the closed form. -/
theorem gwgPullAdvancesCursor : Obligations.GwgPullAdvancesCursor := by
  intro n s hvalid hroom
  refine ⟨(pull n s.gen).1, pull_length n s.gen, ?_⟩
  rw [← pull_snd_eq, ← succeed_eq_succeededWith]
  exact exec_of_pullsWords_eq_afterPull (.inr ⟨n, rfl⟩) hvalid hroom

/-- Settles O19: `n` GWG_NEXT commands pull one pair each, and so `n` pairs together. -/
theorem gwgPullIsRepeatedGwgNext : Obligations.GwgPullIsRepeatedGwgNext := by
  intro n s hvalid hroom
  have hnext : ∀ i ∈ List.replicate n Instr.gwgNext, pullsWords i := fun i hi => .inl (List.eq_of_mem_replicate hi)
  have hsum : ((List.replicate n Instr.gwgNext).map pairsEmitted).sum = n := by simp [pairsEmitted]
  obtain ⟨t, hwords, hgen, ht⟩ := exists_collectWords_of_pullsWords hnext hvalid hroom
  rw [hsum] at hwords hgen
  exact ⟨_, t, _, hwords, exec_gwgPull_of_unbounded hvalid hroom n, rfl, hgen.symm, hvalid.trans ht.symm⟩

/-- Settles O20: all words since GWG_INIT are one pull from a fresh generator. -/
theorem streamAfterGwgInit : Obligations.StreamAfterGwgInit := by
  refine ⟨fun s t u ps is pairs hinit h0 hps his hwords m hm => ?_, fun s t is hinit h0 hroom his => ?_,
    streamPair_add_sixteen⟩
  · obtain ⟨-, -, hgen⟩ := freshGenerator_of_execGwgInit hps hinit h0
    have hpull := collectWords_eq_pull his hwords
    rw [hgen] at hpull
    rw [List.getElem_of_eq hpull, getElem_pull_freshGenerator]
  · obtain ⟨hvalid, -⟩ := slot_of_execGwgInit hinit h0
    obtain ⟨u, hwords, -⟩ := exists_collectWords_of_pullsWords his hvalid hroom
    exact ⟨_, u, hwords, pull_length _ _⟩

/-- Settles O21: the pairs are the stream's, and each of its four kinds shows its field. -/
theorem streamCarriesPiAndPs : Obligations.StreamCarriesPiAndPs := by
  intro n s₀ s hinit h0 hroom
  obtain ⟨ps, hps⟩ := exists_paddedFrom s₀.psIn
  obtain ⟨hpi, hvalid, hgen⟩ := freshGenerator_of_execGwgInit hps hinit h0
  refine ⟨_, _, exec_gwgPull_of_unbounded hvalid hroom n, rfl, pull_length _ _, ?_⟩
  rw [hgen]
  intro m hm
  rw [getElem_pull_freshGenerator]
  refine ⟨fun h => ?_, fun h => ?_, fun h => ?_, fun h => ?_⟩
  · rw [streamPair_a _ _ h]
    exact ⟨rfl, toNat_extractLsb'_of_validPi hpi⟩
  · rw [streamPair_b _ _ h]
    exact ⟨rfl, low_bits_bWord (Nat.mod_lt _ (by decide))⟩
  · rw [streamPair_cPrime _ _ h]
    exact ⟨rfl, toNat_extractLsb'_of_validPi hpi⟩
  · rw [streamPair_d _ _ h, ← hps.getElem_eq_getD (by omega), ← hps.getElem_eq_getD (by omega)]
    exact ⟨rfl, BitVec.extractLsb'_append_eq_left, BitVec.extractLsb'_append_eq_right⟩

/-- Settles O22: without a generator pulling fails whatever the slot holds, and a failed GWG_INIT keeps the slot. -/
theorem noGeneratorRaised : Obligations.NoGeneratorRaised := by
  refine ⟨rfl, fun s g n hvalid => ?_, fun s t hinit hfail => ?_⟩
  · have hpull (k : Nat) : execGwgPull k { s with gen := g } = .next { failedWith 5 none s with gen := g } :=
      execGwgPull_next_iff.2 (.inr ⟨hvalid, rfl⟩)
    exact ⟨(execGwgNext_eq_execGwgPull _).trans (hpull 1), hpull n⟩
  · rcases exec_aborts_or_succeeds hinit with ⟨e, rfl⟩ | hs
    · rfl
    · exact absurd hs.errLast hfail

/-- Settles O23: GEN_VALID, MAX_LEN and the generator tell what pulling does, which carries PI_IN and PS_IN along. -/
theorem streamIgnoresInputRegisters : Obligations.StreamIgnoresInputRegisters := by
  refine ⟨fun i s u t hi h hgen hvalid hroom => ?_, fun i s t pi ps hi h => ?_⟩ <;>
    rw [exec_of_pullsWords hi] at h ⊢
  · rcases execGwgPull_next_iff.1 h with ⟨hs, hfits, rfl⟩ | ⟨hs, rfl⟩
    · exact ⟨_, execGwgPull_next_iff.2 (.inl ⟨hvalid.trans hs, hroom ▸ hfits, rfl⟩), by simp [afterPull, hgen]⟩
    · exact ⟨_, execGwgPull_next_iff.2 (.inr ⟨hvalid.trans hs, rfl⟩), rfl, hgen⟩
  · rcases execGwgPull_next_iff.1 h with ⟨hs, hfits, rfl⟩ | ⟨hs, rfl⟩
    · exact execGwgPull_next_iff.2 (.inl ⟨hs, hfits, rfl⟩)
    · exact execGwgPull_next_iff.2 (.inr ⟨hs, rfl⟩)

end

section
/-! BITSTREAM up to a batch that it reaches, every earlier one answered and with room, and the encoder's error there
(R123: O52). -/

namespace Sys2Proof.Machine

section Batches
variable {p : Platform} {pi : Half} {ps : Vector Byte 8} {n k : Nat} {answer : List Pair → List Bit}

theorem fits_streamBatch (h : fits p.maxLen (min p.batch n) = true) (k : Nat) :
    fits p.maxLen (streamBatch pi ps p.batch n k).length = true := by
  rw [streamBatch_length]
  exact fits_mono (min_le_min_left _ (Nat.sub_le ..)) h

theorem streamBits_length_mono {j : Nat} (h : j ≤ k) :
    (streamBits p pi ps n j).length ≤ (streamBits p pi ps n k).length := by
  induction h with
  | refl => exact Nat.le_refl _
  | step _ ih => rw [streamBits_succ, List.length_append]; exact Nat.le_add_right_of_le ih

theorem streamBits_eq_flatMap
    (h : ∀ j, j < k → streamAnswer p pi ps n j = .ok (answer (streamBatch pi ps p.batch n j))) :
    streamBits p pi ps n k = (List.range k).flatMap fun j => answer (streamBatch pi ps p.batch n j) :=
  List.flatMap_congr fun j hj => by rw [h j (List.mem_range.1 hj), answerBits]

/-- Room for the first batch, the largest, and for `k` answers is room at each of the `k` answered batches. -/
theorem batchPasses_of_answered (hbatch : fits p.maxLen (min p.batch n) = true)
    (hbits : fits p.maxLen ((List.range k).flatMap fun j => answer (streamBatch pi ps p.batch n j)).length = true)
    (h : ∀ j, j < k → streamAnswer p pi ps n j = .ok (answer (streamBatch pi ps p.batch n j))) :
    ∀ j, j < k → BatchPasses p pi ps n j := by
  intro j hj
  rw [← streamBits_eq_flatMap h] at hbits
  exact ⟨fits_streamBatch hbatch j, fits_mono (streamBits_length_mono hj) hbits, _, h j hj⟩

theorem encodeFrom_succ_of_batchPasses (hk : k * p.batch < n) (h : BatchPasses p pi ps n k) (fuel : Nat) :
    encodeFrom p pi ps n (fuel + 1) k = encodeFrom p pi ps n fuel (k + 1) := by
  obtain ⟨hbatch, hbits, b, hanswer⟩ := h
  rw [encodeFrom_succ hk, if_pos hbatch, hanswer]
  exact if_pos hbits

/-- The loop comes to batch number `k` when every batch before it passes. -/
theorem encodeFrom_zero_of_batchesPass (hn : ∀ j, j < k → j * p.batch < n)
    (h : ∀ j, j < k → BatchPasses p pi ps n j) (fuel : Nat) :
    encodeFrom p pi ps n (fuel + k) 0 = encodeFrom p pi ps n fuel k := by
  induction k generalizing fuel with
  | zero => rfl
  | succ k ih =>
    have hreach := ih (fun j hj => hn j (by omega)) (fun j hj => h j (by omega)) (fuel + 1)
    rw [Nat.add_right_comm] at hreach
    exact hreach.trans (encodeFrom_succ_of_batchPasses (hn k (by omega)) (h k (by omega)) fuel)

theorem encodeFrom_succ_of_err {e : EncErr} (hk : k * p.batch < n) (hbatch : fits p.maxLen (min p.batch n) = true)
    (h : streamAnswer p pi ps n k = .err e) (fuel : Nat) :
    encodeFrom p pi ps n (fuel + 1) k = raise (.channelEncoder e) := by
  rw [encodeFrom_succ hk, if_pos (fits_streamBatch hbatch k), h]

end Batches

/-- BITSTREAM on valid operands with room for the padded name is its loop, from the first batch on. -/
theorem execBitstream_eq_encodeFrom {s : State} {ps : Vector Byte 8} {n : Nat} (henc : s.platform.enc ≠ .unbound)
    (hbatch : 0 < s.platform.batch) (hpi : ValidPi s.piIn) (hlen : s.psIn.length ≤ 8) (hps : PaddedFrom s.psIn ps)
    (hn : pairCount s.seconds = .ok n) (hroom : fits s.platform.maxLen 8 = true) :
    execBitstream s = settle s (encodeFrom s.platform (s.piIn.extractLsb' 0 16) ps n n 0 >>= fun bs =>
      .ok (succeed (.bits bs) s)) := by
  have hoperands := (nameOperands_ok_iff hps).2 ⟨⟨fits_mono hlen hroom, ⟨hpi, hlen⟩, hroom⟩, rfl⟩
  rw [execBitstream_eq, if_neg henc, if_neg hbatch.ne', hoperands, hn, bind_ok, bind_ok, encodeBatches_eq_encodeFrom]

theorem abort_channelEncoder (e : EncErr) (s : State) : abort (.channelEncoder e) s = failedWith 4 (some e) s := rfl

end Sys2Proof.Machine

open Sys2Proof Sys2Proof.Machine

/-- Settles O52: the loop comes to batch number `k` with fuel left, one unit a pair, and raises the encoder's error. -/
theorem encoderErrorAborts : Obligations.EncoderErrorAborts := by
  intro s ps n k answer e henc hb hpi hlen hps hn hk batch hroom hbatch hbits hanswers herr
  have hbefore : ∀ j, j < k → j * s.platform.batch < n := fun j hj =>
    (Nat.mul_le_mul_right _ hj.le).trans_lt hk
  have hfuel : n = n - k - 1 + 1 + k := by
    have : k < n := (Nat.le_mul_of_pos_right k hb).trans_lt hk
    omega
  have hloop : encodeFrom s.platform (s.piIn.extractLsb' 0 16) ps n n 0 = raise (.channelEncoder e) := by
    calc encodeFrom s.platform (s.piIn.extractLsb' 0 16) ps n n 0
        = encodeFrom s.platform (s.piIn.extractLsb' 0 16) ps n (n - k - 1 + 1 + k) 0 := by rw [← hfuel]
      _ = encodeFrom s.platform (s.piIn.extractLsb' 0 16) ps n (n - k - 1 + 1) k :=
        encodeFrom_zero_of_batchesPass hbefore (batchPasses_of_answered hbatch hbits hanswers) _
      _ = raise (.channelEncoder e) := encodeFrom_succ_of_err hk hbatch herr _
  rw [exec, execBitstream_eq_encodeFrom henc hb hpi hlen hps hn hroom, hloop, ← abort_channelEncoder]
  rfl

end

section
/-! The differential encoder as a running parity, which restarts with every command and does not see the first bit (R130
to R134: O29 to O32). -/

namespace Sys2Proof.Machine

/-! ### The chain -/

/-- Output `k` of the chain is the parity of the starting bit and the inputs up to `k`. -/
theorem getElem_xorChain (prev : Bit) (cs : List Bit) (k : Nat) (h : k < (xorChain prev cs).length) :
    (xorChain prev cs)[k] = (cs.take (k + 1)).foldl (· ^^ ·) prev := by
  induction cs generalizing prev k with
  | nil => simp [xorChain] at h
  | cons c cs ih =>
    cases k with
    | zero => simp [xorChain]
    | succ k => simpa [xorChain] using ih (prev ^^ c) k _

/-- A chain goes on from the parity of what came before. -/
theorem xorChain_append (prev : Bit) (as bs : List Bit) :
    xorChain prev (as ++ bs) = xorChain prev as ++ xorChain (as.foldl (· ^^ ·) prev) bs := by
  induction as generalizing prev with
  | nil => rfl
  | cons a as ih => simp [xorChain, ih]

/-- A change of the starting bit reaches every output. -/
theorem xorChain_xor (prev v : Bit) (cs : List Bit) :
    xorChain (prev ^^ v) cs = (xorChain prev cs).map (· ^^ v) := by
  induction cs generalizing prev with
  | nil => rfl
  | cons c cs ih => rw [xorChain, xorChain, Bool.xor_right_comm, ih, List.map_cons]

/-! ### The encoder -/

theorem diffenc_cons (b : Bit) (cs : List Bit) : diffenc (b :: cs) = false :: xorChain false cs := rfl

/-- The encoder is the chain that starts at its own first input, which cancels there. -/
theorem diffenc_eq_xorChain_headD (cs : List Bit) : diffenc cs = xorChain (cs.headD false) cs := by
  cases cs with
  | nil => rfl
  | cons b cs => simp [diffenc, xorChain]

theorem getElem?_zero_diffenc {cs : List Bit} (h : cs ≠ []) : (diffenc cs)[0]? = some false := by
  obtain ⟨b, bs, rfl⟩ := List.exists_cons_of_ne_nil h
  rfl

/-- R133: bit `k` is the parity of the inputs from index 1 to `k`. -/
theorem getElem_diffenc (cs : List Bit) (k : Nat) (h : k < (diffenc cs).length) :
    (diffenc cs)[k] = ((cs.take (k + 1)).drop 1).foldl (· ^^ ·) false := by
  cases cs with
  | nil => simp [diffenc] at h
  | cons b cs =>
    cases k with
    | zero => simp [diffenc]
    | succ k => simpa [diffenc] using getElem_xorChain false cs k _

/-- R131: each bit differs from its predecessor exactly where the input bit is 1. -/
theorem getElem_succ_diffenc_xor (cs : List Bit) (k : Nat) (h : k + 1 < cs.length)
    (h' : k + 1 < (diffenc cs).length) : ((diffenc cs)[k + 1] ^^ (diffenc cs)[k]) = cs[k + 1] := by
  have hinputs : (cs.take (k + 1 + 1)).drop 1 = (cs.take (k + 1)).drop 1 ++ [cs[k + 1]] := by
    rw [List.take_succ_eq_append_getElem h, List.drop_append_of_le_length (by simp; omega)]
  rw [getElem_diffenc, getElem_diffenc, hinputs, List.foldl_append]
  simp [Bool.xor_comm]

/-- R134: what the second part becomes behind a first one: its own encoding, complemented throughout or not at all. -/
theorem exists_diffenc_append (c₁ c₂ : List Bit) :
    ∃ v, diffenc (c₁ ++ c₂) = diffenc c₁ ++ (diffenc c₂).map (· ^^ v) := by
  cases c₁ with
  | nil => exact ⟨false, by simp [diffenc]⟩
  | cons b as =>
    have hstart (p : Bit) : (c₂.headD false ^^ (c₂.headD false ^^ p)) = p := by simp
    exact ⟨c₂.headD false ^^ as.foldl (· ^^ ·) false, by
      rw [List.cons_append, diffenc_cons, diffenc_cons, xorChain_append, diffenc_eq_xorChain_headD c₂, ← xorChain_xor,
        hstart, List.cons_append]⟩

/-! ### The commands that encode -/

theorem exec_diffEnc_of_fits {s : State} (h : fits s.platform.maxLen s.bitsIn.length = true) :
    exec .diffEnc s = .next (succeededWith (.bits (diffenc s.bitsIn)) s) := by
  rw [exec, execDiffEnc_eq, if_pos h, succeed_eq_succeededWith]

/-- R130: the result of a DIFF_ENC that completes. -/
theorem eq_diffenc_of_exec_diffEnc {s t : State} {d : List Bit} (h : exec .diffEnc s = .next t)
    (hout : t.out = .bits d) : d = diffenc s.bitsIn := by
  rw [exec, execDiffEnc_eq] at h
  split at h
  · cases h
    exact (Out.bits.inj hout).symm
  · cases h

theorem outOf_congr {x y : Host.Outcome State Fault Refusal} (h : visible x = visible y) : outOf x = outOf y := by
  cases x <;> cases y <;> simp_all [visible, outOf]

section Encoded
variable {s u : State} (hp : s.platform = u.platform) (hbits : diffenc s.bitsIn = diffenc u.bitsIn)
include hp hbits

theorem visible_execDiffEnc_congr_of_diffenc : visible (execDiffEnc s) = visible (execDiffEnc u) := by
  have hlen : s.bitsIn.length = u.bitsIn.length := by simpa using congrArg List.length hbits
  simp only [execDiffEnc_eq, apply_ite visible, visible_succeed, hp, hlen, hbits]

/-- R170: UNMOD sees its bits only through their encoding. -/
theorem visible_execUnmod_congr_of_diffenc (hrate : s.sampleRate = u.sampleRate) (hnans : s.nanCount = u.nanCount) :
    visible (execUnmod s) = visible (execUnmod u) := by
  have hlen : s.bitsIn.length = u.bitsIn.length := by simpa using congrArg List.length hbits
  simp only [execUnmod_eq, apply_ite visible, visible_abort, visible_succeedSamples, hp, hlen, hbits, hrate, hnans]

end Encoded

end Sys2Proof.Machine

open Sys2Proof Sys2Proof.Machine

/-- Settles O29: the encoder's result, and its recurrence. -/
theorem diffEncEncodes : Obligations.DiffEncEncodes := by
  intro s hroom
  refine ⟨diffenc s.bitsIn, exec_diffEnc_of_fits hroom, diffenc_length _, ?_, getElem_succ_diffenc_xor _⟩
  cases hbits : s.bitsIn with
  | nil => simp [diffenc]
  | cons b cs => simp [diffenc]

/-- Settles O30: the encoder is a running parity. -/
theorem diffEncClosedForm : Obligations.DiffEncClosedForm := by
  intro s t d h hout
  obtain rfl := eq_diffenc_of_exec_diffEnc h hout
  exact ⟨diffenc_length _, getElem_diffenc _⟩

/-- Settles O31: neither command sees its bits but through their encoding, which drops the first; the recurrence gives the
others back. -/
theorem firstCodedBitIsLost : Obligations.FirstCodedBitIsLost := by
  constructor
  · intro s b b' cs
    have hbits : diffenc (b :: cs) = diffenc (b' :: cs) := by rw [diffenc_cons, diffenc_cons]
    exact ⟨outOf_congr (visible_execDiffEnc_congr_of_diffenc rfl hbits),
      outOf_congr (visible_execUnmod_congr_of_diffenc rfl hbits rfl rfl), getElem?_zero_diffenc (by simp)⟩
  · intro cs k h h'
    exact (getElem_succ_diffenc_xor cs k h h').symm

/-- Settles O32: behind the first part the second one's encoding, which starts at 0, is complemented or not throughout, so
the bit at the split tells which. -/
theorem splitEncodingDiffers : Obligations.SplitEncodingDiffers := by
  intro s t₁ t₂ t c₁ c₂ d₁ d₂ d _ hc₂ h₁ hd₁ h₂ hd₂ h hd
  obtain rfl : d₁ = diffenc c₁ := eq_diffenc_of_exec_diffEnc h₁ hd₁
  obtain rfl : d₂ = diffenc c₂ := eq_diffenc_of_exec_diffEnc h₂ hd₂
  obtain rfl : d = diffenc (c₁ ++ c₂) := eq_diffenc_of_exec_diffEnc h hd
  obtain ⟨v, hv⟩ := exists_diffenc_append c₁ c₂
  have hzero := getElem?_zero_diffenc hc₂
  rw [hv]
  refine ⟨v, ?_, ?_, fun k x hk hx => ?_⟩
  · simp [List.getElem?_append_right, hzero]
  · simp [List.getElem?_append_right, hzero]
  · have hpast : (diffenc c₁).length ≤ k := (diffenc_length c₁).trans_le hk
    rw [List.getElem?_append_right hpast, List.getElem?_map, Option.map_eq_some_iff] at hx
    obtain ⟨y, hy, rfl⟩ := hx
    rw [List.getElem?_append_right hpast, hy, Bool.xor_assoc, Bool.xor_self, Bool.xor_false]

end

section
/-! The biphase expander: a symbol is a pair of impulses over a constant, whether its samples are read as values, as
patterns or as rationals (R140 to R145: O33 to O35). -/

namespace Sys2Proof.Machine

/-! ### A pair of impulses -/

/-- The shape of R142's prototype over any samples: `a` at offset 0, `b` at offset (n div 2) − 1, `z` elsewhere. -/
def impulsePair {α : Type} (n : Nat) (z a b : α) : List α := ((List.replicate n z).set 0 a).set (n / 2 - 1) b

theorem prototype_eq_impulsePair (spb : Nat) : prototype spb = impulsePair spb valZero valOne valNegOne := rfl

@[simp] theorem impulsePair_length {α : Type} (n : Nat) (z a b : α) : (impulsePair n z a b).length = n := by
  simp [impulsePair]

@[simp] theorem map_impulsePair {α β : Type} (f : α → β) (n : Nat) (z a b : α) :
    (impulsePair n z a b).map f = impulsePair n (f z) (f a) (f b) := by
  simp [impulsePair, List.map_set]

/-- From four samples on, the two writes do not meet (R142). -/
theorem getElem?_impulsePair {α : Type} {n o : Nat} (hn : 4 ≤ n) (ho : o < n) (z a b : α) :
    (impulsePair n z a b)[o]? = some (if o = 0 then a else if o = n / 2 - 1 then b else z) := by
  rcases eq_or_ne o 0 with rfl | hfirst
  · simp [impulsePair, show n / 2 - 1 ≠ 0 by omega, ho]
  · rcases eq_or_ne o (n / 2 - 1) with rfl | hsecond
    · simp [impulsePair, hfirst, ho]
    · simp [impulsePair, hfirst, hfirst.symm, hsecond, hsecond.symm, ho]

/-- Up to their order, the samples are the two impulses and the constant for the others. -/
theorem impulsePair_perm {α : Type} {n : Nat} (hn : 4 ≤ n) (z a b : α) :
    (impulsePair n z a b).Perm (b :: a :: List.replicate (n - 2) z) := by
  obtain ⟨m, rfl⟩ := Nat.exists_eq_add_of_le' (show 1 ≤ n by omega)
  obtain ⟨j, hj⟩ := Nat.exists_eq_add_of_le' (show 1 ≤ (m + 1) / 2 - 1 by omega)
  have hfirst : (List.replicate (m + 1) z).set 0 a = a :: List.replicate m z := rfl
  have hothers : (a :: List.replicate m z).eraseIdx (j + 1) = a :: List.replicate (m + 1 - 2) z := by
    rw [List.eraseIdx_cons_succ, List.eraseIdx_replicate, if_pos (by omega)]
    rfl
  rw [impulsePair, hfirst, hj, ← hothers]
  exact List.set_perm_cons_eraseIdx (by simp; omega) b

/-- R144: impulses 1 and −1, in either order, over zeros. -/
theorem impulsePair_balanced {n : Nat} (hn : 4 ≤ n) {q : ℚ} (hq : q = 1 ∨ q = -1) :
    (impulsePair n 0 q (-q)).sum = 0 ∧ (impulsePair n 0 q (-q)).count 1 = 1 ∧
      (impulsePair n 0 q (-q)).count (-1) = 1 ∧ (impulsePair n 0 q (-q)).count 0 = n - 2 := by
  have hperm := impulsePair_perm hn 0 q (-q)
  have hone : (1 : ℚ) ≠ -1 := by norm_num
  rw [hperm.sum_eq, hperm.count_eq, hperm.count_eq, hperm.count_eq]
  rcases hq with rfl | rfl
  · simp [List.count_replicate, hone, hone.symm]
  · simp [List.count_replicate, hone, hone.symm]

/-! ### The samples of one bit -/

/-- The patterns of a bit's symbol (R145). -/
def symbolPatterns (spb : Nat) (bit : Bit) : List F64 :=
  if bit then impulsePair spb 0x0000000000000000#64 0x3FF0000000000000#64 0xBFF0000000000000#64
  else impulsePair spb 0x8000000000000000#64 0xBFF0000000000000#64 0x3FF0000000000000#64

@[simp] theorem symbolPatterns_length (spb : Nat) (b : Bit) : (symbolPatterns spb b).length = spb := by
  cases b <;> simp [symbolPatterns]

theorem fmul_valZero_valNegOne : fmul valZero valNegOne = valOf 0x8000000000000000#64 := by decide +kernel

theorem fmul_valOne_valNegOne : fmul valOne valNegOne = valOf 0xBFF0000000000000#64 := by decide +kernel

theorem fmul_valNegOne_valNegOne : fmul valNegOne valNegOne = valOf 0x3FF0000000000000#64 := by decide +kernel

/-- R143: what ties the patterns to the symbol: the product of each of the prototype's three samples with −1.0. -/
theorem symbolOf_eq_map_valOf (spb : Nat) (b : Bit) : symbolOf spb b = (symbolPatterns spb b).map valOf := by
  cases b with
  | false =>
    simp [symbolOf, symbolPatterns, prototype_eq_impulsePair, fmul_valZero_valNegOne, fmul_valOne_valNegOne,
      fmul_valNegOne_valNegOne]
  | true => simp [symbolOf, symbolPatterns, prototype_eq_impulsePair, valZero, valOne, valNegOne]

theorem getElem?_symbolPatterns {spb o : Nat} (hspb : 4 ≤ spb) (ho : o < spb) (b : Bit) :
    (symbolPatterns spb b)[o]? = some (
      if o = 0 then (if b then 0x3FF0000000000000#64 else 0xBFF0000000000000#64)
      else if o = spb / 2 - 1 then (if b then 0xBFF0000000000000#64 else 0x3FF0000000000000#64)
      else (if b then 0x0000000000000000#64 else 0x8000000000000000#64)) := by
  cases b <;> exact getElem?_impulsePair hspb ho ..

theorem toRat_valOf_zero : (valOf 0x0000000000000000#64).toRat = 0 := by decide +kernel

theorem toRat_valOf_neg_zero : (valOf 0x8000000000000000#64).toRat = 0 := by decide +kernel

theorem toRat_valOf_one : (valOf 0x3FF0000000000000#64).toRat = 1 := by decide +kernel

theorem toRat_valOf_neg_one : (valOf 0xBFF0000000000000#64).toRat = -1 := by decide +kernel

/-- As rationals a symbol is a pair of opposite impulses over zeros, the first with the bit's polarity. -/
theorem map_toRat_symbolPatterns (spb : Nat) (b : Bit) :
    (symbolPatterns spb b).map (fun y => (valOf y).toRat) =
      impulsePair spb 0 (if b then 1 else -1) (-(if b then 1 else -1)) := by
  cases b with
  | false => simp [symbolPatterns, toRat_valOf_neg_zero, toRat_valOf_one, toRat_valOf_neg_one]
  | true => simp [symbolPatterns, toRat_valOf_zero, toRat_valOf_one, toRat_valOf_neg_one]

/-! ### The samples of a bit sequence -/

/-- Where each element gives `n` results, element `k` gives those from index `k · n` on. -/
theorem take_drop_flatMap {α β : Type} {f : α → List β} {n : Nat} (hf : ∀ x, (f x).length = n) {xs : List α} {k : Nat}
    (hk : k < xs.length) : ((xs.flatMap f).drop (k * n)).take n = f xs[k] := by
  induction xs generalizing k with
  | nil => simp at hk
  | cons x xs ih =>
    cases k with
    | zero => simp [← hf x]
    | succ k =>
      have hskip : (k + 1) * n = (f x).length + k * n := by rw [hf, Nat.succ_mul, Nat.add_comm]
      rw [List.flatMap_cons, hskip, ← List.drop_drop, List.drop_left, ih (by simpa using hk), List.getElem_cons_succ]

/-- R141: bit `k` owns the samples from index `k · SPB` on. -/
theorem take_drop_symbols {spb k : Nat} {bits : List Bit} (hk : k < bits.length) :
    ((bits.flatMap (symbolPatterns spb)).drop (k * spb)).take spb = symbolPatterns spb bits[k] :=
  take_drop_flatMap (symbolPatterns_length spb) hk

theorem impulses_eq_map_valOf (spb : Nat) (bits : List Bit) :
    impulses spb bits = (bits.flatMap (symbolPatterns spb)).map valOf := by
  rw [impulses, List.map_flatMap, funext (symbolOf_eq_map_valOf spb)]

/-- Values that are no NaNs are published as the patterns they came from, and draw no free pattern. -/
theorem publish_map_valOf (id n : Nat) {xs : List F64} (h : ∀ v ∈ xs.map valOf, v ≠ .nan) :
    publish id n (xs.map valOf) = (xs, n) := by
  induction xs with
  | nil => rfl
  | cons x xs ih =>
    obtain ⟨hx, hxs⟩ := List.forall_mem_cons.1 h
    simp [publish, hx, pattern_valOf _ hx, ih hxs]

/-! ### The command -/

theorem succeedSamples_impulses (spb : Nat) (bits : List Bit) (s : State) :
    succeedSamples (impulses spb bits) s = succeededWith (.samples (bits.flatMap (symbolPatterns spb))) s := by
  have hnan : ∀ v ∈ (bits.flatMap (symbolPatterns spb)).map valOf, v ≠ .nan := by
    rw [← impulses_eq_map_valOf]
    exact fun _ => ne_nan_of_mem_impulses
  rw [succeedSamples, impulses_eq_map_valOf, publish_map_valOf _ _ hnan, succeed_eq_succeededWith]

/-- R140: the result of a BIPHASE that completes with samples. -/
theorem eq_symbols_of_exec_biphase {s t : State} {ys : List F64} (h : exec .biphase s = .next t)
    (hout : t.out = .samples ys) : 4 ≤ s.spb.toNat ∧ ys = s.bitsIn.flatMap (symbolPatterns s.spb.toNat) := by
  rw [exec, execBiphase_eq] at h
  split at h
  · split at h
    · cases h
      cases hout
    · next hspb =>
      split at h
      · cases h
        rw [succeedSamples_impulses] at hout
        exact ⟨not_lt.1 hspb, (Out.samples.inj hout).symm⟩
      · cases h
  · cases h

theorem abort_degenerateParameters (s : State) : abort .degenerateParameters s = failedWith 3 none s := rfl

end Sys2Proof.Machine

open Sys2Proof Sys2Proof.Machine

/-- Settles O33: the samples of bit `k` are its symbol's, and a symbol is a pair of impulses. -/
theorem biphaseSymbols : Obligations.BiphaseSymbols := by
  intro s hspb hbits hroom hresult
  refine ⟨s.bitsIn.flatMap (symbolPatterns s.spb.toNat), ?_, by simp, fun k o hk ho => ?_⟩
  · rw [exec, execBiphase_eq, if_pos hbits, if_neg hspb.not_gt, if_pos ⟨hroom, hresult⟩, succeedSamples_impulses]
  · rw [← getElem?_symbolPatterns hspb ho, ← take_drop_symbols hk, List.getElem?_take_of_lt ho, List.getElem?_drop]

/-- Settles O34: as rationals a bit's samples are 1, −1 and zeros in some order. -/
theorem symbolsAreBalanced : Obligations.SymbolsAreBalanced := by
  intro s t ys k h hout hk
  obtain ⟨hspb, rfl⟩ := eq_symbols_of_exec_biphase h hout
  rw [take_drop_symbols hk, map_toRat_symbolPatterns]
  exact ⟨impulsePair_length .., impulsePair_balanced hspb (by split <;> simp)⟩

/-- Settles O35: SPB is checked before the input is looked at. -/
theorem biphaseRejectsSmallSpb : Obligations.BiphaseRejectsSmallSpb := by
  intro s hspb hbits
  rw [exec, execBiphase_eq, if_pos hbits, if_pos hspb, abort_degenerateParameters]

end

section
/-! The convolution of R155: its outputs are the index sums, none of them −0.0, and a declared CONV opens the sign of a
zero and nothing else (R156 to R159: O36, O37, O45, O46, O60). -/

namespace Sys2Proof.Machine

/-! ### Published values -/

/-- R12: a canonical value is recovered from its pattern. -/
theorem valOf_pattern {v : Val} (hv : v.Canonical) (nb : NaNBits) : valOf (v.pattern nb) = v := by
  cases v with
  | nan => exact valOf_pattern_nan nb
  | inf neg => rw [Val.pattern, valOf_patternOf neg (by decide), ofMag_infMag]
  | fin neg mant exp =>
    obtain ⟨hmant, hexp, hfull⟩ := hv
    have hmag : exp * 2 ^ 52 + mant < infMag := by unfold infMag; omega
    rw [Val.pattern, valOf_patternOf neg (hmag.trans (by decide)), Val.ofMag, if_neg (by omega), if_neg (by omega)]
    split
    · congr 1 <;> omega
    · congr 1 <;> omega

theorem map_valOf_publish (id n : Nat) {vs : List Val} (h : ∀ v ∈ vs, v.Canonical) :
    (publish id n vs).1.map valOf = vs := by
  induction vs generalizing n with
  | nil => rfl
  | cons v vs ih =>
    obtain ⟨hv, hvs⟩ := List.forall_mem_cons.1 h
    simp only [publish, List.map_cons, valOf_pattern hv, ih _ hvs]

/-! ### Sums that are not −0.0 -/

/-- What a sum of R155 comes to: a canonical value other than −0.0. -/
structure Val.SumValue (v : Val) : Prop where
  canonical : v.Canonical
  ne_negZero : v ≠ .fin true 0 0

theorem eq_zero_of_ofMag_eq_fin_zero {neg n : Bool} {mag e : Nat} (h : Val.ofMag neg mag = .fin n 0 e) : mag = 0 := by
  unfold Val.ofMag at h
  split at h
  · cases h
  · split at h
    · cases h
    · split at h
      · cases h; rfl
      · injection h; omega

/-- A multiple of the least positive value never rounds to 0. -/
theorem roundMag_unitScale_ne_zero {num : Nat} (h : num ≠ 0) : roundMag num unitScale ≠ 0 := by
  obtain ⟨n, p, hround, -, hupper, hchoice⟩ := roundMag_roundsBetween num unitScale_pos
  rw [div_mul_cancel₀ _ cast_unitScale_pos.ne'] at hupper
  have hn : n ≠ 0 := by
    rintro rfl
    have hone : (num : ℚ) < 1 := by simpa [magUnits] using hupper
    exact h (Nat.lt_one_iff.1 (by exact_mod_cast hone))
  rw [hround]
  unfold infMag
  omega

/-- R157: a sum is −0.0 only when both terms are. -/
theorem fadd_ne_negZero {x : Val} (hx : x.SumValue) (y : Val) : fadd x y ≠ .fin true 0 0 := by
  obtain ⟨hcanonical, hnegZero⟩ := hx
  cases x with
  | nan => nofun
  | inf n₁ =>
    cases y with
    | nan => nofun
    | inf n₂ => simp only [fadd]; split <;> nofun
    | fin n₂ m₂ e₂ => nofun
  | fin n₁ m₁ e₁ =>
    cases y with
    | nan => nofun
    | inf n₂ => nofun
    | fin n₂ m₂ e₂ =>
      simp only [fadd]
      split
      · next hzeros =>
        obtain ⟨rfl, -⟩ := hzeros
        obtain rfl : e₁ = 0 := by obtain ⟨-, -, he⟩ := hcanonical; omega
        cases n₁ <;> simp_all
      · split
        · nofun
        · next hsum =>
          exact fun h => roundMag_unitScale_ne_zero (Int.natAbs_ne_zero.2 hsum) (eq_zero_of_ofMag_eq_fin_zero h)

theorem valZero_eq : valZero = .fin false 0 0 := by decide

theorem sumValue_valZero : valZero.SumValue := ⟨valOf_canonical _, by decide⟩

theorem Val.SumValue.fadd {x : Val} (hx : x.SumValue) (y : Val) : (fadd x y).SumValue :=
  ⟨fadd_canonical x y, fadd_ne_negZero hx y⟩

theorem sumValue_convAt (x h : List Val) (m : Nat) : (convAt x h m).SumValue :=
  List.foldlRecOn _ fadd sumValue_valZero fun _ hacc v _ => hacc.fadd v

/-! ### The terms of an output -/

/-- The products of R155 for output `m`, in ascending order of the input's index. -/
def convTerms (x h : List Val) (m : Nat) : List Val :=
  (List.range' (m + 1 - h.length) (min m (x.length - 1) + 1 - (m + 1 - h.length))).map
    fun j => fmul (x.getD j .nan) (h.getD (m - j) .nan)

theorem convSum_eq_foldl (x h : List Val) (m : Nat) : convSum x h m = (convTerms x h m).foldl fadd valZero := by
  rw [convSum, convTerms, List.foldl_map]

/-- The model's slices of input and kernel hold the factors of R155's products. -/
theorem zipWith_slices_eq_convTerms {x : List Val} (hx : x ≠ []) (h : List Val) (m : Nat) :
    let lo := m + 1 - h.length
    let hi := min m (x.length - 1)
    let count := hi + 1 - lo
    List.zipWith fmul ((x.drop lo).take count) ((h.drop (m - hi)).take count).reverse = convTerms x h m := by
  intro lo hi count
  have hN : 0 < x.length := List.length_pos_iff.2 hx
  have hxs : ((x.drop lo).take count).length = count := by simp; omega
  have hhs : ((h.drop (m - hi)).take count).length = count := by simp; omega
  refine List.ext_getElem (by simp [convTerms, hxs, hhs, count, lo, hi]) fun i hi₁ hi₂ => ?_
  have hi : i < count := by simpa [convTerms] using hi₂
  simp only [convTerms, List.getElem_zipWith, List.getElem_take, List.getElem_drop, List.getElem_reverse, hhs,
    List.getElem_map, List.getElem_range']
  rw [List.getD_eq_getElem _ _ (by omega), List.getD_eq_getElem _ _ (by omega)]
  congr 2 <;> omega

/-- R155: the model's output is the index sum. -/
theorem convAt_eq_convSum {x : List Val} (hx : x ≠ []) (h : List Val) (m : Nat) : convAt x h m = convSum x h m := by
  rw [convSum_eq_foldl, ← zipWith_slices_eq_convTerms hx]
  rfl

theorem mem_convTerms {x h : List Val} {m j : Nat} (hj : j < x.length) (hjm : j ≤ m) (hwindow : m < j + h.length) :
    fmul x[j] h[m - j] ∈ convTerms x h m := by
  refine List.mem_map.2 ⟨j, List.mem_range'_1.2 (by omega), ?_⟩
  rw [List.getD_eq_getElem _ _ hj, List.getD_eq_getElem]

/-- One input sample makes outputs of one term. -/
theorem convTerms_singleton (v : Val) {h : List Val} {m : Nat} (hm : m < h.length) :
    convTerms [v] h m = [fmul v h[m]] := by
  rw [convTerms, show m + 1 - h.length = 0 by omega]
  simp [hm]

/-! ### NaN and infinity in a sum -/

theorem fadd_nan_right (v : Val) : fadd v .nan = .nan := by cases v <;> rfl

theorem fmul_nan_right (v : Val) : fmul v .nan = .nan := by cases v <;> rfl

theorem fadd_not_isFin_left {v : Val} (hv : v.isFin = false) (w : Val) : (fadd v w).isFin = false := by
  cases v with
  | nan => rfl
  | inf n =>
    cases w with
    | nan => rfl
    | inf n' => simp only [fadd]; split <;> rfl
    | fin n' m e => rfl
  | fin n m e => cases hv

theorem fadd_not_isFin_right (v : Val) {w : Val} (hw : w.isFin = false) : (fadd v w).isFin = false := by
  cases w with
  | nan => rw [fadd_nan_right]; rfl
  | inf n =>
    cases v with
    | nan => rfl
    | inf n' => simp only [fadd]; split <;> rfl
    | fin n' m e => rfl
  | fin n m e => cases hw

theorem fmul_inf_not_isFin (n : Bool) (v : Val) : (fmul (.inf n) v).isFin = false := by
  cases v with
  | nan => rfl
  | inf n' => rfl
  | fin n' m e => simp only [fmul]; split <;> rfl

theorem fadd_valZero_of_not_isFin {v : Val} (hv : v.isFin = false) : fadd valZero v = v := by
  rw [valZero_eq]
  cases v with
  | nan => rfl
  | inf n => rfl
  | fin n m e => cases hv

/-- A property that either term of a sum hands on to it holds of every sum with such a term. -/
theorem foldl_fadd_of_mem {p : Val → Prop} (hleft : ∀ v w, p v → p (fadd v w)) (hright : ∀ v w, p w → p (fadd v w))
    {vs : List Val} {v : Val} (hmem : v ∈ vs) (hv : p v) (acc : Val) : p (vs.foldl fadd acc) := by
  obtain ⟨before, after, rfl⟩ := List.append_of_mem hmem
  rw [List.foldl_append, List.foldl_cons]
  exact List.foldlRecOn after fadd (hright _ _ hv) fun acc hacc w _ => hleft acc w hacc

theorem convSum_eq_nan_of_mem {x h : List Val} {m : Nat} (hmem : .nan ∈ convTerms x h m) : convSum x h m = .nan := by
  rw [convSum_eq_foldl]
  exact foldl_fadd_of_mem (p := (· = .nan)) (fun v w hv => by rw [hv]; rfl)
    (fun v w hw => by rw [hw, fadd_nan_right]) hmem rfl valZero

theorem convSum_not_isFin_of_mem {x h : List Val} {m : Nat} {v : Val} (hmem : v ∈ convTerms x h m)
    (hv : v.isFin = false) :
    (convSum x h m).isFin = false := by
  rw [convSum_eq_foldl]
  exact foldl_fadd_of_mem (p := (·.isFin = false)) (fun _ w hv => fadd_not_isFin_left hv w)
    (fun v _ hw => fadd_not_isFin_right v hw) hmem hv valZero

/-! ### The platform's convolution -/

/-- `w` is `v` but for the sign of a zero (R157, R158). -/
def SameButZeroSign (v w : Val) : Prop := w = v ∨ (v = valZero ∧ w = .fin true 0 0)

theorem sameButZeroSign_withZeroSign (neg : Bool) {v : Val} (hv : v.SumValue) :
    SameButZeroSign v (withZeroSign neg v) := by
  rcases withZeroSign_cases neg v with h | ⟨⟨n, e, rfl⟩, h⟩
  · exact .inl h
  · obtain ⟨⟨-, -, he⟩, hne⟩ := hv
    obtain rfl : e = 0 := by omega
    obtain rfl : n = false := by cases n <;> simp_all
    cases neg
    · exact .inl h
    · exact .inr ⟨valZero_eq.symm, h⟩

theorem sameButZeroSign_convOutput (conv : ConvBinding) (x h : List Val) (m : Nat) :
    SameButZeroSign (convAt x h m) (convOutput conv x h m) := by
  cases conv with
  | direct => exact .inl rfl
  | other id => exact sameButZeroSign_withZeroSign _ (sumValue_convAt x h m)

/-- A value that is no zero is the default convolution's own. -/
theorem SameButZeroSign.eq {v w : Val} (h : SameButZeroSign v w) (hv : v ≠ valZero) : w = v :=
  h.resolve_right fun hzero => hv hzero.1

/-- R159: no CONV changes an output that is not finite. -/
theorem convOutput_eq_convSum {conv : ConvBinding} {x h : List Val} {m : Nat} (hx : x ≠ [])
    (hsum : (convSum x h m).isFin = false) : convOutput conv x h m = convSum x h m := by
  rw [← convAt_eq_convSum hx] at hsum ⊢
  refine (sameButZeroSign_convOutput conv x h m).eq fun hzero => ?_
  rw [hzero] at hsum
  exact absurd hsum (by decide)

theorem convOutput_eq_nan_of_mem {conv : ConvBinding} {x h : List Val} {m : Nat} (hx : x ≠ [])
    (hmem : .nan ∈ convTerms x h m) : convOutput conv x h m = .nan := by
  have hsum := convSum_eq_nan_of_mem hmem
  rw [convOutput_eq_convSum hx (by rw [hsum]; rfl), hsum]

/-- A lone infinite sample meets each tap by itself. -/
theorem convOutput_singleton_inf (conv : ConvBinding) (n : Bool) {h : List Val} {m : Nat} (hm : m < h.length) :
    convOutput conv [.inf n] h m = fmul (.inf n) h[m] := by
  have hsum : convSum [.inf n] h m = fmul (.inf n) h[m] := by
    rw [convSum_eq_foldl, convTerms_singleton _ hm]
    exact fadd_valZero_of_not_isFin (fmul_inf_not_isFin ..)
  rw [convOutput_eq_convSum (by simp) (by rw [hsum]; exact fmul_inf_not_isFin ..), hsum]

theorem SameButZeroSign.canonical {v w : Val} (h : SameButZeroSign v w) (hv : v.Canonical) : w.Canonical := by
  rcases h with rfl | ⟨-, rfl⟩
  · exact hv
  · exact ⟨by decide, by decide, .inl rfl⟩

theorem canonical_of_mem_convolve {conv : ConvBinding} {x h : List Val} {v : Val} (hv : v ∈ convolve conv x h) :
    v.Canonical := by
  obtain ⟨m, -, rfl⟩ := List.mem_map.1 hv
  exact (sameButZeroSign_convOutput conv x h m).canonical (sumValue_convAt x h m).canonical

/-- The samples that a convolution publishes. -/
def shapedSamples (p : Platform) (n : Nat) (x h : List Val) : List F64 := (publish p.nans n (convolve p.conv x h)).1

@[simp] theorem shapedSamples_length (p : Platform) (n : Nat) (x h : List Val) :
    (shapedSamples p n x h).length = x.length + h.length - 1 := by simp [shapedSamples]

theorem valOf_shapedSamples {p : Platform} {n : Nat} {x h : List Val} {m : Nat}
    (hm : m < (shapedSamples p n x h).length) : valOf (shapedSamples p n x h)[m] = convOutput p.conv x h m := by
  have hmap := map_valOf_publish p.nans n fun v => canonical_of_mem_convolve (conv := p.conv) (x := x) (h := h)
  have hget := List.getElem_of_eq hmap (i := m) (by simpa using hm)
  simpa [convolve, shapedSamples] using hget

/-- Where the index sum is a zero, the sample is a zero of either sign (R157). -/
theorem shapedSamples_of_convAt_eq_valZero {p : Platform} {n : Nat} {x h : List Val} {m : Nat}
    (hm : m < (shapedSamples p n x h).length) (hzero : convAt x h m = valZero) :
    (shapedSamples p n x h)[m] = 0x0000000000000000#64 ∨ (shapedSamples p n x h)[m] = 0x8000000000000000#64 := by
  have hval := valOf_shapedSamples hm
  have hpattern : ∀ nb, (valOf (shapedSamples p n x h)[m]).pattern nb = (shapedSamples p n x h)[m] := fun nb =>
    pattern_valOf nb (by
      rw [hval]
      rcases sameButZeroSign_convOutput p.conv x h m with h' | ⟨-, h'⟩
      · rw [h', hzero]; decide
      · rw [h']; nofun)
  rw [← hpattern ⟨false, 0⟩, hval]
  rcases sameButZeroSign_convOutput p.conv x h m with h' | ⟨-, h'⟩
  · rw [h', hzero]; exact .inl (by decide)
  · rw [h']; exact .inr (by decide)

/-! ### BIPHASE's samples -/

theorem mem_impulsePair {α : Type} {n : Nat} {z a b x : α} (h : x ∈ impulsePair n z a b) : x = z ∨ x = a ∨ x = b := by
  rcases List.mem_or_eq_of_mem_set h with h | rfl
  · rcases List.mem_or_eq_of_mem_set h with h | rfl
    · exact .inl (List.eq_of_mem_replicate h)
    · exact .inr (.inl rfl)
  · exact .inr (.inr rfl)

/-- R159: a symbol's samples are zeros and ones. -/
theorem isFin_of_mem_impulses {spb : Nat} {bits : List Bit} {v : Val} (h : v ∈ impulses spb bits) : v.isFin = true := by
  rw [impulses_eq_map_valOf] at h
  obtain ⟨y, hy, rfl⟩ := List.mem_map.1 h
  obtain ⟨b, -, hy⟩ := List.mem_flatMap.1 hy
  cases b with
  | false => rcases mem_impulsePair hy with rfl | rfl | rfl <;> decide
  | true => rcases mem_impulsePair hy with rfl | rfl | rfl <;> decide

/-! ### SHAPE's samples -/

/-- R150: the result of a SHAPE that completes with samples. -/
theorem eq_shapedSamples_of_exec_shape {s t : State} {ys : List F64} (h : exec .shape s = .next t)
    (hout : t.out = .samples ys) :
    ys = shapedSamples s.platform s.nanCount (s.impIn.map valOf)
      (kernel s.platform.kernels s.spb.toNat s.sampleRate.toNat) := by
  rw [exec, execShape_eq] at h
  split at h
  · split at h
    · cases h
      cases hout
    · split at h
      · cases h
        exact (Out.samples.inj hout).symm
      · cases h
  · cases h

/-! ### One state under different convolutions -/

/-- The state on a platform that declares another convolution. -/
def State.withConv (s : State) (conv : ConvBinding) : State := { s with platform := { s.platform with conv := conv } }

section WithConv
variable (s : State) (conv : ConvBinding)

@[simp] theorem withConv_maxLen : (s.withConv conv).platform.maxLen = s.platform.maxLen := rfl
@[simp] theorem withConv_kernels : (s.withConv conv).platform.kernels = s.platform.kernels := rfl
@[simp] theorem withConv_conv : (s.withConv conv).platform.conv = conv := rfl
@[simp] theorem withConv_spb : (s.withConv conv).spb = s.spb := rfl
@[simp] theorem withConv_sampleRate : (s.withConv conv).sampleRate = s.sampleRate := rfl
@[simp] theorem withConv_bitsIn : (s.withConv conv).bitsIn = s.bitsIn := rfl
@[simp] theorem withConv_impIn : (s.withConv conv).impIn = s.impIn := rfl

end WithConv

/-- Outcomes on the platforms that declare each convolution: one refusal, one error, or the samples of one input and one
kernel. -/
inductive ShapesAlike (s : State) (f : ConvBinding → Host.Outcome State Fault Refusal) : Prop
  | refused (r : Refusal) (h : ∀ conv, f conv = .refused r)
  | raised (e : Err) (h : ∀ conv, f conv = .next (abort e (s.withConv conv)))
  | samples (x h : List Val)
      (hsamples : ∀ conv, f conv = .next (succeedSamples (convolve conv x h) (s.withConv conv)))

/-- A check that does not look at CONV; only its decision procedure may name the state it is made in. -/
theorem ShapesAlike.of_check {s : State} {c : Prop} {inst : ConvBinding → Decidable c}
    {f g : ConvBinding → Host.Outcome State Fault Refusal} (hf : ShapesAlike s f) (hg : ShapesAlike s g) :
    ShapesAlike s fun conv => @ite _ c (inst conv) (f conv) (g conv) := by
  by_cases h : c
  · simpa only [if_pos h] using hf
  · simpa only [if_neg h] using hg

/-- R158: a shaping command looks at CONV for nothing but its samples. -/
theorem shapesAlike_exec {i : Instr} (hi : i = .shape ∨ i = .unmod) (s : State) :
    ShapesAlike s fun conv => exec i (s.withConv conv) := by
  rcases hi with rfl | rfl
  · simp only [exec, execShape_eq, withConv_maxLen, withConv_kernels, withConv_conv, withConv_spb, withConv_sampleRate,
      withConv_impIn]
    refine .of_check ?_ (.refused _ fun _ => rfl)
    refine .of_check (.raised _ fun _ => rfl) ?_
    exact .of_check (.samples _ _ fun _ => rfl) (.refused _ fun _ => rfl)
  · simp only [exec, execUnmod_eq, withConv_maxLen, withConv_kernels, withConv_conv, withConv_sampleRate,
      withConv_bitsIn]
    refine .of_check ?_ (.refused _ fun _ => rfl)
    refine .of_check (.raised _ fun _ => rfl) ?_
    refine .of_check ?_ (.refused _ fun _ => rfl)
    refine .of_check (.raised _ fun _ => rfl) ?_
    exact .of_check (.samples _ _ fun _ => rfl) (.refused _ fun _ => rfl)

/-! ### The samples of two convolutions -/

/-- A sample is the default's, bit by bit, or −0.0 in place of its +0.0 (R157, R158). -/
def SampleButZeroSign (y z : F64) : Prop := z = y ∨ (y = 0x0000000000000000#64 ∧ z = 0x8000000000000000#64)

/-- Values that differ in the sign of zeros alone draw the same NaNs and are published so. -/
theorem publish_of_sameButZeroSign (id : Nat) {vs ws : List Val} (h : List.Forall₂ SameButZeroSign vs ws) (n : Nat) :
    (publish id n ws).2 = (publish id n vs).2 ∧
      List.Forall₂ SampleButZeroSign (publish id n vs).1 (publish id n ws).1 := by
  induction h generalizing n with
  | nil => exact ⟨rfl, .nil⟩
  | cons hvw _ ih =>
    rcases hvw with rfl | ⟨rfl, rfl⟩
    · exact ⟨(ih _).1, .cons (.inl rfl) (ih _).2⟩
    · rw [valZero_eq]
      exact ⟨(ih n).1, .cons (.inr ⟨rfl, rfl⟩) (ih n).2⟩

theorem convolve_sameButZeroSign (conv : ConvBinding) (x h : List Val) :
    List.Forall₂ SameButZeroSign (convolve .direct x h) (convolve conv x h) := by
  simp only [convolve, List.forall₂_map_left_iff, List.forall₂_map_right_iff, List.forall₂_same]
  exact fun m _ => sameButZeroSign_convOutput conv x h m

/-- R157: a sample of the default convolution is not −0.0. -/
theorem negZero_not_mem_shapedSamples {p : Platform} (hconv : p.conv = .direct) (n : Nat) (x h : List Val) :
    0x8000000000000000#64 ∉ shapedSamples p n x h := by
  intro hmem
  obtain ⟨m, hm, hget⟩ := List.getElem_of_mem hmem
  have hval := valOf_shapedSamples hm
  rw [hget, hconv] at hval
  exact (sumValue_convAt x h m).ne_negZero (hval.symm.trans (by decide))

end Sys2Proof.Machine

open Sys2Proof Sys2Proof.Machine

/-- Settles O36: the slices of input and kernel hold the factors of R155's products in order, and another CONV changes
only the sign of a sum that is a zero. -/
theorem shapeConvolves : Obligations.ShapeConvolves := by
  intro s hspb hrate hinput himp hkernel hresult x h
  have hx : x ≠ [] := by simpa [x] using hinput
  have hlen : s.impIn.length ≠ 0 := by simpa using hinput
  refine ⟨shapedSamples s.platform s.nanCount x h,
    (publish s.platform.nans s.nanCount (convolve s.platform.conv x h)).2, ?_, by simp [x, h],
    fun m hm => ⟨fun hsum => ?_, fun hzero => ?_⟩⟩
  · rw [exec, execShape_eq, if_pos himp, if_neg (by tauto), if_pos ⟨hkernel, hresult⟩]
    rfl
  · rw [valOf_shapedSamples, ← convAt_eq_convSum hx]
    rcases hsum with hne | hdirect
    · rw [← convAt_eq_convSum hx] at hne
      exact (sameButZeroSign_convOutput ..).eq hne
    · rw [hdirect, convOutput]
  · exact shapedSamples_of_convAt_eq_valZero hm ((convAt_eq_convSum hx h m).trans hzero)

/-- Settles O45: a sum hands on a NaN term and a term that is not finite, wherever they stand, and a declared CONV
changes neither; the samples of a symbol are zeros and ones. -/
theorem nanAndInfinityPropagate : Obligations.NanAndInfinityPropagate := by
  refine ⟨fun v => ⟨fadd_nan_right v, rfl, fmul_nan_right v, rfl⟩, fun n n' e => ⟨rfl, rfl⟩,
    fun n => by cases n <;> rfl,
    fun n n' m e hm => ⟨by simp [fmul, hm], by simp [fmul, hm, Bool.xor_comm]⟩,
    fun n n' m e => ⟨rfl, by simp [fadd], rfl, rfl⟩, ?_, fun spb bits _ v hv => isFin_of_mem_impulses hv⟩
  intro s t ys m j hm hj hexec hout hjm hwindow h
  obtain rfl := eq_shapedSamples_of_exec_shape hexec hout
  have hx : s.impIn.map valOf ≠ [] := by simpa using List.ne_nil_of_length_pos (Nat.zero_lt_of_lt hj)
  have hterm := mem_convTerms (x := s.impIn.map valOf) (h := h) (by simpa using hj) hjm (by simpa [h] using hwindow)
  rw [List.getElem_map] at hterm
  rw [valOf_shapedSamples]
  refine ⟨fun hnan => ?_, fun n hinf => ?_⟩
  · rw [hnan] at hterm
    exact convOutput_eq_nan_of_mem hx hterm
  · rw [hinf] at hterm
    have hsum := convSum_not_isFin_of_mem hterm (fmul_inf_not_isFin ..)
    refine ⟨by rw [convOutput_eq_convSum hx hsum, hsum], fun n' e htap => ?_, fun hlen tap htap => ?_⟩
    · obtain ⟨_, htap⟩ := List.getElem?_eq_some_iff.1 htap
      rw [htap] at hterm
      exact convOutput_eq_nan_of_mem hx hterm
    · obtain ⟨hmh, rfl⟩ := List.getElem?_eq_some_iff.1 htap
      obtain ⟨y, hy⟩ := List.length_eq_one_iff.1 hlen
      obtain rfl : j = 0 := by omega
      have hsingle : s.impIn.map valOf = [.inf n] := by simpa [hy] using hinf
      rw [hsingle, convOutput_singleton_inf]

/-- Settles O46: a sum is −0.0 only when both terms are, and the sums of R155 begin at +0.0. -/
theorem noNegativeZeroSample : Obligations.NoNegativeZeroSample := by
  intro i s t ys hi hconv hexec hout
  have hself : s.withConv .direct = s := by rw [← hconv]; rfl
  rw [← hself] at hexec
  rcases shapesAlike_exec hi s with ⟨r, hr⟩ | ⟨e, he⟩ | ⟨x, h, hsamples⟩
  · rw [hr] at hexec
    cases hexec
  · rw [he] at hexec
    cases hexec
    cases hout
  · rw [hsamples, hself] at hexec
    cases hexec
    rw [← Out.samples.inj hout, ← hconv]
    exact negZero_not_mem_shapedSamples hconv s.nanCount x h

/-- Settles O60: on every CONV a shaping command takes the same checks, and publishes sums that differ in the sign of a
zero alone. -/
theorem declaredConvIsBitIdentical : Obligations.DeclaredConvIsBitIdentical := by
  intro i s id hi direct other
  rcases shapesAlike_exec hi s with ⟨r, hr⟩ | ⟨e, he⟩ | ⟨x, h, hsamples⟩
  · rw [show direct = _ from hr .direct, show other = _ from hr (.other id)]
    exact ⟨fun _ => Iff.rfl, fun t ht => by cases ht⟩
  · rw [show direct = _ from he .direct, show other = _ from he (.other id)]
    refine ⟨fun _ => by simp, fun t ht => ?_⟩
    cases ht
    exact ⟨_, rfl, rfl, rfl, rfl, rfl, fun _ => rfl, nofun⟩
  · rw [show direct = _ from hsamples .direct, show other = _ from hsamples (.other id)]
    refine ⟨fun _ => by simp, fun t ht => ?_⟩
    cases ht
    obtain ⟨hcount, hpublished⟩ :=
      publish_of_sameButZeroSign s.platform.nans (convolve_sameButZeroSign (.other id) x h) s.nanCount
    refine ⟨_, rfl, rfl, rfl, rfl, hcount, nofun, fun ys hys => ?_⟩
    rw [← Out.samples.inj hys]
    exact ⟨_, rfl, hpublished.length_eq.symm, fun m hy hz => hpublished.get hy hz⟩

/-- Settles O37: the three degenerate parameters are looked at before the kernel is. -/
theorem shapeRejectsDegenerate : Obligations.ShapeRejectsDegenerate := by
  intro s hdegenerate himp
  rw [exec, execShape_eq, if_pos himp, if_pos (by simpa using hdegenerate), abort_degenerateParameters]

end

section
/-! The bounds of π and of its cosines: each series is cut where its tail lies between 0 and the tail's first term (O39,
O40). -/

namespace Sys2Proof.Machine

/-! ### Floors of quotients -/

theorem cast_div_le_of_le {a b : Nat} {x y : ℝ} (ha : (a : ℝ) ≤ x) (hb : (b : ℝ) = y) :
    ((a / b : Nat) : ℝ) ≤ x / y := by
  subst hb
  exact Nat.cast_div_le.trans (by gcongr)

/-- A quotient's numerator may be less by 1 than a whole number known to bound it. -/
theorem le_cast_div_add_one_of_le_add_one {a b : Nat} {x y : ℝ} (ha : x ≤ a + 1) (hb : (b : ℝ) = y) :
    x / y ≤ ((a / b + 1 : Nat) : ℝ) := by
  subst hb
  rcases Nat.eq_zero_or_pos b with rfl | hpos
  · simp
  · rw [div_le_iff₀ (by exact_mod_cast hpos)]
    refine ha.trans ?_
    exact_mod_cast Nat.mul_comm .. ▸ Nat.lt_mul_div_succ a hpos

theorem le_cast_div_add_one_of_le {a b : Nat} {x y : ℝ} (ha : x ≤ a) (hb : (b : ℝ) = y) :
    x / y ≤ ((a / b + 1 : Nat) : ℝ) :=
  le_cast_div_add_one_of_le_add_one (by linarith) hb

/-! ### The tails of an alternating series -/

/-- The tail f k − f (k + 1) + f (k + 2) − … -/
noncomputable def altTail (f : ℕ → ℝ) (k : ℕ) : ℝ := ∑' j, (-1) ^ j * f (k + j)

section AltTail
variable {f : ℕ → ℝ} (hf : Summable fun j => (-1) ^ j * f j)
include hf

theorem summable_altTail (k : ℕ) : Summable fun j => (-1) ^ j * f (k + j) := by
  refine (((summable_nat_add_iff k).2 hf).mul_left ((-1) ^ k)).congr fun j => ?_
  rw [pow_add, add_comm k, ← mul_assoc, mul_comm ((-1) ^ j), ← mul_assoc, ← mul_pow]
  simp

theorem altTail_eq_sub (k : ℕ) : altTail f k = f k - altTail f (k + 1) := by
  rw [altTail, (summable_altTail hf k).tsum_eq_zero_add, altTail, sub_eq_add_neg, ← tsum_neg]
  simp [pow_succ, add_assoc, add_comm 1]

/-- From where the terms do not grow, a tail lies between 0 and its first term. -/
theorem altTail_mem_Icc {k : ℕ} (hanti : Antitone fun j => f (k + j)) : altTail f k ∈ Set.Icc 0 (f k) := by
  have hlim := (summable_altTail hf k).hasSum.tendsto_sum_nat
  exact ⟨by simpa [altTail] using hanti.alternating_series_le_tendsto hlim 0,
    by simpa [altTail] using hanti.tendsto_le_alternating_series hlim 0⟩

end AltTail

theorem altTail_zero {f : ℕ → ℝ} {l : ℝ} (hf : HasSum (fun j => (-1) ^ j * f j) l) : altTail f 0 = l := by
  simpa [altTail] using hf.tsum_eq

/-! ### Bounds of arctan(1/m) -/

/-- t_k of the series of arctan(1/m), in units of 2^−P. -/
noncomputable def atanPower (m P k : ℕ) : ℝ := 2 ^ P / m ^ (2 * k + 1)

noncomputable def atanTerm (m P k : ℕ) : ℝ := atanPower m P k / (2 * k + 1 : ℕ)

section Atan
variable {m : ℕ} (hm : 2 ≤ m) (P : ℕ)

theorem atanPower_succ (k : ℕ) : atanPower m P (k + 1) = atanPower m P k / (m * m) := by
  rw [atanPower, atanPower, div_div]
  ring_nf

include hm

theorem antitone_atanTerm : Antitone (atanTerm m P) := by
  refine antitone_nat_of_succ_le fun k => ?_
  have hm1 : (1 : ℝ) ≤ m * m := by exact_mod_cast Nat.mul_pos (by omega) (by omega)
  have hpower : atanPower m P (k + 1) ≤ atanPower m P k := by
    rw [atanPower_succ]
    exact div_le_self (by unfold atanPower; positivity) hm1
  unfold atanTerm
  exact div_le_div₀ (by unfold atanPower; positivity) hpower (by positivity) (by exact_mod_cast (by omega))

theorem hasSum_atanTerm : HasSum (fun j => (-1) ^ j * atanTerm m P j) (2 ^ P * Real.arctan (m : ℝ)⁻¹) := by
  have hnorm : ‖(m : ℝ)⁻¹‖ < 1 := by
    rw [norm_inv, RCLike.norm_natCast]
    exact inv_lt_one_of_one_lt₀ (by exact_mod_cast hm)
  have hterm (j : ℕ) :
      2 ^ P * ((-1) ^ j * (m : ℝ)⁻¹ ^ (2 * j + 1) / (2 * j + 1 : ℕ)) = (-1) ^ j * atanTerm m P j := by
    rw [atanTerm, atanPower, inv_pow]
    ring
  exact funext hterm ▸ (Real.hasSum_arctan hnorm).mul_left (2 ^ P)

/-- The model's tail bounds enclose the tail. -/
theorem atanTail_bounds (n : ℕ) {k tLo tHi : ℕ} (hlo : (tLo : ℝ) ≤ atanPower m P k) (hhi : atanPower m P k ≤ tHi) :
    ((atanTail m n k tLo tHi).1 : ℝ) ≤ altTail (atanTerm m P) k ∧
      altTail (atanTerm m P) k ≤ ((atanTail m n k tLo tHi).2 : ℝ) := by
  have hsum := (hasSum_atanTerm hm P).summable
  have hterm : atanTerm m P k ≤ ((tHi / (2 * k + 1) + 1 : ℕ) : ℝ) := le_cast_div_add_one_of_le hhi rfl
  induction n generalizing k tLo tHi with
  | zero =>
    have hanti : Antitone fun j => atanTerm m P (k + j) := fun _ _ h => antitone_atanTerm hm P (by omega)
    obtain ⟨hnonneg, hle⟩ := altTail_mem_Icc hsum hanti
    exact ⟨by simpa [atanTail] using hnonneg, by simpa only [atanTail, Int.cast_natCast] using hle.trans hterm⟩
  | succ n ih =>
    have hmm : ((m * m : ℕ) : ℝ) = m * m := by push_cast; rfl
    have hnextLo := cast_div_le_of_le hlo hmm
    have hnextHi := le_cast_div_add_one_of_le hhi hmm
    rw [← atanPower_succ] at hnextLo hnextHi
    obtain ⟨ihlo, ihhi⟩ := ih hnextLo hnextHi (le_cast_div_add_one_of_le hnextHi rfl)
    have hterm' : ((tLo / (2 * k + 1) : ℕ) : ℝ) ≤ atanTerm m P k := cast_div_le_of_le hlo rfl
    rw [altTail_eq_sub hsum]
    simp only [atanTail, Int.cast_sub, Int.cast_natCast]
    exact ⟨by linarith, by linarith⟩

theorem atanBounds_enclose :
    ((atanBounds m P).1 : ℝ) ≤ 2 ^ P * Real.arctan (m : ℝ)⁻¹ ∧
      2 ^ P * Real.arctan (m : ℝ)⁻¹ ≤ ((atanBounds m P).2 : ℝ) := by
  have hpower : ((2 ^ P : ℕ) : ℝ) / m = atanPower m P 0 := by simp [atanPower]
  rw [← altTail_zero (hasSum_atanTerm hm P)]
  refine atanTail_bounds hm P _ ?_ ?_
  · rw [← hpower]; exact cast_div_le_of_le le_rfl rfl
  · rw [← hpower]; exact le_cast_div_add_one_of_le le_rfl rfl

end Atan

/-! ### Bounds of π -/

/-- Machin's formula on the model's bounds, in whole units. -/
theorem machinBounds_enclose (P : ℕ) :
    ((16 * (atanBounds 5 P).1 - 4 * (atanBounds 239 P).2 : ℤ) : ℝ) ≤ Real.pi * 2 ^ P ∧
      Real.pi * 2 ^ P ≤ ((16 * (atanBounds 5 P).2 - 4 * (atanBounds 239 P).1 : ℤ) : ℝ) := by
  obtain ⟨hlo₅, hhi₅⟩ := atanBounds_enclose (m := 5) (by decide) P
  obtain ⟨hlo₂₃₉, hhi₂₃₉⟩ := atanBounds_enclose (m := 239) (by decide) P
  have hmachin : Real.pi * 2 ^ P =
      16 * (2 ^ P * Real.arctan (5 : ℕ)⁻¹) - 4 * (2 ^ P * Real.arctan (239 : ℕ)⁻¹) := by
    have hpi := Real.four_mul_arctan_inv_5_sub_arctan_inv_239
    push_cast
    linear_combination (-4 * 2 ^ P) * hpi
  rw [hmachin]
  push_cast
  exact ⟨by linarith, by linarith⟩

theorem toNat_bounds_enclose {lo hi : ℤ} {x : ℝ} (hx : 0 ≤ x) (h : (lo : ℝ) ≤ x ∧ x ≤ hi) :
    (lo.toNat : ℝ) ≤ x ∧ x ≤ hi.toNat := by
  obtain ⟨hlo, hhi⟩ := h
  have hcast (z : ℤ) : ((z.toNat : ℕ) : ℝ) = max (z : ℝ) 0 := by
    rw [← Int.cast_natCast, Int.toNat_eq_max]
    push_cast
    rfl
  rw [hcast, hcast]
  exact ⟨max_le hlo hx, hhi.trans (le_max_left ..)⟩

/-- 64 bits beyond the constant's, Machin's bounds lie strictly between its neighbours. -/
theorem piBits_machin :
    (piBits * 2 ^ 64 : ℤ) < 16 * (atanBounds 5 576).1 - 4 * (atanBounds 239 576).2 ∧
      16 * (atanBounds 5 576).2 - 4 * (atanBounds 239 576).1 < (piBits + 1) * 2 ^ 64 := by
  decide +kernel

theorem piBits_encloses_pi : (piBits : ℝ) < Real.pi * 2 ^ 512 ∧ Real.pi * 2 ^ 512 < (piBits : ℝ) + 1 := by
  obtain ⟨hlo, hhi⟩ := machinBounds_enclose 576
  obtain ⟨hbelow, habove⟩ := piBits_machin
  rw [show (2 : ℝ) ^ 576 = 2 ^ 512 * 2 ^ 64 by rw [← pow_add], ← mul_assoc] at hlo hhi
  have hlower := (Int.cast_lt (R := ℝ)).2 hbelow |>.trans_le hlo
  have hupper := hhi.trans_lt ((Int.cast_lt (R := ℝ)).2 habove)
  rw [Int.cast_mul, Int.cast_pow] at hlower hupper
  exact ⟨by simpa using hlower, by simpa using hupper⟩

/-- Up to 512 bits the bounds are the constant's leading bits. -/
theorem piFloor_enclose {P : ℕ} (hP : P ≤ 512) :
    (piFloor P : ℝ) ≤ Real.pi * 2 ^ P ∧ Real.pi * 2 ^ P ≤ ((piFloor P + 1 : ℕ) : ℝ) := by
  obtain ⟨hlo, hhi⟩ := piBits_encloses_pi
  have hscale : Real.pi * 2 ^ P = Real.pi * 2 ^ 512 / 2 ^ (512 - P) := by
    rw [eq_div_iff (by positivity), mul_assoc, ← pow_add, Nat.add_sub_cancel' hP]
  have hcast : ((2 ^ (512 - P) : ℕ) : ℝ) = 2 ^ (512 - P) := by push_cast; rfl
  rw [hscale]
  exact ⟨cast_div_le_of_le hlo.le hcast, le_cast_div_add_one_of_le_add_one hhi.le hcast⟩

/-- At every precision the bounds of π enclose it. -/
theorem piBounds_enclose (P : ℕ) : ((piBounds P).1 : ℝ) ≤ Real.pi * 2 ^ P ∧ Real.pi * 2 ^ P ≤ ((piBounds P).2 : ℝ) := by
  unfold piBounds
  split
  · next hP => exact piFloor_enclose hP
  · exact toNat_bounds_enclose (by positivity) (machinBounds_enclose P)

/-! ### Bounds of the cosine -/

/-- The k-th term of the cosine series at `θ`, in units of 2^−P. -/
noncomputable def cosTerm (P : ℕ) (θ : ℝ) (k : ℕ) : ℝ := 2 ^ P * (θ ^ (2 * k) / (2 * k).factorial)

theorem cosTerm_nonneg (P : ℕ) (θ : ℝ) (k : ℕ) : 0 ≤ cosTerm P θ k := by
  have heven : 0 ≤ θ ^ (2 * k) := (even_two_mul k).pow_nonneg θ
  unfold cosTerm
  positivity

theorem cosTerm_succ (P : ℕ) (θ : ℝ) (k : ℕ) :
    cosTerm P θ (k + 1) = cosTerm P θ k * (θ ^ 2 * 2 ^ P) / ((2 * k + 1) * (2 * k + 2) * 2 ^ P) := by
  rw [cosTerm, cosTerm, Nat.mul_succ, Nat.factorial_succ, Nat.factorial_succ]
  push_cast
  field_simp
  ring

theorem hasSum_cosTerm (P : ℕ) (θ : ℝ) : HasSum (fun j => (-1) ^ j * cosTerm P θ j) (2 ^ P * Real.cos θ) := by
  have hterm (j : ℕ) :
      2 ^ P * ((-1) ^ j * θ ^ (2 * j) / ((2 * j).factorial : ℝ)) = (-1) ^ j * cosTerm P θ j := by
    rw [cosTerm]
    ring
  exact funext hterm ▸ (Real.hasSum_cos θ).mul_left (2 ^ P)

/-- In the first quadrant the terms fall from the second on. -/
theorem antitone_cosTerm {θ : ℝ} (hθ : θ ^ 2 ≤ 4) (P : ℕ) {k : ℕ} (hk : 1 ≤ k) :
    Antitone fun j => cosTerm P θ (k + j) := by
  refine antitone_nat_of_succ_le fun j => ?_
  rw [← add_assoc, cosTerm_succ, mul_div_assoc, mul_div_mul_right _ _ (by positivity)]
  refine mul_le_of_le_one_right (cosTerm_nonneg ..) (div_le_one_of_le₀ ?_ (by positivity))
  have hkj : (1 : ℝ) ≤ (k + j : ℕ) := by exact_mod_cast (by omega)
  nlinarith

/-- The model's tail bounds enclose the tail. -/
theorem cosTail_bounds {θ : ℝ} (hθ : θ ^ 2 ≤ 4) {P sqLo sqHi : ℕ} (hsqLo : (sqLo : ℝ) ≤ θ ^ 2 * 2 ^ P)
    (hsqHi : θ ^ 2 * 2 ^ P ≤ sqHi) (n : ℕ) {k tLo tHi : ℕ} (hcut : 1 ≤ k + n) (hlo : (tLo : ℝ) ≤ cosTerm P θ k)
    (hhi : cosTerm P θ k ≤ tHi) :
    ((cosTail P sqLo sqHi n k tLo tHi).1 : ℝ) ≤ altTail (cosTerm P θ) k ∧
      altTail (cosTerm P θ) k ≤ ((cosTail P sqLo sqHi n k tLo tHi).2 : ℝ) := by
  have hsum := (hasSum_cosTerm P θ).summable
  induction n generalizing k tLo tHi with
  | zero =>
    obtain ⟨hnonneg, hle⟩ := altTail_mem_Icc hsum (antitone_cosTerm hθ P hcut)
    exact ⟨by simpa [cosTail] using hnonneg, by simpa [cosTail] using hle.trans hhi⟩
  | succ n ih =>
    have hdiv : (((2 * k + 1) * (2 * k + 2) * 2 ^ P : ℕ) : ℝ) = (2 * k + 1) * (2 * k + 2) * 2 ^ P := by push_cast; rfl
    have hproductLo : ((tLo * sqLo : ℕ) : ℝ) ≤ cosTerm P θ k * (θ ^ 2 * 2 ^ P) := by
      push_cast
      exact mul_le_mul hlo hsqLo (by positivity) (cosTerm_nonneg ..)
    have hproductHi : cosTerm P θ k * (θ ^ 2 * 2 ^ P) ≤ ((tHi * sqHi : ℕ) : ℝ) := by
      push_cast
      exact mul_le_mul hhi hsqHi (by positivity) (by positivity)
    have hnextLo := cast_div_le_of_le hproductLo hdiv
    have hnextHi := le_cast_div_add_one_of_le hproductHi hdiv
    rw [← cosTerm_succ] at hnextLo hnextHi
    obtain ⟨ihlo, ihhi⟩ := ih (by omega) hnextLo hnextHi
    rw [altTail_eq_sub hsum]
    simp only [cosTail, Int.cast_sub, Int.cast_natCast]
    exact ⟨by linarith, by linarith⟩

/-- The bounds of the angle's square, in units of 2^−P. -/
theorem square_bounds {P lo hi : ℕ} {θ : ℝ} (hθ : 0 ≤ θ) (hlo : (lo : ℝ) ≤ θ * 2 ^ P) (hhi : θ * 2 ^ P ≤ hi) :
    ((lo * lo / 2 ^ P : ℕ) : ℝ) ≤ θ ^ 2 * 2 ^ P ∧ θ ^ 2 * 2 ^ P ≤ ((hi * hi / 2 ^ P + 1 : ℕ) : ℝ) := by
  have hcast : ((2 ^ P : ℕ) : ℝ) = 2 ^ P := by push_cast; rfl
  have hsquare : θ ^ 2 * 2 ^ P = θ * 2 ^ P * (θ * 2 ^ P) / 2 ^ P := by field_simp
  rw [hsquare]
  refine ⟨cast_div_le_of_le ?_ hcast, le_cast_div_add_one_of_le ?_ hcast⟩
  · push_cast
    exact mul_self_le_mul_self (by positivity) hlo
  · push_cast
    exact mul_self_le_mul_self (by positivity) hhi

/-- The model's bounds of the angle π · t / fs, in units of 2^−P. -/
theorem angle_bounds (P t fs : ℕ) :
    (((piBounds P).1 * t / fs : ℕ) : ℝ) ≤ Real.pi * t / fs * 2 ^ P ∧
      Real.pi * t / fs * 2 ^ P ≤ (((piBounds P).2 * t / fs + 1 : ℕ) : ℝ) := by
  obtain ⟨hlo, hhi⟩ := piBounds_enclose P
  have hangle : Real.pi * t / fs * 2 ^ P = Real.pi * 2 ^ P * t / fs := by ring
  rw [hangle]
  refine ⟨cast_div_le_of_le ?_ rfl, le_cast_div_add_one_of_le ?_ rfl⟩
  · push_cast; gcongr
  · push_cast; gcongr

section FirstQuadrant
variable {t fs : ℕ} (hfs : 0 < fs) (ht : 2 * t ≤ fs)
include hfs ht

theorem angle_le_pi_div_two : Real.pi * t / fs ≤ Real.pi / 2 := by
  have hfs' : (0 : ℝ) < fs := by exact_mod_cast hfs
  have ht' : (2 * t : ℝ) ≤ fs := by exact_mod_cast ht
  rw [div_le_div_iff₀ hfs' two_pos, mul_assoc, mul_comm (t : ℝ)]
  gcongr

theorem cos_angle_nonneg : 0 ≤ Real.cos (Real.pi * t / fs) := by
  have hnonneg : 0 ≤ Real.pi * t / fs := by positivity
  exact Real.cos_nonneg_of_neg_pi_div_two_le_of_le (by linarith [Real.pi_pos]) (angle_le_pi_div_two hfs ht)

theorem cosBounds_enclose (P : ℕ) :
    ((cosBounds P t fs).1 : ℝ) ≤ Real.cos (Real.pi * t / fs) * 2 ^ P ∧
      Real.cos (Real.pi * t / fs) * 2 ^ P ≤ ((cosBounds P t fs).2 : ℝ) := by
  obtain ⟨hthLo, hthHi⟩ := angle_bounds P t fs
  have hnonneg : 0 ≤ Real.pi * t / fs := by positivity
  have hsmall : (Real.pi * t / fs) ^ 2 ≤ 4 := by nlinarith [angle_le_pi_div_two hfs ht, Real.pi_le_four]
  obtain ⟨hsqLo, hsqHi⟩ := square_bounds hnonneg hthLo hthHi
  have hfirst : cosTerm P (Real.pi * t / fs) 0 = ((2 ^ P : ℕ) : ℝ) := by simp [cosTerm]
  have hseries := altTail_zero (hasSum_cosTerm P (Real.pi * t / fs))
  have hcos := cos_angle_nonneg hfs ht
  rw [mul_comm, ← hseries]
  refine toNat_bounds_enclose ?_ (cosTail_bounds hsmall hsqLo hsqHi _ (by omega) hfirst.ge hfirst.le)
  rw [hseries]
  positivity

end FirstQuadrant

end Sys2Proof.Machine

open Sys2Proof Sys2Proof.Machine

/-- Settles O39: Machin's series encloses π at every precision, and at 576 bits it fixes the constant. -/
theorem piBitsEnclosePi : Obligations.PiBitsEnclosePi := ⟨piBits_encloses_pi, piBounds_enclose⟩

/-- Settles O40: the cosine series is cut where its terms fall, on bounds of the angle's square. -/
theorem cosineBoundsEnclose : Obligations.CosineBoundsEnclose :=
  fun P _ _ hfs ht => cosBounds_enclose hfs ht P

end

section
/-! The default kernel: its landmarks (O38), and every tap whose search ends is nearest to the response (O41). -/

namespace Sys2Proof.Machine

/-! ### Landmarks -/

/-- Tap `spb − u` and tap `spb + u` stand at distance `u` from the peak (R152). -/
theorem getElem?_defaultKernel_sub {spb u : Nat} (fs : Nat) (hu : u ≤ spb) (hspb : 1 ≤ spb) :
    (defaultKernel spb fs)[spb - u]? = some (tapAt fs u) := by
  have hdist : max (spb - u) spb - min (spb - u) spb = u := by omega
  rw [defaultKernel, List.getElem?_map, List.getElem?_range (by omega), Option.map_some, hdist]

theorem getElem?_defaultKernel_add {spb u : Nat} (fs : Nat) (hu : u < spb) :
    (defaultKernel spb fs)[spb + u]? = some (tapAt fs u) := by
  have hdist : max (spb + u) spb - min (spb + u) spb = u := by omega
  rw [defaultKernel, List.getElem?_map, List.getElem?_range (by omega), Option.map_some, hdist]

theorem tapAt_of_limit {fs u : Nat} (h : 4 * (u * Config.twiceBitRate) = fs) : tapAt fs u = valOne := by
  rw [tapAt, if_pos h]

/-- 4r is an odd integer other than ±1. -/
theorem tapAt_of_odd {fs u : Nat} (hlimit : 4 * (u * Config.twiceBitRate) ≠ fs)
    (h : 4 * (u * Config.twiceBitRate) % fs = 0 ∧ 4 * (u * Config.twiceBitRate) / fs % 2 = 1) :
    tapAt fs u = valZero := by
  rw [tapAt, if_neg hlimit, if_pos h]

theorem tapAt_of_search {fs u : Nat} (hlimit : 4 * (u * Config.twiceBitRate) ≠ fs)
    (h : ¬ (4 * (u * Config.twiceBitRate) % fs = 0 ∧ 4 * (u * Config.twiceBitRate) / fs % 2 = 1)) :
    tapAt fs u = Val.ofMag (tapNeg (u * Config.twiceBitRate) fs) (tapSearch fs u 128) := by
  rw [tapAt, if_neg hlimit, if_neg h, tapMag_eq_search]

/-- The bounds of the peak do not depend on the rate: they are those of cos 0 over those of π. -/
theorem tapBounds_zero (P : Nat) {fs : Nat} (hfs : 0 < fs) :
    tapBounds P 0 fs =
      (roundMag (4 * (cosBounds P 0 1).1) (piBounds P).2, roundMag (4 * (cosBounds P 0 1).2) (piBounds P).1) := by
  have hquadrant : quadrant 0 fs = 0 := by simp [quadrant]
  have hcos : cosBounds P 0 fs = cosBounds P 0 1 := by simp [cosBounds]
  have hdenom : denomMag 0 fs = fs * fs := by simp [denomMag]
  simp only [tapBounds, hquadrant, hcos, hdenom]
  rw [Nat.mul_comm _ (fs * fs), Nat.mul_comm _ (fs * fs), Nat.mul_comm _ (fs * fs), Nat.mul_comm _ (fs * fs),
    roundMag_mul_left (by positivity), roundMag_mul_left (by positivity)]

/-- 128 bits settle the peak: RN64(4/π). -/
theorem peakBounds_settle :
    roundMag (4 * (cosBounds 128 0 1).1) (piBounds 128).2 = 0x3FF45F306DC9C883 ∧
      roundMag (4 * (cosBounds 128 0 1).2) (piBounds 128).1 = 0x3FF45F306DC9C883 := by
  decide +kernel

theorem tapAt_zero {fs : Nat} (hfs : 0 < fs) : tapAt fs 0 = valOf 0x3FF45F306DC9C883#64 := by
  obtain ⟨hlo, hhi⟩ := peakBounds_settle
  have hneg : tapNeg (0 * Config.twiceBitRate) fs = false := by simp [tapNeg]
  rw [tapAt_of_search (by omega) (by simp), hneg, tapSearch_eq, Nat.zero_mul, tapBounds_zero 128 hfs, hlo, hhi,
    if_pos rfl]
  decide

end Sys2Proof.Machine

open Sys2Proof Sys2Proof.Machine

/-- Settles O38: taps at one distance from the peak are one value, and 128 bits settle the peak. -/
theorem kernelEvenWithLandmarks : Obligations.KernelEvenWithLandmarks := by
  intro spb fs hfs
  refine ⟨by simp [defaultKernel], fun u hu hspb => ?_, fun hspb => ?_, fun u hu hspb hlimit => ?_,
    fun u n hu hspb hn hodd => ?_⟩
  · rw [getElem?_defaultKernel_add fs hspb, getElem?_defaultKernel_sub fs hspb.le (by omega)]
  · rw [← tapAt_zero hfs]
    exact getElem?_defaultKernel_sub fs (Nat.zero_le spb) hspb
  · rw [getElem?_defaultKernel_sub fs hspb (by omega), tapAt_of_limit (by rw [Nat.mul_comm u]; exact hlimit)]
  · have hfourR : 4 * (u * Config.twiceBitRate) = (2 * n + 1) * fs := by rw [Nat.mul_comm u]; exact hodd
    have hne : 4 * (u * Config.twiceBitRate) ≠ fs := by rw [hfourR]; nlinarith
    rw [getElem?_defaultKernel_sub fs hspb (by omega), tapAt_of_odd hne]
    rw [hfourR, Nat.mul_mod_left, Nat.mul_div_cancel _ hfs]
    omega

end

section
/-! Every tap whose search ends is a binary64 value nearest to the response (O41). -/

namespace Sys2Proof.Machine

/-! ### The bounds of π are positive -/

/-- What the floors lose adds up to at most two units a term. -/
theorem atanTail_coarse_bounds {m : ℕ} (hm : 2 ≤ m) (n : ℕ) {k tLo tHi : ℕ} (ht : tHi ≤ tLo + 2) :
    -(2 * n : ℤ) ≤ (atanTail m n k tLo tHi).1 ∧
      (atanTail m n k tLo tHi).2 ≤ ((tHi / (2 * k + 1) : ℕ) : ℤ) + 1 + 2 * n := by
  induction n generalizing k tLo tHi with
  | zero => exact ⟨le_rfl, by simp [atanTail]⟩
  | succ n ih =>
    have hmm : 4 ≤ m * m := Nat.mul_le_mul hm hm
    have hnext : tHi / (m * m) + 1 ≤ tLo / (m * m) + 2 := by
      have hstep : (tLo + m * m) / (m * m) = tLo / (m * m) + 1 := Nat.add_div_right _ (by omega)
      have hle : tHi / (m * m) ≤ (tLo + m * m) / (m * m) := Nat.div_le_div_right (by omega)
      omega
    obtain ⟨ihlo, ihhi⟩ := ih (k := k + 1) hnext
    have hfall : (tHi / (m * m) + 1) / (2 * (k + 1) + 1) ≤ tLo / (2 * k + 1) + 1 :=
      calc (tHi / (m * m) + 1) / (2 * (k + 1) + 1)
          ≤ (tLo + (2 * (k + 1) + 1)) / (2 * (k + 1) + 1) :=
            Nat.div_le_div_right (by have := Nat.div_le_self tLo (m * m); omega)
        _ = tLo / (2 * (k + 1) + 1) + 1 := Nat.add_div_right _ (by omega)
        _ ≤ tLo / (2 * k + 1) + 1 := Nat.add_le_add_right (Nat.div_le_div_left (by omega) (by omega)) 1
    simp only [atanTail]
    generalize tHi / (m * m) + 1 = tHi' at *
    exact ⟨by omega, by omega⟩

theorem atanBounds_snd_le {m : ℕ} (hm : 2 ≤ m) (P : ℕ) : (atanBounds m P).2 ≤ ((2 ^ P / m : ℕ) : ℤ) + P + 10 := by
  obtain ⟨-, hhi⟩ := atanTail_coarse_bounds hm (P / 4 + 4) (k := 0) (Nat.le_succ (2 ^ P / m + 1))
  rw [Nat.mul_zero, Nat.zero_add, Nat.div_one] at hhi
  rw [atanBounds]
  omega

/-- At least half of the first term is left. -/
theorem le_atanBounds_fst {m : ℕ} (hm : 2 ≤ m) (P : ℕ) :
    ((2 ^ P / m : ℕ) : ℤ) - (2 ^ P / m / 2 : ℕ) - P - 10 ≤ (atanBounds m P).1 := by
  have hstep : (atanBounds m P).1 = ((2 ^ P / m / (2 * 0 + 1) : ℕ) : ℤ) -
      (atanTail m (P / 4 + 3) 1 (2 ^ P / m / (m * m)) ((2 ^ P / m + 1) / (m * m) + 1)).2 := rfl
  generalize 2 ^ P / m = t at *
  have hsecond : (t + 1) / (m * m) ≤ (t + 1) / 4 := Nat.div_le_div_left (Nat.mul_le_mul hm hm) (by decide)
  have hnext : (t + 1) / (m * m) ≤ t / (m * m) + 1 := by
    rw [← Nat.add_div_right t (by positivity)]
    exact Nat.div_le_div_right (Nat.add_le_add_left (Nat.mul_pos (by omega) (by omega)) t)
  obtain ⟨-, hhi⟩ := atanTail_coarse_bounds hm (P / 4 + 3) (k := 1) (Nat.add_le_add_right hnext 1)
  rw [hstep, Nat.mul_zero, Nat.zero_add, Nat.div_one]
  omega

theorem machin_pos {P : ℕ} (hP : 512 < P) : 0 < 16 * (atanBounds 5 P).1 - 4 * (atanBounds 239 P).2 := by
  have hlo := le_atanBounds_fst (m := 5) (by decide) P
  have hhi := atanBounds_snd_le (m := 239) (by decide) P
  have hpower : 256 * (P - 8) ≤ 2 ^ P := by
    calc 256 * (P - 8) ≤ 2 ^ 8 * 2 ^ (P - 8) := Nat.mul_le_mul_left _ Nat.lt_two_pow_self.le
      _ = 2 ^ P := by rw [← pow_add, Nat.add_sub_cancel' (by omega)]
  generalize 2 ^ P = X at *
  omega

/-- The lower bound of π is not 0 at any precision. -/
theorem piBounds_fst_pos (P : ℕ) : 0 < (piBounds P).1 := by
  unfold piBounds
  split
  · next hP =>
    have hupper := (piFloor_enclose hP).2
    have hpower : (1 : ℝ) ≤ 2 ^ P := one_le_pow₀ one_le_two
    have hpos : (0 : ℝ) < piFloor P := by
      push_cast at hupper
      nlinarith [Real.pi_gt_three]
    exact_mod_cast hpos
  · next hP => exact Int.lt_toNat.2 (by simpa using machin_pos (by omega))

/-! ### The response as a signed magnitude -/

/-- The response g of R153 at r = a / fs. -/
noncomputable def response (a fs : ℕ) : ℝ :=
  4 * Real.cos (2 * Real.pi * (a / fs)) / (Real.pi * (1 - 16 * ((a : ℝ) / fs) ^ 2))

/-- |g|, on the angle brought to the first quadrant and the denominator as a whole number. -/
noncomputable def responseMag (a fs : ℕ) : ℝ :=
  4 * Real.cos (Real.pi * quadrant a fs / fs) * (fs * fs) / (Real.pi * denomMag a fs)

/-- 1, or −1 under a sign. -/
noncomputable def signUnit (neg : Bool) : ℝ := if neg then -1 else 1

@[simp] theorem signUnit_true : signUnit true = -1 := rfl

@[simp] theorem signUnit_false : signUnit false = 1 := rfl

@[simp] theorem abs_signUnit (neg : Bool) : |signUnit neg| = 1 := by cases neg <;> simp

theorem signUnit_xor (neg₁ neg₂ : Bool) : signUnit (neg₁ ^^ neg₂) = signUnit neg₁ * signUnit neg₂ := by
  cases neg₁ <;> cases neg₂ <;> simp

theorem div_signUnit_mul (neg : Bool) (x y : ℝ) : x / (signUnit neg * y) = signUnit neg * (x / y) := by
  cases neg <;> simp [div_neg]

theorem denomMag_pos {a fs : ℕ} (hlimit : 4 * a ≠ fs) : 0 < denomMag a fs := by
  unfold denomMag
  rcases Nat.lt_or_gt_of_ne hlimit with h | h
  · have hlt : 16 * a * a < fs * fs := by nlinarith
    omega
  · have hlt : fs * fs < 16 * a * a := by nlinarith
    omega

section Response
variable {a fs : ℕ} (hfs : 0 < fs)
include hfs

theorem two_mul_quadrant_le (a : ℕ) : 2 * quadrant a fs ≤ fs := by
  have hmod := Nat.mod_lt a hfs
  simp only [quadrant]
  split
  · omega
  · omega

/-- Whole turns do not change the cosine. -/
theorem cos_eq_cos_mod (a : ℕ) :
    Real.cos (2 * Real.pi * (a / fs)) = Real.cos (2 * Real.pi * ((a % fs : ℕ) / fs)) := by
  have hfs' : (fs : ℝ) ≠ 0 := by positivity
  rw [← Real.cos_add_nat_mul_two_pi (2 * Real.pi * ((a % fs : ℕ) / fs)) (a / fs)]
  have hdivmod : (fs : ℝ) * (a / fs : ℕ) + (a % fs : ℕ) = a := by exact_mod_cast Nat.div_add_mod a fs
  congr 1
  rw [← hdivmod]
  field_simp
  ring

/-- An angle and what it lacks of a whole turn have one cosine. -/
theorem cos_eq_cos_min {r : ℕ} (hr : r ≤ fs) :
    Real.cos (2 * Real.pi * (r / fs)) = Real.cos (2 * Real.pi * ((min r (fs - r) : ℕ) / fs)) := by
  have hfs' : (fs : ℝ) ≠ 0 := by positivity
  rcases le_total r (fs - r) with h | h
  · rw [min_eq_left h]
  · rw [min_eq_right h, ← Real.cos_two_pi_sub, Nat.cast_sub hr]
    congr 1
    field_simp

/-- The cosine's sign is that of its quadrant. -/
theorem cos_eq_quadrant (a : ℕ) : Real.cos (2 * Real.pi * (a / fs)) =
    signUnit (decide (fs < 4 * (a % fs) ∧ 4 * (a % fs) < 3 * fs)) * Real.cos (Real.pi * quadrant a fs / fs) := by
  have hfs' : (fs : ℝ) ≠ 0 := by positivity
  have hmod := Nat.mod_lt a hfs
  rw [cos_eq_cos_mod hfs, cos_eq_cos_min hfs hmod.le]
  simp only [quadrant]
  generalize hb : min (a % fs) (fs - a % fs) = b
  split
  · have hright : ¬ (fs < 4 * (a % fs) ∧ 4 * (a % fs) < 3 * fs) := by omega
    rw [decide_eq_false hright, signUnit_false, one_mul]
    congr 1
    push_cast
    ring
  · have hleft : fs < 4 * (a % fs) ∧ 4 * (a % fs) < 3 * fs := by omega
    rw [decide_eq_true hleft, signUnit_true, neg_one_mul, ← Real.cos_pi_sub, Nat.cast_sub (by omega)]
    congr 1
    push_cast
    field_simp
    ring

theorem denominator_eq_denomMag (a : ℕ) :
    1 - 16 * ((a : ℝ) / fs) ^ 2 = signUnit (decide (fs < 4 * a)) * (denomMag a fs / (fs * fs)) := by
  have hfs' : (fs : ℝ) ≠ 0 := by positivity
  by_cases h : fs < 4 * a
  · have hle : fs * fs ≤ 16 * a * a := by nlinarith
    rw [decide_eq_true h, signUnit_true, denomMag, max_eq_right hle, min_eq_left hle, Nat.cast_sub hle]
    push_cast
    field_simp
    ring
  · have hle : 16 * a * a ≤ fs * fs := by nlinarith
    rw [decide_eq_false h, signUnit_false, denomMag, max_eq_left hle, min_eq_right hle, Nat.cast_sub hle]
    push_cast
    field_simp

theorem response_eq_responseMag (a : ℕ) : response a fs = signUnit (tapNeg a fs) * responseMag a fs := by
  rw [response, cos_eq_quadrant hfs, denominator_eq_denomMag hfs, tapNeg, responseMag]
  generalize decide (fs < 4 * (a % fs) ∧ 4 * (a % fs) < 3 * fs) = neg₁
  generalize decide (fs < 4 * a) = neg₂
  rw [mul_left_comm Real.pi, ← mul_div_assoc Real.pi, div_signUnit_mul, div_div_eq_mul_div, signUnit_xor]
  ring

theorem cos_quadrant_nonneg (a : ℕ) : 0 ≤ Real.cos (Real.pi * quadrant a fs / fs) :=
  cos_angle_nonneg hfs (two_mul_quadrant_le hfs a)

theorem responseMag_nonneg (a : ℕ) : 0 ≤ responseMag a fs := by
  have hcos := cos_quadrant_nonneg hfs a
  unfold responseMag
  positivity

/-- Where 4r is an odd integer other than 1, the response is 0. -/
theorem response_of_odd (h : 4 * a % fs = 0 ∧ 4 * a / fs % 2 = 1) : response a fs = 0 := by
  obtain ⟨hdvd, hodd⟩ := h
  have hfourA : 4 * a = fs * (2 * (4 * a / fs / 2) + 1) := by
    rw [show 2 * (4 * a / fs / 2) + 1 = 4 * a / fs by omega, Nat.mul_div_cancel' (Nat.dvd_of_mod_eq_zero hdvd)]
  generalize 4 * a / fs / 2 = k at hfourA
  have hfs' : (fs : ℝ) ≠ 0 := by positivity
  have hcast : (4 * a : ℝ) = fs * (2 * k + 1) := by exact_mod_cast hfourA
  have hcos : Real.cos (2 * Real.pi * (a / fs)) = 0 := by
    refine Real.cos_eq_zero_iff.2 ⟨k, ?_⟩
    push_cast
    field_simp
    linear_combination hcast
  rw [response, hcos, mul_zero, zero_div]

/-! ### The bounds of a tap -/

/-- The fractions that the model rounds enclose |g|. -/
theorem tapFractions_enclose (P : ℕ) (hlimit : 4 * a ≠ fs) :
    ((4 * (cosBounds P (quadrant a fs) fs).1 * (fs * fs) : ℕ) : ℝ) / ((piBounds P).2 * denomMag a fs : ℕ) ≤
        responseMag a fs ∧
      responseMag a fs ≤
        ((4 * (cosBounds P (quadrant a fs) fs).2 * (fs * fs) : ℕ) : ℝ) / ((piBounds P).1 * denomMag a fs : ℕ) := by
  obtain ⟨hcosLo, hcosHi⟩ := cosBounds_enclose hfs (two_mul_quadrant_le hfs a) P
  obtain ⟨hpiLo, hpiHi⟩ := piBounds_enclose P
  have hpiPos : (0 : ℝ) < (piBounds P).1 := by exact_mod_cast piBounds_fst_pos P
  have hdenom : (0 : ℝ) < denomMag a fs := by exact_mod_cast denomMag_pos hlimit
  have hcos := cos_quadrant_nonneg hfs a
  have hscaled : responseMag a fs =
      4 * (Real.cos (Real.pi * quadrant a fs / fs) * 2 ^ P) * (fs * fs) / (Real.pi * 2 ^ P * denomMag a fs) := by
    rw [responseMag]
    field_simp
  rw [hscaled]
  push_cast
  constructor
  · gcongr
  · gcongr

theorem responseMag_le (hlimit : 4 * a ≠ fs) : responseMag a fs ≤ 4 * (fs * fs) := by
  have hdenom : (1 : ℝ) ≤ denomMag a fs := by exact_mod_cast denomMag_pos hlimit
  have hbelow : 1 ≤ Real.pi * denomMag a fs := by nlinarith [Real.pi_gt_three]
  refine (div_le_self (by have := cos_quadrant_nonneg hfs a; positivity) hbelow).trans ?_
  have hcos := Real.cos_le_one (Real.pi * quadrant a fs / fs)
  gcongr
  linarith

end Response

/-! ### Nearest to an enclosed number -/

/-- Of two points, one that is nearer to both ends of an interval is nearer to every number in it. -/
theorem abs_sub_le_of_mem_Icc {p w lo hi y : ℝ} (hlo : |p - lo| ≤ |w - lo|) (hhi : |p - hi| ≤ |w - hi|)
    (hy : lo ≤ y ∧ y ≤ hi) : |p - y| ≤ |w - y| := by
  rw [← sq_le_sq] at *
  rcases le_total p w with h | h
  · nlinarith [mul_nonneg (sub_nonneg.2 h) (sub_nonneg.2 hy.2)]
  · nlinarith [mul_nonneg (sub_nonneg.2 h) (sub_nonneg.2 hy.1)]

/-- The real number that a finite value is. -/
noncomputable def Val.toReal (v : Val) : ℝ := (v.toRat : ℝ)

/-- No finite magnitude is nearer to `y` than `p` is. -/
def NearestMag (p : ℕ) (y : ℝ) : Prop :=
  ∀ mag < infMag, |(Val.ofMag false p).toReal - y| ≤ |(Val.ofMag false mag).toReal - y|

/-- RN64 of a fraction is nearest to it. -/
theorem nearestMag_roundMag {num den : ℕ} (hden : 0 < den) (hfin : roundMag num den < infMag) :
    NearestMag (roundMag num den) (num / den) := by
  intro mag hmag
  have hrat : |(Val.ofMag false (roundMag num den)).toRat - (num : ℚ) / den| ≤
      |(Val.ofMag false mag).toRat - (num : ℚ) / den| := by
    by_cases hne : mag = roundMag num den
    · rw [hne]
    · rcases roundMag_nearest hden hfin hmag hne with hlt | ⟨heq, -⟩
      · exact hlt.le
      · exact heq.le
  have hreal := (Rat.cast_le (K := ℝ)).2 hrat
  push_cast at hreal
  exact hreal

/-- A fraction of at most 2^66, four times the square of a 32-bit rate, does not overflow. -/
theorem roundMag_lt_infMag_of_le {num den : ℕ} (hden : 0 < den) (h : (num : ℝ) / den ≤ 4 * (2 ^ 32 * 2 ^ 32)) :
    roundMag num den < infMag := by
  refine (roundMag_le_infMag ..).lt_of_ne fun hinf => ?_
  rw [roundMag_eq_infMag_iff _ hden] at hinf
  have hrat : (num : ℚ) / den ≤ 4 * (2 ^ 32 * 2 ^ 32) := by
    rw [div_le_iff₀ (by exact_mod_cast hden)] at h ⊢
    exact_mod_cast h
  have hpower : (2 : ℚ) ^ 66 ≤ 2 ^ 970 := pow_le_pow_right₀ one_le_two (by decide)
  generalize (2 : ℚ) ^ 970 = limit at *
  linarith

/-- A number enclosed between two fractions that round alike has their rounding as a nearest magnitude. -/
theorem nearestMag_of_enclosed {num den num' den' : ℕ} (hden : 0 < den) (hden' : 0 < den')
    (hfin : roundMag num den < infMag) (hagree : roundMag num den = roundMag num' den') {y : ℝ}
    (hy : (num : ℝ) / den ≤ y ∧ y ≤ (num' : ℝ) / den') : NearestMag (roundMag num den) y := by
  intro mag hmag
  refine abs_sub_le_of_mem_Icc (nearestMag_roundMag hden hfin mag hmag) ?_ hy
  rw [hagree] at hfin ⊢
  exact nearestMag_roundMag hden' hfin mag hmag

theorem toReal_ofMag_eq_signUnit {neg : Bool} {p : ℕ} (hp : p < infMag) :
    (Val.ofMag neg p).toReal = signUnit neg * (Val.ofMag false p).toReal := by
  cases neg with
  | false => simp
  | true => simp [Val.toReal, toRat_ofMag_true hp]

/-- Under one sign, no finite value is nearer to a number than the magnitude nearest to its absolute value. -/
theorem NearestMag.signed {neg : Bool} {p : ℕ} {y : ℝ} (h : NearestMag p y) (hp : p < infMag) (hy : 0 ≤ y) {w : F64}
    (hw : (valOf w).isFin = true) :
    |(Val.ofMag neg p).toReal - signUnit neg * y| ≤ |(valOf w).toReal - signUnit neg * y| := by
  have hmag : w.toNat % 2 ^ 63 < infMag := by rwa [valOf, isFin_ofMag_iff] at hw
  have habs : |(valOf w).toReal| = (Val.ofMag false (w.toNat % 2 ^ 63)).toReal := by
    rw [Val.toReal, Val.toReal, valOf, ← abs_toRat_ofMag w.msb hmag, Rat.cast_abs]
  calc |(Val.ofMag neg p).toReal - signUnit neg * y|
      = |(Val.ofMag false p).toReal - y| := by
        rw [toReal_ofMag_eq_signUnit hp, ← mul_sub, abs_mul, abs_signUnit, one_mul]
    _ ≤ |(Val.ofMag false (w.toNat % 2 ^ 63)).toReal - y| := h _ hmag
    _ = |(|(valOf w).toReal|) - (|signUnit neg * y|)| := by
        rw [habs, abs_mul, abs_signUnit, one_mul, abs_of_nonneg hy]
    _ ≤ |(valOf w).toReal - signUnit neg * y| := abs_abs_sub_abs_le ..

/-! ### A settled tap -/

/-- Where a precision settles the tap, its two bounds round to a finite magnitude nearest to |g|. -/
theorem tapBounds_nearest {P a fs : ℕ} (hfs : 0 < fs) (hfs' : fs < 2 ^ 32) (hlimit : 4 * a ≠ fs)
    (hsettled : (tapBounds P a fs).1 = (tapBounds P a fs).2) :
    (tapBounds P a fs).1 < infMag ∧ NearestMag (tapBounds P a fs).1 (responseMag a fs) := by
  have henclosed := tapFractions_enclose hfs P hlimit
  have hdenom := denomMag_pos hlimit
  have hpiLo := piBounds_fst_pos P
  have hpiHi : 0 < (piBounds P).2 := by
    obtain ⟨-, hpi⟩ := piBounds_enclose P
    exact_mod_cast (show (0 : ℝ) < Real.pi * 2 ^ P by positivity).trans_le hpi
  have hrate : (fs : ℝ) ≤ 2 ^ 32 := by exact_mod_cast hfs'.le
  have hbounded : responseMag a fs ≤ 4 * (2 ^ 32 * 2 ^ 32) := (responseMag_le hfs hlimit).trans (by gcongr)
  have hfin : (tapBounds P a fs).1 < infMag :=
    roundMag_lt_infMag_of_le (Nat.mul_pos hpiHi hdenom) (henclosed.1.trans hbounded)
  exact ⟨hfin, nearestMag_of_enclosed (Nat.mul_pos hpiHi hdenom) (Nat.mul_pos hpiLo hdenom) hfin hsettled henclosed⟩

end Sys2Proof.Machine

open Sys2Proof Sys2Proof.Machine

/-- Settles O41: a settled tap is the rounding of two fractions that enclose |g|, under the sign of g. -/
theorem kernelTapsCorrectlyRounded : Obligations.KernelTapsCorrectlyRounded := by
  intro fs u g hfs hfs' _ hsettled hglimit hg
  by_cases hlimit : 4 * (u * Config.twiceBitRate) = fs
  · rw [tapAt_of_limit hlimit, hglimit (by rw [Nat.mul_comm 2375]; exact hlimit), valOne, toRat_valOf_one]
    exact ⟨by decide, fun w _ => by simp⟩
  · have hresponse : g = response (u * Config.twiceBitRate) fs := by
      rw [hg (by rw [Nat.mul_comm 2375]; exact hlimit), response, Config.twiceBitRate]
      push_cast
      rw [mul_comm (u : ℝ)]
    by_cases hodd : 4 * (u * Config.twiceBitRate) % fs = 0 ∧ 4 * (u * Config.twiceBitRate) / fs % 2 = 1
    · rw [tapAt_of_odd hlimit hodd, hresponse, response_of_odd hfs hodd, valZero, toRat_valOf_zero]
      exact ⟨by decide, fun w _ => by simp⟩
    · obtain ⟨k, hk⟩ := hsettled.resolve_left hodd
      obtain ⟨j, hj, hsearch⟩ := tapSearch_settled hk
      obtain ⟨hfin, hnearest⟩ := tapBounds_nearest hfs hfs' hlimit hj
      rw [tapAt_of_search hlimit hodd, hsearch, hresponse, response_eq_responseMag hfs]
      exact ⟨(isFin_ofMag_iff ..).2 hfin, fun w hw => hnearest.signed hfin (responseMag_nonneg hfs _) hw⟩

end

section
/-! Values that binary64 has exactly bound what is rounded near them: the samples per bit (R171: O50) and the pair count
(R173: O54). -/

namespace Sys2Proof.Machine

/-! ### Values that binary64 has exactly -/

/-- A multiple `k · 2^j` of the unit, of up to 53 bits, has a pattern: powers of 2 are moved from the exponent to `k`
until `k` is full or no exponent is left. -/
theorem exists_magUnits_eq (j : Nat) {k : Nat} (hk : k < 2 ^ 53) :
    ∃ mag, magUnits mag = k * 2 ^ j ∧ mag < (j + 2) * 2 ^ 52 := by
  induction j generalizing k with
  | zero => exact ⟨k, by simpa using magUnits_mul_add 0 k hk.le (.inl rfl), by omega⟩
  | succ j ih =>
    rcases Nat.lt_or_ge k (2 ^ 52) with hshort | hfull
    · obtain ⟨mag, hmag, hlt⟩ := ih (k := 2 * k) (by omega)
      exact ⟨mag, by rw [hmag, pow_succ]; ring, hlt.trans_le (Nat.mul_le_mul_right _ (by omega))⟩
    · exact ⟨(j + 1) * 2 ^ 52 + k, magUnits_mul_add _ k hk.le (.inr hfull), by omega⟩

/-- Every multiple of 2^−i of up to 53 bits is the value of a pattern. -/
theorem exists_toRat_valOf_eq {k i : Nat} (hk : k < 2 ^ 53) (hi : i ≤ 1074) :
    ∃ w : F64, (valOf w).isFin = true ∧ (valOf w).toRat = (k : ℚ) / 2 ^ i := by
  obtain ⟨mag, hmag, hlt⟩ := exists_magUnits_eq (1074 - i) hk
  have hfin : mag < infMag := by unfold infMag; omega
  have hval := valOf_patternOf false (hfin.trans (by decide))
  have hscale : (unitScale : ℚ) = 2 ^ (1074 - i) * 2 ^ i := by rw [cast_unitScale, ← pow_add, Nat.sub_add_cancel hi]
  refine ⟨patternOf false mag, by rw [hval, isFin_ofMag_iff]; exact hfin, ?_⟩
  rw [hval, toRat_ofMag false hfin, hmag, hscale, signed, if_neg (by decide), Int.cast_natCast, Nat.cast_mul,
    Nat.cast_pow, Nat.cast_ofNat, mul_comm (k : ℚ), mul_div_mul_left _ _ (by positivity)]

/-! ### Rounding between such values -/

/-- A value at or below the exact result stays at or below the rounded one, which is the nearest. -/
theorem RoundsTo.le_toRat {r : Val} {q : ℚ} (h : RoundsTo r q) (hr : r.isFin = true) {w : F64}
    (hw : (valOf w).isFin = true) (hwq : (valOf w).toRat ≤ q) : (valOf w).toRat ≤ r.toRat := by
  have hnear := h.2 hr w hw
  rw [abs_of_nonpos (sub_nonpos.2 hwq)] at hnear
  linarith [(abs_le.1 hnear).1]

theorem RoundsTo.toRat_le {r : Val} {q : ℚ} (h : RoundsTo r q) (hr : r.isFin = true) {w : F64}
    (hw : (valOf w).isFin = true) (hqw : q ≤ (valOf w).toRat) : r.toRat ≤ (valOf w).toRat := by
  have hnear := h.2 hr w hw
  rw [abs_of_nonneg (sub_nonneg.2 hqw)] at hnear
  linarith [(abs_le.1 hnear).2]

theorem RoundsTo.toRat_eq {r : Val} {q : ℚ} (h : RoundsTo r q) (hr : r.isFin = true) {w : F64}
    (hw : (valOf w).isFin = true) (hwq : (valOf w).toRat = q) : r.toRat = q :=
  hwq ▸ le_antisymm (h.toRat_le hr hw hwq.ge) (h.le_toRat hr hw hwq.le)

/-- Rounding keeps the sign. -/
theorem RoundsTo.toRat_nonneg {r : Val} {q : ℚ} (h : RoundsTo r q) (hr : r.isFin = true) (hq : 0 ≤ q) :
    0 ≤ r.toRat := by
  rw [← toRat_valOf_zero] at hq ⊢
  exact h.le_toRat hr (by decide) hq

/-- What 53 bits hold does not overflow. -/
theorem lt_overflow_bound {q : ℚ} (h : q ≤ 2 ^ 53) : q < (2 ^ 54 - 1) * 2 ^ 970 :=
  calc q ≤ 2 ^ 53 := h
    _ < (2 ^ 54 - 1) * 1 := by norm_num
    _ ≤ (2 ^ 54 - 1) * 2 ^ 970 := mul_le_mul_of_nonneg_left (one_le_pow₀ one_le_two) (by norm_num)

/-- Rounding does not carry a quotient over the next whole number `n + 1` where it lies 2^−12 below it. -/
theorem RoundsTo.floor_toRat_eq {r : Val} {q : ℚ} (h : RoundsTo r q) {n : Nat} (hn : n < 2 ^ 32) (hlower : (n : ℚ) ≤ q)
    (hupper : q ≤ n + 1 - 1 / 2 ^ 12) : ⌊r.toRat⌋ = (n : ℤ) := by
  have hn' : (n : ℚ) < 2 ^ 32 := by exact_mod_cast hn
  have hr : r.isFin = true := by
    rw [h.1, abs_of_nonneg (hlower.trans' n.cast_nonneg)]
    exact lt_overflow_bound (by linarith)
  obtain ⟨w, hw, hwn⟩ := exists_toRat_valOf_eq (k := n) (i := 0) (by omega) (by decide)
  obtain ⟨u, hu, hun⟩ := exists_toRat_valOf_eq (k := (n + 1) * 2 ^ 12 - 1) (i := 12) (by omega) (by decide)
  rw [pow_zero, div_one] at hwn
  have hun' : (valOf u).toRat = n + 1 - 1 / 2 ^ 12 := by
    rw [hun, Nat.cast_sub (by omega)]
    push_cast
    ring
  have hge := h.le_toRat hr hw (hwn ▸ hlower)
  have hle := h.toRat_le hr hu (hun' ▸ hupper)
  rw [Int.floor_eq_iff]
  push_cast
  constructor <;> linarith

/-! ### The operations -/

theorem roundsTo_roundedRat (q : ℚ) : RoundsTo (roundedRat q) q :=
  ⟨isFin_roundedRat_iff q, fun hfin _ hw => roundedRat_nearest hfin hw⟩

theorem RoundsTo.fdiv {a b : Val} (ha : a.isFin = true) (hb : b.isFin = true) (hne : b.toRat ≠ 0) :
    RoundsTo (fdiv a b) (a.toRat / b.toRat) := by
  obtain ⟨n₁, m₁, e₁, rfl⟩ := exists_eq_fin_of_isFin ha
  obtain ⟨n₂, m₂, e₂, rfl⟩ := exists_eq_fin_of_isFin hb
  exact roundsTo_of_cases fdiv_fin_eq_roundedRat (fdiv_fin_of_div_eq_zero hne)

theorem RoundsTo.fmul {a b : Val} (ha : a.isFin = true) (hb : b.isFin = true) :
    RoundsTo (fmul a b) (a.toRat * b.toRat) := by
  obtain ⟨n₁, m₁, e₁, rfl⟩ := exists_eq_fin_of_isFin ha
  obtain ⟨n₂, m₂, e₂, rfl⟩ := exists_eq_fin_of_isFin hb
  exact roundsTo_of_cases fmul_fin_eq_roundedRat fmul_fin_of_mul_eq_zero

/-- A product that overflowed or is NaN is not made finite by the division after it. -/
theorem isFin_of_isFin_fdiv {a b : Val} (hb : b.isFin = true) (h : (fdiv a b).isFin = true) :
    a.isFin = true := by
  obtain ⟨n₂, m₂, e₂, rfl⟩ := exists_eq_fin_of_isFin hb
  cases a with
  | nan => cases h
  | inf n => cases h
  | fin n m e => rfl

theorem toRat_valBitRate : valBitRate.toRat = 1187.5 := by decide +kernel

theorem toRat_valBlockBits : valBlockBits.toRat = 26 := by decide +kernel

/-! ### The samples per bit (R171) -/

/-- An integer of up to 53 bits is exact. -/
theorem roundVal_natCast {n : Nat} (hn : n < 2 ^ 53) :
    (roundVal false n 1).isFin = true ∧ (roundVal false n 1).toRat = n := by
  have hn' : (n : ℚ) ≤ 2 ^ 53 := by exact_mod_cast hn.le
  have hround : roundVal false n 1 = roundedRat n :=
    roundVal_eq_roundedRat Nat.one_pos (by simp) (by simp)
  have hfin : (roundedRat n).isFin = true :=
    (isFin_roundedRat_iff _).2 (by rw [Nat.abs_cast]; exact lt_overflow_bound hn')
  obtain ⟨w, hw, hwn⟩ := exists_toRat_valOf_eq (i := 0) hn (by decide)
  rw [pow_zero, div_one] at hwn
  rw [hround]
  exact ⟨hfin, (roundsTo_roundedRat _).toRat_eq hfin hw hwn⟩

/-- SPB holds the samples per bit of every rate. -/
theorem samplesPerBit_lt {fs : Nat} (h : fs < 2 ^ 32) : samplesPerBit fs < 2 ^ 32 := by
  rw [samplesPerBit, Config.twiceBitRate]
  omega

/-- A rate of 4750 gives the four samples per bit that a symbol needs. -/
theorem samplesPerBit_lt_four_iff {fs : Nat} : samplesPerBit fs < 4 ↔ fs < 4750 := by
  rw [samplesPerBit, Config.twiceBitRate]
  omega

theorem rate_div_bitRate (fs : Nat) : (fs : ℚ) / 1187.5 = 2 * fs / 2375 := by ring

theorem floor_rate_div_bitRate (fs : Nat) : ⌊(fs : ℚ) / 1187.5⌋ = (samplesPerBit fs : ℤ) := by
  have hfloor := Rat.floor_natCast_div_natCast (2 * fs) 2375
  rw [rate_div_bitRate]
  exact_mod_cast hfloor

/-! ### The ceiling of a value -/

theorem ceilMag_eq_ceilDiv (m e : Nat) : ceilMag m e = (m * 2 ^ e) ⌈/⌉ unitScale := by
  have hunit := unitScale_pos
  rw [ceilMag]
  split
  · next hm => rw [hm, Nat.zero_mul, zero_ceilDiv]
  · rw [Nat.ceilDiv_eq_add_pred_div, Nat.add_sub_assoc hunit]

theorem ceilDiv_eq_ceil (n : Nat) {d : Nat} (hd : 0 < d) : n ⌈/⌉ d = ⌈(n : ℚ) / d⌉₊ := by
  refine eq_of_forall_ge_iff fun c => ?_
  rw [ceilDiv_le_iff_le_mul hd, Nat.ceil_le, div_le_iff₀' (by exact_mod_cast hd)]
  exact_mod_cast Iff.rfl

theorem ceilMag_eq_ceil {n : Bool} {m e : Nat} (h : 0 ≤ (Val.fin n m e).toRat) :
    (ceilMag m e : ℤ) = ⌈(Val.fin n m e).toRat⌉ := by
  rw [← Int.natCast_ceil_eq_ceil h, ← abs_of_nonneg h, abs_toRat_fin, ceilMag_eq_ceilDiv,
    ceilDiv_eq_ceil _ unitScale_pos]

/-! ### The pair count -/

/-- R173: the binary64 quotient of SECONDS. -/
def pairQuotient (v : Val) : Val := fdiv (fmul v valBitRate) valBlockBits

theorem fdiv_pairQuotient (v : Val) : fdiv (fmul v valBitRate) valBlockBits = pairQuotient v := rfl

/-- R173: SECONDS that is not negative has no negative quotient, so that its ceiling is a count. -/
theorem toRat_pairQuotient_nonneg {v : Val} (hv : v.isFin = true) (hpos : 0 ≤ v.toRat)
    (hq : (pairQuotient v).isFin = true) : 0 ≤ (pairQuotient v).toRat := by
  have hblock : valBlockBits.isFin = true := by decide
  have hprod := isFin_of_isFin_fdiv hblock hq
  have hprodpos : 0 ≤ (fmul v valBitRate).toRat :=
    (RoundsTo.fmul hv (by decide)).toRat_nonneg hprod
      (mul_nonneg hpos (by rw [toRat_valBitRate]; norm_num))
  refine (RoundsTo.fdiv hprod hblock (by rw [toRat_valBlockBits]; norm_num)).toRat_nonneg hq ?_
  exact div_nonneg hprodpos (by rw [toRat_valBlockBits]; norm_num)

theorem toRat_fin_lt_zero_iff (neg : Bool) (mant exp : Nat) :
    (Val.fin neg mant exp).toRat < 0 ↔ neg = true ∧ mant ≠ 0 := by
  by_cases hmant : mant = 0
  · rw [(toRat_fin_eq_zero_iff neg mant exp).2 hmant]
    simp [hmant]
  · rw [toRat_fin_neg_iff neg exp hmant]
    simp [hmant]

/-- R173: which SECONDS have a pair count, and what it is. -/
theorem pairCount_eq_ok_iff {x : F64} {count : Nat} :
    pairCount x = .ok count ↔ (valOf x).isFin = true ∧ 0 ≤ (valOf x).toRat ∧
      ∃ neg mant exp, pairQuotient (valOf x) = .fin neg mant exp ∧ ceilMag mant exp = count := by
  rw [pairCount]
  cases valOf x with
  | nan => simp [raise, Val.isFin]
  | inf neg => simp [raise, Val.isFin]
  | fin neg mant exp =>
    simp only [fdiv_pairQuotient, Val.isFin, true_and]
    rw [← not_lt, toRat_fin_lt_zero_iff]
    by_cases hneg : neg = true ∧ mant ≠ 0
    · simp [hneg, raise]
    · rw [if_neg hneg]
      cases pairQuotient (.fin neg mant exp) <;> simp [hneg, raise]

end Sys2Proof.Machine

open Sys2Proof Sys2Proof.Machine

/-- Settles O50: the rate is exact, and its quotient, in steps of 1/2375, is not rounded up to the next whole number. -/
theorem samplesPerBitIsTheFloor : Obligations.SamplesPerBitIsTheFloor := by
  intro fs hfs
  refine ⟨rfl, (floor_rate_div_bitRate fs).symm, ?_⟩
  obtain ⟨hfin, hrate⟩ := roundVal_natCast (n := fs) (by omega)
  have hround := RoundsTo.fdiv hfin (by decide : valBitRate.isFin = true) (by rw [toRat_valBitRate]; norm_num)
  rw [hrate, toRat_valBitRate, rate_div_bitRate] at hround
  have hlower : 2375 * samplesPerBit fs ≤ 2 * fs := Nat.mul_div_le _ _
  have hupper : 2 * fs + 1 ≤ 2375 * (samplesPerBit fs + 1) := Nat.lt_mul_div_succ _ (by decide)
  have hlower' : (2375 * samplesPerBit fs : ℚ) ≤ 2 * fs := by exact_mod_cast hlower
  have hupper' : (2 * fs + 1 : ℚ) ≤ 2375 * (samplesPerBit fs + 1) := by exact_mod_cast hupper
  exact (hround.floor_toRat_eq (samplesPerBit_lt hfs) (by linarith) (by linarith)).symm

/-- Settles O54: SECONDS has a pair count exactly where it and its quotient are finite and it is not negative, and the
quotient then has the sign that its ceiling needs. -/
theorem secondsGivePairCount : Obligations.SecondsGivePairCount := by
  intro x v q
  refine ⟨fun h => (pairCount_cases x).resolve_left ?_, fun hv hpos hq => ?_⟩
  · rintro ⟨n, hn⟩
    obtain ⟨hv, hpos, neg, mant, exp, hq, -⟩ := pairCount_eq_ok_iff.1 hn
    rcases h with hnot | hneg | hnot
    · exact absurd (hv.symm.trans hnot) nofun
    · exact absurd hneg (not_lt.2 hpos)
    · exact absurd ((congrArg Val.isFin hq).symm.trans hnot) nofun
  · obtain ⟨neg, mant, exp, heq⟩ := exists_eq_fin_of_isFin hq
    have hqpos : 0 ≤ q.toRat := toRat_pairQuotient_nonneg hv hpos hq
    rw [heq] at hqpos ⊢
    exact ⟨ceilMag mant exp, pairCount_eq_ok_iff.2 ⟨hv, hpos, neg, mant, exp, heq, rfl⟩, ceilMag_eq_ceil hqpos⟩

end

section
/-! UNMOD: its result and its errors (R170, R207: O47, O48), and the host's chain of the single commands (R177: O49). -/

namespace Sys2Proof.Machine

/-! ### The stages -/

/-- MAX_LEN admits what shaping `len` bits at `spb` samples each builds (R72): the bits, the prototype, the impulses,
the kernel and the result. -/
structure StagesFit (maxLen : Option Nat) (len spb : Nat) : Prop where
  bits : fits maxLen len = true
  prototype : fits maxLen spb = true
  impulses : fits maxLen (len * spb) = true
  kernel : fits maxLen (2 * spb) = true
  result : fits maxLen (len * spb + 2 * spb - 1) = true

/-- The shaped symbols of the encoded bits at `spb` samples each, with the state's rate and convolution. -/
def modulated (s : State) (spb : Nat) : List Val :=
  convolve s.platform.conv (impulses spb (diffenc s.bitsIn)) (kernel s.platform.kernels spb s.sampleRate.toNat)

@[simp] theorem modulated_length (s : State) (spb : Nat) :
    (modulated s spb).length = s.bitsIn.length * spb + 2 * spb - 1 := by simp [modulated]

/-- R170: UNMOD where every stage succeeds. -/
theorem exec_unmod_of_stagesFit {s : State} {spb : Nat} (hrate : spb = samplesPerBit s.sampleRate.toNat)
    (hspb : 4 ≤ spb) (hbits : s.bitsIn ≠ []) (hfit : StagesFit s.platform.maxLen s.bitsIn.length spb) :
    exec .unmod s = .next (succeedSamples (modulated s spb) s) := by
  subst hrate
  rw [exec, execUnmod_eq, if_pos hfit.bits, if_neg hspb.not_gt, if_pos ⟨hfit.prototype, hfit.impulses⟩,
    if_neg (by simpa using hbits), if_pos ⟨hfit.kernel, hfit.result⟩, modulated]

/-! ### Runs of host accesses -/

theorem core_run_succ_next_iff {n : Nat} {s t : State} :
    core.run (n + 1) s = .next t ↔ ∃ u, step s = .next u ∧ core.run n u = .next t := by
  have hcore : core.step s = step s := rfl
  simp only [Host.Core.run, hcore]
  cases step s <;> simp

theorem core_run_succ {n : Nat} {s t u : State} (hstep : step s = .next u) (hrun : core.run n u = .next t) :
    core.run (n + 1) s = .next t := core_run_succ_next_iff.2 ⟨u, hstep, hrun⟩

/-- Runs that go on are put together. -/
theorem core_run_add {m n : Nat} {s t u : State} (hm : core.run m s = .next u) (hn : core.run n u = .next t) :
    core.run (m + n) s = .next t := by
  induction m generalizing s with
  | zero => cases hm; rwa [Nat.zero_add]
  | succ m ih =>
    obtain ⟨v, hstep, hrun⟩ := core_run_succ_next_iff.1 hm
    rw [Nat.add_right_comm]
    exact core_run_succ hstep (ih hrun)

theorem step_command {s : State} {w : Word} {i : Instr} {rest : List HostAction}
    (hhost : s.host = .write 0x00 (.word w) :: rest) (hw : decode w = .ok i) :
    step s = exec i { s with host := rest, cmd := w } :=
  (step_cmdWrite hhost).trans (runCommand_of_decode hw _)

theorem step_store {s t : State} {r : Reg} {v : HostValue} {rest : List HostAction}
    (hhost : s.host = .write (regIndex r) v :: rest) (h : StoresTo { s with host := rest } r v t) :
    step s = .next t := by
  rw [step_access hhost, hostAccess_write_regIndex, h.writeReg]

/-! ### The host's own chain (R177) -/

section Chain
variable {s : State} {spb : Nat} {rest : List HostAction}

/-- DIFF_ENC. -/
theorem run_diffEnc (hhost : s.host = .write 0x00 (.word 0x10) :: rest)
    (hroom : fits s.platform.maxLen s.bitsIn.length = true) :
    core.run 1 s = .next (succeededWith (.bits (diffenc s.bitsIn)) { s with host := rest, cmd := 0x10 }) :=
  core_run_succ ((step_command hhost rfl).trans (exec_diffEnc_of_fits hroom)) rfl

/-- The bits and SPB written, then BIPHASE. -/
theorem run_biphase {d : List Bit} {w : Word}
    (hhost : s.host = .write 0x11 (.bits d) :: .write 0x06 (.word w) :: .write 0x00 (.word 0x11) :: rest)
    (hw : w.toNat = spb) (hspb : 4 ≤ spb) (hfit : StagesFit s.platform.maxLen d.length spb) :
    core.run 3 s = .next (succeededWith (.samples (d.flatMap (symbolPatterns spb)))
      { s with host := rest, cmd := 0x11, bitsIn := d, spb := w }) := by
  subst hw
  refine core_run_succ (step_store (r := .bitsIn) hhost (.bitsIn hfit.bits)) ?_
  refine core_run_succ (step_store (r := .spb) rfl (.spb w)) ?_
  refine core_run_succ ((step_command rfl rfl).trans ?_) rfl
  rw [exec, execBiphase_eq, if_pos hfit.bits, if_neg hspb.not_gt, if_pos ⟨hfit.prototype, hfit.impulses⟩,
    succeedSamples_impulses]

/-- The symbols of `len` bits written, then SHAPE. -/
theorem run_shape {x : List F64} {len : Nat}
    (hhost : s.host = .write 0x12 (.doubles x) :: .write 0x00 (.word 0x12) :: rest) (hx : x.length = len * spb)
    (hlen : len ≠ 0) (hw : s.spb.toNat = spb) (hspb : spb ≠ 0) (hrate : s.sampleRate.toNat ≠ 0)
    (hfit : StagesFit s.platform.maxLen len spb) :
    core.run 2 s = .next (succeedSamples
      (convolve s.platform.conv (x.map valOf) (kernel s.platform.kernels spb s.sampleRate.toNat))
      { s with host := rest, cmd := 0x12, impIn := x }) := by
  subst hw
  have hroom := hfit.impulses
  have hresult := hfit.result
  have hinput : x.length ≠ 0 := hx ▸ Nat.mul_ne_zero hlen hspb
  rw [← hx] at hroom hresult
  refine core_run_succ (step_store (r := .impIn) hhost (.impIn hroom)) ?_
  refine core_run_succ ((step_command rfl rfl).trans ?_) rfl
  rw [exec, execShape_eq, if_pos hroom, if_neg (by tauto), if_pos ⟨hfit.kernel, hresult⟩]
  rfl

end Chain

/-- The state in which the host goes through the chain, with the results that it writes back. -/
def hostChain (s : State) (spb : Nat) (d : List Bit) (x : List F64) : State :=
  { s with host :=
    [.write 0x00 (.word 0x10), .write 0x11 (.bits d), .write 0x06 (.word (BitVec.ofNat 32 spb)),
     .write 0x00 (.word 0x11), .write 0x12 (.doubles x), .write 0x00 (.word 0x12)] }

end Sys2Proof.Machine

open Sys2Proof Sys2Proof.Machine

/-- Settles O47: each stage succeeds from four samples per bit on. -/
theorem unmodRuns : Obligations.UnmodRuns := by
  intro s spb hrate hmin hbits hinput hsymbol himpulses hkernel hresult
  have hspb : 4 ≤ spb := hrate ▸ not_lt.1 (samplesPerBit_lt_four_iff.not.2 hmin.not_gt)
  refine ⟨_, _, exec_unmod_of_stagesFit hrate hspb hbits ⟨hinput, hsymbol, himpulses, hkernel, hresult⟩, ?_⟩
  rw [publish_length, modulated_length]

/-- Settles O48: a rate below 4750 fails before the input is looked at, and an empty input gives SHAPE's stage none. -/
theorem unmodRejectsDegenerate : Obligations.UnmodRejectsDegenerate := by
  intro s hinput
  rw [exec, execUnmod_eq, if_pos hinput, abort_degenerateParameters]
  refine ⟨fun hrate => if_pos (samplesPerBit_lt_four_iff.2 hrate), fun hbits hsymbol => ?_⟩
  have hlen : s.bitsIn.length = 0 := by simp [hbits]
  have hroom : fits s.platform.maxLen (samplesPerBit s.sampleRate.toNat) = true ∧
      fits s.platform.maxLen (s.bitsIn.length * samplesPerBit s.sampleRate.toNat) = true :=
    ⟨hsymbol, by rw [hlen, Nat.zero_mul, fits_zero]⟩
  rw [if_pos hroom, if_pos hlen, ite_self]

/-- Settles O49: SHAPE reads the patterns that BIPHASE publishes as the values that UNMOD hands on, and no NaN is drawn
before it. -/
theorem unmodEqualsHostChain : Obligations.UnmodEqualsHostChain := by
  intro s spb hrate hspb hbits hinput hsymbol himpulses hkernel hresult
  have hfit : StagesFit s.platform.maxLen s.bitsIn.length spb := ⟨hinput, hsymbol, himpulses, hkernel, hresult⟩
  have hspbReg : (BitVec.ofNat 32 spb).toNat = spb :=
    Nat.mod_eq_of_lt (hrate ▸ samplesPerBit_lt s.sampleRate.isLt)
  have hd : (diffenc s.bitsIn).length = s.bitsIn.length := diffenc_length _
  have hlen : s.bitsIn.length ≠ 0 := by simpa using hbits
  have hrate0 : s.sampleRate.toNat ≠ 0 := by omega
  have hrun₁ := run_diffEnc rfl
    (s := hostChain s spb (diffenc s.bitsIn) ((diffenc s.bitsIn).flatMap (symbolPatterns spb))) hinput
  have hrun₄ := core_run_add hrun₁ (run_biphase rfl hspbReg hspb (hd ▸ hfit))
  have hrun₆ := core_run_add hrun₄ (run_shape rfl (by simp) hlen hspbReg (by omega) hrate0 hfit)
  refine ⟨_, _, _, _, _, _, exec_unmod_of_stagesFit hrate hspb hbits hfit, rfl, rfl, rfl, hrun₁, rfl, hrun₄, rfl,
    hrun₆, ?_, rfl, hspbReg, rfl, rfl⟩
  rw [← impulses_eq_map_valOf]
  rfl

end

section
/-! BITSTREAM as a function of the platform and three operands: its result (R172: O51), the length of that result (R176:
O55), and the host's generator slot, which it does not see (R175: O56). -/

namespace Sys2Proof.Machine

/-! ### The result -/

/-- What BITSTREAM makes of its operands (R172). -/
def bitstreamResult (p : Platform) (pi : Word) (name : List Byte) (seconds : F64) : Except Abort (List Bit) := do
  needEncoder p
  let v ← nameOperands p.maxLen pi name
  let n ← pairCount seconds
  encodeBatches p n n (freshGenerator v.1 v.2) []

theorem execBitstream_eq_settle (s : State) :
    execBitstream s = settle s (bitstreamResult s.platform s.piIn s.psIn s.seconds >>= fun bs =>
      .ok (succeed (.bits bs) s)) := by
  simp only [execBitstream, bitstreamResult, bind_assoc]

theorem bind_eq_ok_iff {α β : Type} {x : Except Abort α} {f : α → Except Abort β} {b : β} :
    (x >>= f) = .ok b ↔ ∃ a, x = .ok a ∧ f a = .ok b := by
  cases x <;> simp

theorem bind_ok_eq_raise_iff {α β : Type} {x : Except Abort α} {f : α → β} {e : Err} :
    (x >>= fun a => .ok (f a)) = raise e ↔ x = raise e := by
  cases x <;> simp [raise]

/-- A BITSTREAM that goes on succeeds with its result, or fails with its error. -/
theorem execBitstream_next_iff {s t : State} :
    execBitstream s = .next t ↔
      (∃ bs, bitstreamResult s.platform s.piIn s.psIn s.seconds = .ok bs ∧ t = succeed (.bits bs) s) ∨
        ∃ e, bitstreamResult s.platform s.piIn s.psIn s.seconds = raise e ∧ t = abort e s := by
  simp only [execBitstream_eq_settle, settle_next_iff, bind_eq_ok_iff, bind_ok_eq_raise_iff, Except.ok.injEq,
    eq_comm (a := t)]

theorem needEncoder_ok_iff {p : Platform} : needEncoder p = .ok () ↔ p.enc ≠ .unbound ∧ p.batch ≠ 0 := by
  by_cases henc : p.enc = .unbound <;> by_cases hbatch : p.batch = 0 <;> simp [needEncoder, henc, hbatch]

/-! ### The number of bits (R176) -/

/-- The loop adds `c` bits for each pair that remains. -/
theorem encodeBatches_length {p : Platform} {c : Nat} (hbatch : p.batch ≠ 0)
    (hlength : ∀ batch b, callEncoder p.enc batch = .ok b → b.length = c * batch.length)
    {fuel n : Nat} (hfuel : n ≤ fuel) {g : Generator} {acc bs : List Bit}
    (h : encodeBatches p fuel n g acc = .ok bs) : bs.length = acc.length + c * n := by
  induction fuel generalizing n g acc with
  | zero =>
    obtain rfl : n = 0 := by omega
    cases h
    rfl
  | succ fuel ih =>
    rw [encodeBatches] at h
    split at h
    · next hn => cases h; rw [hn]; rfl
    · next hn =>
      simp only [bind_eq_ok_iff] at h
      obtain ⟨-, -, h⟩ := h
      split at h
      · next b hb =>
        obtain ⟨-, -, h⟩ := bind_eq_ok_iff.1 h
        have hsplit : n = min p.batch n + (n - min p.batch n) := by omega
        rw [ih (by omega) h, List.length_append, hlength _ _ hb, pull_length, Nat.add_assoc, ← Nat.mul_add, ← hsplit]
      · cases h
      · cases h

/-! ### The batches of a stream (R174) -/

/-- The number of batches is the quotient rounded up. -/
theorem lt_batches_iff {b n j : Nat} (hb : 0 < b) : j < (n + b - 1) / b ↔ j * b < n := by
  rw [← Nat.ceilDiv_eq_add_pred_div, ← not_le, ceilDiv_le_iff_le_mul hb, not_le, Nat.mul_comm]

/-- The loop, where every batch is answered and has room. -/
theorem encodeFrom_zero_of_answered {p : Platform} {pi : Half} {ps : Vector Byte 8} {n k : Nat}
    {answer : List Pair → List Bit} (hb : 0 < p.batch) (hk : ∀ j, j < k ↔ j * p.batch < n)
    (hbatch : fits p.maxLen (min p.batch n) = true)
    (hbits : fits p.maxLen ((List.range k).flatMap fun j => answer (streamBatch pi ps p.batch n j)).length = true)
    (hanswers : ∀ j, j < k → streamAnswer p pi ps n j = .ok (answer (streamBatch pi ps p.batch n j))) :
    encodeFrom p pi ps n n 0 = .ok ((List.range k).flatMap fun j => answer (streamBatch pi ps p.batch n j)) := by
  have hlast : n ≤ k * p.batch := not_lt.1 ((hk k).not.1 (lt_irrefl k))
  have hfuel : k ≤ n := not_lt.1 ((hk n).not.2 (not_lt.2 (Nat.le_mul_of_pos_right n hb)))
  calc encodeFrom p pi ps n n 0
      = encodeFrom p pi ps n (n - k + k) 0 := by rw [Nat.sub_add_cancel hfuel]
    _ = encodeFrom p pi ps n (n - k) k :=
      encodeFrom_zero_of_batchesPass (fun j => (hk j).1) (batchPasses_of_answered hbatch hbits hanswers) _
    _ = .ok (streamBits p pi ps n k) := encodeFrom_of_le hlast ..
    _ = _ := by rw [streamBits_eq_flatMap hanswers]

end Sys2Proof.Machine

open Sys2Proof Sys2Proof.Machine

/-- Settles O51: the loop passes every batch, and their number is the quotient rounded up. -/
theorem bitstreamConcatenatesBatches : Obligations.BitstreamConcatenatesBatches := by
  intro s ps n answer henc hb hpi hlen hps hn batch bs hanswers hroom hbatch hbits
  have hloop := encodeFrom_zero_of_answered hb (fun _ => lt_batches_iff hb) hbatch hbits
    fun j hj => hanswers j ((lt_batches_iff hb).1 hj)
  rw [exec, execBitstream_eq_encodeFrom henc hb hpi hlen hps hn hroom, hloop, bind_ok, settle_ok,
    succeed_eq_succeededWith]

/-- Settles O55: a BITSTREAM without an error has gone through its loop, which adds `c` bits a pair. -/
theorem bitstreamLengthPerPair : Obligations.BitstreamLengthPerPair := by
  intro s t c n hn hlength hexec h0
  rcases execBitstream_next_iff.1 hexec with ⟨bs, hresult, rfl⟩ | ⟨e, -, rfl⟩
  · simp only [bitstreamResult, bind_eq_ok_iff, hn, Except.ok.injEq, exists_eq_left'] at hresult
    obtain ⟨_, henc, v, -, hloop⟩ := hresult
    have hlen := encodeBatches_length (needEncoder_ok_iff.1 henc).2 hlength le_rfl hloop
    exact ⟨bs, rfl, by simpa using hlen⟩
  · exact absurd h0 (codeWord_ne_zero e)

/-- Settles O56: the result is a function of operands that do not include the slot. -/
theorem bitstreamGeneratorIsPrivate : Obligations.BitstreamGeneratorIsPrivate := by
  intro s t valid g h
  rcases execBitstream_next_iff.1 h with ⟨bs, hresult, rfl⟩ | ⟨e, hresult, rfl⟩
  · exact ⟨rfl, rfl, execBitstream_next_iff.2 (.inl ⟨bs, hresult, rfl⟩)⟩
  · exact ⟨rfl, rfl, execBitstream_next_iff.2 (.inr ⟨e, hresult, rfl⟩)⟩

end

section
/-! The errors of R200: which command raises which one, on which check and in which order, and all that a failing
command changes (R202 to R206: O16, O24, O26, O27); and the idle block (R217: O6). -/

namespace Sys2Proof.Machine

/-! ### What the stages raise -/

/-- R101, R206: PI is looked at before the name. -/
theorem validate_raise_iff {pi : Word} {name : List Byte} {e : Err} :
    validate pi name = raise e ↔
      (¬ ValidPi pi ∧ e = .invalidPICode) ∨ (ValidPi pi ∧ 8 < name.length ∧ e = .invalidPSName) := by
  have hout : pi.toInt < 0 ∨ 0xFFFF < pi.toInt ↔ ¬ ValidPi pi := by rw [ValidPi]; omega
  rcases validate_cases pi name with ⟨v, hv⟩ | ⟨hv, hpi⟩ | ⟨hv, hpi, hlen⟩
  · obtain ⟨hpi, hlen, -⟩ := validate_ok_iff.1 hv
    simp [hv, raise, show ValidPi pi from hpi, hlen.not_gt]
  · simp [hv, raise, hout.1 hpi, eq_comm]
  · rw [hout, not_not] at hpi
    simp [hv, raise, hpi, hlen, eq_comm]

theorem nameOperands_raise_iff {maxLen : Option Nat} {pi : Word} {name : List Byte} {e : Err} :
    nameOperands maxLen pi name = raise e ↔ fits maxLen name.length = true ∧
      ((¬ ValidPi pi ∧ e = .invalidPICode) ∨ (ValidPi pi ∧ 8 < name.length ∧ e = .invalidPSName)) := by
  rw [nameOperands_eq, ← validate_raise_iff]
  cases fits maxLen name.length with
  | false => simp [raise]
  | true =>
    cases validate pi name with
    | ok v => cases fits maxLen Config.psLen <;> simp [raise]
    | error a => simp [raise]

theorem pairCount_of_toOption_eq_none {x : F64} (h : (pairCount x).toOption = none) :
    pairCount x = raise .degenerateParameters := by
  rcases pairCount_cases x with ⟨n, hn⟩ | hfail
  · simp [hn, Except.toOption] at h
  · exact hfail

theorem eq_degenerate_of_pairCount {x : F64} {e : Err} (h : pairCount x = raise e) : e = .degenerateParameters := by
  rcases pairCount_cases x with ⟨n, hn⟩ | hfail
  · simp [hn, raise] at h
  · simpa [hfail, raise, eq_comm] using h

theorem needRoom_ne_raise (maxLen : Option Nat) (n : Nat) (e : Err) : needRoom maxLen n ≠ raise e := by
  cases h : fits maxLen n <;> simp [needRoom, h, raise]

/-- R123: the loop raises the encoder's own answer to one of its batches. -/
theorem exists_err_of_encodeBatches {p : Platform} {fuel n : Nat} {g : Generator} {acc : List Bit} {e : Err}
    (h : encodeBatches p fuel n g acc = raise e) :
    ∃ batch info, callEncoder p.enc batch = .err info ∧ e = .channelEncoder info := by
  induction fuel generalizing n g acc with
  | zero => cases h
  | succ fuel ih =>
    rw [encodeBatches] at h
    split at h
    · cases h
    · rcases bind_eq_error_iff.1 h with hroom | ⟨-, -, h⟩
      · exact absurd hroom (needRoom_ne_raise _ _ _)
      · split at h
        · rcases bind_eq_error_iff.1 h with hroom | ⟨-, -, h⟩
          · exact absurd hroom (needRoom_ne_raise _ _ _)
          · exact ih h
        · next info hinfo => cases h; exact ⟨_, info, hinfo, rfl⟩
        · cases h

theorem needEncoder_ne_raise (p : Platform) (e : Err) : needEncoder p ≠ raise e := by
  by_cases henc : p.enc = .unbound <;> by_cases hbatch : p.batch = 0 <;> simp [needEncoder, henc, hbatch, raise]

/-- R206: BITSTREAM's checks, each made when those before it have passed. -/
theorem bitstreamResult_raise_iff {p : Platform} {pi : Word} {name : List Byte} {seconds : F64} {e : Err} :
    bitstreamResult p pi name seconds = raise e ↔ (p.enc ≠ .unbound ∧ p.batch ≠ 0) ∧
      (nameOperands p.maxLen pi name = raise e ∨ ∃ v, nameOperands p.maxLen pi name = .ok v ∧
        (pairCount seconds = raise e ∨ ∃ n, pairCount seconds = .ok n ∧
          encodeBatches p n n (freshGenerator v.1 v.2) [] = raise e)) := by
  have henc := needEncoder_ne_raise p e
  rw [← needEncoder_ok_iff]
  simp only [raise] at henc
  simp only [bitstreamResult, raise, bind_eq_error_iff, henc, false_or, Unique.exists_iff]

/-! ### What the commands raise -/

/-- The errors of R200, with the commands listed for each and what must have failed for it to be raised. -/
inductive Raises (s : State) : Instr → Err → Prop
  | invalidPICode {i : Instr} (hkind : i ∈ [.gwgInit, .bitstream]) (hpi : ¬ ValidPi s.piIn) :
      Raises s i .invalidPICode
  | invalidPSName {i : Instr} (hkind : i ∈ [.gwgInit, .bitstream]) (hlen : 8 < s.psIn.length) :
      Raises s i .invalidPSName
  | degenerateParameters {i : Instr} (hkind : i ∈ [.biphase, .shape, .unmod, .bitstream]) :
      Raises s i .degenerateParameters
  | channelEncoder {batch : List Pair} {info : EncErr} (hanswer : callEncoder s.platform.enc batch = .err info) :
      Raises s .bitstream (.channelEncoder info)
  | noGenerator {i : Instr} (hkind : pullsWords i) (hvalid : s.genValid = false) : Raises s i .noGenerator

theorem raises_of_nameOperands {s : State} {i : Instr} {e : Err} (hi : i ∈ [.gwgInit, .bitstream])
    (h : nameOperands s.platform.maxLen s.piIn s.psIn = raise e) : Raises s i e := by
  obtain ⟨-, ⟨hpi, rfl⟩ | ⟨-, hlen, rfl⟩⟩ := nameOperands_raise_iff.1 h
  · exact .invalidPICode hi hpi
  · exact .invalidPSName hi hlen

theorem raises_of_bitstreamResult {s : State} {e : Err}
    (h : bitstreamResult s.platform s.piIn s.psIn s.seconds = raise e) : Raises s .bitstream e := by
  obtain ⟨-, hname | ⟨v, -, hcount | ⟨n, -, hloop⟩⟩⟩ := bitstreamResult_raise_iff.1 h
  · exact raises_of_nameOperands (by simp) hname
  · exact eq_degenerate_of_pairCount hcount ▸ .degenerateParameters (by simp)
  · obtain ⟨batch, info, hanswer, rfl⟩ := exists_err_of_encodeBatches hloop
    exact .channelEncoder hanswer

/-- A command that fails has raised one of its errors, and its state is the abort's (R202, R203). -/
theorem exists_raises_of_exec {i : Instr} {s t : State} (h : exec i s = .next t) (hfail : t.errLast ≠ 0) :
    ∃ e, Raises s i e ∧ t = abort e s := by
  have hpull (hi : pullsWords i) : ∃ e, Raises s i e ∧ t = abort e s := by
    rw [exec_of_pullsWords hi] at h
    rcases execGwgPull_next_iff.1 h with ⟨-, -, rfl⟩ | ⟨hvalid, ht⟩
    · exact absurd rfl hfail
    · exact ⟨_, .noGenerator hi hvalid, ht⟩
  cases i with
  | gwgInit =>
    rw [exec, execGwgInit_eq] at h
    split at h
    · cases h; exact absurd rfl hfail
    · next e he => cases h; exact ⟨e, raises_of_nameOperands (by simp) he, rfl⟩
    · cases h
    · cases h
  | gwgNext => exact hpull (.inl rfl)
  | gwgPull n => exact hpull (.inr ⟨n, rfl⟩)
  | diffEnc =>
    rw [exec, execDiffEnc_eq] at h
    split_ifs at h
    cases h
    exact absurd rfl hfail
  | biphase =>
    rw [exec, execBiphase_eq] at h
    split_ifs at h <;> cases h
    · exact ⟨_, .degenerateParameters (by simp), rfl⟩
    · exact absurd rfl hfail
  | shape =>
    rw [exec, execShape_eq] at h
    split_ifs at h <;> cases h
    · exact ⟨_, .degenerateParameters (by simp), rfl⟩
    · exact absurd rfl hfail
  | unmod =>
    rw [exec, execUnmod_eq] at h
    split_ifs at h <;> cases h
    · exact ⟨_, .degenerateParameters (by simp), rfl⟩
    · exact ⟨_, .degenerateParameters (by simp), rfl⟩
    · exact absurd rfl hfail
  | bitstream =>
    rcases execBitstream_next_iff.1 h with ⟨bs, -, rfl⟩ | ⟨e, he, ht⟩
    · exact absurd rfl hfail
    · exact ⟨e, raises_of_bitstreamResult he, ht⟩

theorem Raises.code_mem_errorCodes {s : State} {i : Instr} {e : Err} (h : Raises s i e) : e.code ∈ errorCodes i := by
  cases h with
  | invalidPICode hkind => exact (by decide : ∀ j ∈ [Instr.gwgInit, .bitstream], 1 ∈ errorCodes j) i hkind
  | invalidPSName hkind => exact (by decide : ∀ j ∈ [Instr.gwgInit, .bitstream], 2 ∈ errorCodes j) i hkind
  | degenerateParameters hkind =>
    exact (by decide : ∀ j ∈ [Instr.biphase, .shape, .unmod, .bitstream], 3 ∈ errorCodes j) i hkind
  | channelEncoder => simp [errorCodes, Err.code]
  | noGenerator hkind => rcases hkind with rfl | ⟨n, rfl⟩ <;> exact List.mem_cons_self

theorem not_raises_diffEnc (s : State) (e : Err) : ¬ Raises s .diffEnc e := fun h =>
  List.not_mem_nil h.code_mem_errorCodes

theorem Raises.genValid_of_pullsWords {s : State} {i : Instr} {e : Err} (h : Raises s i e) (hi : pullsWords i) :
    s.genValid = false := by
  cases h with
  | noGenerator _ hvalid => exact hvalid
  | invalidPICode hkind => rcases hi with rfl | ⟨n, rfl⟩ <;> simp at hkind
  | invalidPSName hkind => rcases hi with rfl | ⟨n, rfl⟩ <;> simp at hkind
  | degenerateParameters hkind => rcases hi with rfl | ⟨n, rfl⟩ <;> simp at hkind
  | channelEncoder => rcases hi with h | ⟨n, h⟩ <;> cases h

theorem Raises.operands_of_gwgInit {s : State} {e : Err} (h : Raises s .gwgInit e) :
    ¬ (ValidPi s.piIn ∧ s.psIn.length ≤ 8) := by
  cases h with
  | invalidPICode _ hpi => exact fun hvalid => hpi hvalid.1
  | invalidPSName _ hlen => exact fun hvalid => hvalid.2.not_gt hlen
  | degenerateParameters hkind => simp at hkind
  | noGenerator hkind => rcases hkind with h | ⟨n, h⟩ <;> cases h

theorem Raises.encoder_of_code_four {s : State} {i : Instr} {e : Err} (h : Raises s i e) (hcode : e.codeWord = 4) :
    ∃ batch info, callEncoder s.platform.enc batch = .err info ∧ e.info = some info := by
  cases h with
  | channelEncoder hanswer => exact ⟨_, _, hanswer, rfl⟩
  | invalidPICode => exact absurd hcode (by decide)
  | invalidPSName => exact absurd hcode (by decide)
  | degenerateParameters => exact absurd hcode (by decide)
  | noGenerator => exact absurd hcode (by decide)

/-! ### The state an error leaves -/

theorem abort_eq_failedWith (e : Err) (s : State) : abort e s = failedWith e.code e.info s := rfl

theorem code_pos (e : Err) : 0 < e.code := by cases e <;> exact Nat.succ_pos _

theorem execGwgInit_of_raise {s : State} {e : Err} (h : nameOperands s.platform.maxLen s.piIn s.psIn = raise e) :
    execGwgInit s = .next (failedWith e.code e.info s) := by
  rw [execGwgInit_eq, h]
  rfl

theorem execBitstream_of_raise {s : State} {e : Err}
    (h : bitstreamResult s.platform s.piIn s.psIn s.seconds = raise e) :
    execBitstream s = .next (failedWith e.code e.info s) :=
  execBitstream_next_iff.2 (.inr ⟨e, h, rfl⟩)

end Sys2Proof.Machine

open Sys2Proof Sys2Proof.Machine

/-- Settles O6: a step with an empty queue serves nothing. -/
theorem idleBlockHoldsState : Obligations.IdleBlockHoldsState := fun _ hidle => step_idle hidle

/-- Settles O16: the operands raise the first error that applies, and an abort does not touch the slot. -/
theorem failedGwgInitKeepsGenerator : Obligations.FailedGwgInitKeepsGenerator := by
  intro s hroom
  refine ⟨fun hpi => ?_, fun hpi hlen => ?_, fun t h hfail => ?_⟩
  · exact execGwgInit_of_raise (nameOperands_raise_iff.2 ⟨hroom, .inl ⟨hpi, rfl⟩⟩)
  · exact execGwgInit_of_raise (nameOperands_raise_iff.2 ⟨hroom, .inr ⟨hpi, hlen, rfl⟩⟩)
  · obtain ⟨e, -, rfl⟩ := exists_raises_of_exec h hfail
    exact ⟨rfl, rfl⟩

/-- Settles O24: a failing command ends in the abort of an error it raises, and only the encoder's carries a value. -/
theorem failingCommandChangesOnlyStatus : Obligations.FailingCommandChangesOnlyStatus := by
  refine ⟨fun i s t h hfail => ?_, fun w s hillegal => ⟨w, runCommand_of_illegal hillegal s⟩⟩
  obtain ⟨e, hraises, rfl⟩ := exists_raises_of_exec h hfail
  rw [abort_errLast, abort_errInfo, codeWord_toNat]
  refine ⟨abort_eq_failedWith e s, code_pos e, code_le_six e, fun hcode => ?_, hraises.encoder_of_code_four⟩
  simpa using (info_isSome_iff e).not.2 hcode

/-- Settles O26: a command fails only with an error it raises, each of which has a failed check behind it. -/
theorem errorsOnlyFromListedCommands : Obligations.ErrorsOnlyFromListedCommands := by
  intro i s t h
  by_cases h0 : t.errLast = 0
  · exact ⟨.inl h0, fun _ => h0, fun _ _ => h0, fun _ _ _ => h0⟩
  obtain ⟨e, hraises, rfl⟩ := exists_raises_of_exec h h0
  refine ⟨.inr ?_, ?_, fun hpulls hvalid => ?_, ?_⟩
  · rw [abort_errLast, codeWord_toNat]
    exact hraises.code_mem_errorCodes
  · rintro rfl
    exact absurd hraises (not_raises_diffEnc s e)
  · exact absurd (hvalid.symm.trans (hraises.genValid_of_pullsWords hpulls)) (by decide)
  · rintro rfl hpi hlen
    exact absurd ⟨hpi, hlen⟩ hraises.operands_of_gwgInit

/-- Settles O27: each failing check ends BITSTREAM before its loop, the one place that calls the encoder. -/
theorem checksComeInOrder : Obligations.ChecksComeInOrder := by
  intro s
  refine ⟨fun hrate hroom => (unmodRejectsDegenerate s hroom).1 (samplesPerBit_lt_four_iff.1 hrate),
    fun henc hbatch hroom => ?_⟩
  have hconfig := And.intro henc hbatch
  refine ⟨fun hpi => ?_, fun hpi hlen => ?_, fun hpi hlen hpadded hcount => ?_⟩
  · have hname := nameOperands_raise_iff.2 ⟨hroom, .inl ⟨hpi, rfl⟩⟩
    exact execBitstream_of_raise (bitstreamResult_raise_iff.2 ⟨hconfig, .inl hname⟩)
  · have hname := nameOperands_raise_iff.2 ⟨hroom, .inr ⟨hpi, hlen, rfl⟩⟩
    exact execBitstream_of_raise (bitstreamResult_raise_iff.2 ⟨hconfig, .inl hname⟩)
  · obtain ⟨ps, hps⟩ := exists_paddedFrom s.psIn
    have hname := (nameOperands_ok_iff hps).2 ⟨⟨hroom, ⟨hpi, hlen⟩, hpadded⟩, rfl⟩
    have hseconds := pairCount_of_toOption_eq_none hcount
    exact execBitstream_of_raise (bitstreamResult_raise_iff.2 ⟨hconfig, .inr ⟨_, hname, .inl hseconds⟩⟩)

end

section
/-! Where BITSTREAM stops without a next state: its configuration refused before any operand is seen (R174, R234), or a
batch that the encoder never answers (R239: O53). -/

namespace Sys2Proof.Machine

theorem execBitstream_of_unbound {s : State} (henc : s.platform.enc = .unbound) :
    execBitstream s = .refused .encoderNotBound := by
  rw [execBitstream_eq, if_pos henc]

theorem execBitstream_of_batchZero {s : State} (henc : s.platform.enc ≠ .unbound) (hbatch : s.platform.batch = 0) :
    execBitstream s = .refused .batchZero := by
  rw [execBitstream_eq, if_neg henc, if_pos hbatch]

section Batches
variable {p : Platform} {pi : Half} {ps : Vector Byte 8} {n k : Nat} {answer : List Pair → List Bit}

theorem encodeFrom_succ_of_noAnswer (hk : k * p.batch < n) (hbatch : fits p.maxLen (min p.batch n) = true)
    (h : streamAnswer p pi ps n k = .noAnswer) (fuel : Nat) :
    encodeFrom p pi ps n (fuel + 1) k = .error (.stuck .encoderNeverAnswers) := by
  rw [encodeFrom_succ hk, if_pos (fits_streamBatch hbatch k), h]

/-- The loop comes to batch number `k`, every earlier one answered, with fuel left: it has spent one unit a batch, and
each batch before holds at least one pair. -/
theorem exists_fuel_at_batch (hb : 0 < p.batch) (hk : k * p.batch < n) (hbatch : fits p.maxLen (min p.batch n) = true)
    (hbits : fits p.maxLen ((List.range k).flatMap fun j => answer (streamBatch pi ps p.batch n j)).length = true)
    (hanswers : ∀ j, j < k → streamAnswer p pi ps n j = .ok (answer (streamBatch pi ps p.batch n j))) :
    ∃ fuel, encodeFrom p pi ps n n 0 = encodeFrom p pi ps n (fuel + 1) k := by
  have hlt : k < n := (Nat.le_mul_of_pos_right k hb).trans_lt hk
  have hbefore : ∀ j, j < k → j * p.batch < n := fun j hj => (Nat.mul_le_mul_right _ hj.le).trans_lt hk
  obtain ⟨fuel, hfuel⟩ : ∃ fuel, n = fuel + 1 + k := ⟨n - k - 1, by omega⟩
  have hreach := encodeFrom_zero_of_batchesPass hbefore (batchPasses_of_answered hbatch hbits hanswers) (fuel + 1)
  rw [← hfuel] at hreach
  exact ⟨fuel, hreach⟩

end Batches

end Sys2Proof.Machine

open Sys2Proof Sys2Proof.Machine

/-- Settles O53: the configuration is looked at first, and the loop that valid operands start comes to batch number `k`
and is stuck there. -/
theorem bitstreamStops : Obligations.BitstreamStops := by
  intro s
  refine ⟨execBitstream_of_unbound, execBitstream_of_batchZero, ?_⟩
  intro ps n k answer henc hb hpi hlen hps hn hk batch hroom hbatch hbits hanswers hnone
  obtain ⟨fuel, hreach⟩ := exists_fuel_at_batch hb hk hbatch hbits hanswers
  rw [exec, execBitstream_eq_encodeFrom henc hb hpi hlen hps hn hroom, hreach,
    encodeFrom_succ_of_noAnswer hk hbatch hnone]
  rfl

end
